-- ==== Sys2Proof/Word.lean ====
section
/-! DEFINITION. The word types of the block: a command word is 32 bits (R80), a framebuffer, font, payload and bus
unit is one byte (R68), a rectangle of `FB` is reached by `div` and `mod` on natural numbers (R10). -/

namespace Sys2Proof

/-- A command word, 32 bits, bit 31 the most significant (R80). -/
abbrev Word := BitVec 32

/-- A byte of `FB`, `FONT`, a payload or a bus transaction (R68). -/
abbrev Byte := BitVec 8

end Sys2Proof
end

