-- ==== Sys2Proof/Config.lean ====
section
/-! DEFINITION. The parameters of the block (00_scope.md R6, R7, R8): what is fixed for the life of the block (R53), the
constants the source fixes, the free values (opaque, no body) for what the spec leaves open, and the reset configuration. -/

namespace Sys2Proof

/-- The OPEN parameters of R6. They are held in the state and never change (log 3). -/
structure Config where
  /-- `W`, visible width in pixels. -/
  w : Nat
  /-- `H`, visible height in pixels. -/
  h : Nat
  /-- `IW`, internal width: the controller's physical column count. -/
  iw : Nat
  /-- `FB_AVAILABLE`: the framebuffer storage exists. -/
  fbAvailable : Bool
  /-- `FONT`, 95 glyphs of 5 column bytes (R130). -/
  font : List Byte
  /-- `SPI_HZ_RESET`, the bus clock asked for at block reset (D16). -/
  spiHzReset : Word
  /-- `INIT_RATIO`, 3 bits (D19). -/
  initRatio : BitVec 3
  /-- `INIT_VOLUME`, 6 bits (D19). -/
  initVolume : BitVec 6
  /-- `BIAS_CMD` (D19). -/
  biasCmd : Byte
  /-- `POWER_CMD` (D19). -/
  powerCmd : Byte
  /-- `START_LINE`, 6 bits (D19). -/
  startLine : BitVec 6
  deriving DecidableEq, Repr

/-- `PAGES = H div 8` (R6). -/
def Config.pages (c : Config) : Nat := c.h / 8

/-- `FB_SIZE = IW * PAGES` (R6). -/
def Config.fbSize (c : Config) : Nat := c.iw * c.pages

/-- `OFFSET_MAX = IW - W` (R8). -/
def Config.offsetMax (c : Config) : Nat := c.iw - c.w

/-- The geometry constraints of R7. -/
abbrev Config.GeometryOk (c : Config) : Prop :=
  c.h % 8 = 0 ∧ 8 ≤ c.h ∧ c.h ≤ 128 ∧ 6 ≤ c.w ∧ c.w ≤ c.iw ∧ c.iw ≤ 256

/-- `FONT` has its `95 * 5` bytes (R49, R70, R130). -/
abbrev Config.FontOk (c : Config) : Prop := c.font.length = 475

/-- A configuration a model must not refuse (R7; log 13). -/
abbrev Config.Valid (c : Config) : Prop := c.GeometryOk ∧ c.FontOk

/-! The constants of R6. -/

/-- `FONT_FIRST`. -/
def Config.fontFirst : Nat := 0x20
/-- `FONT_LAST`. -/
def Config.fontLast : Nat := 0x7E
/-- `FALLBACK_CHAR`, `?`. -/
def Config.fallbackChar : Nat := 0x3F
/-- `GLYPH_W`. -/
def Config.glyphW : Nat := 5
/-- `CHAR_ADVANCE`. -/
def Config.charAdvance : Nat := 6
/-- `LINE_ADVANCE`. -/
def Config.lineAdvance : Nat := 8
/-- `XBM_NOMIRROR_MIN_W`, a build-time constant (90_conflicts.md C2). -/
def Config.xbmNoMirrorMinW : Int := 100
/-- `SPI_HZ_MIN`. -/
def Config.spiHzMin : Nat := 100000
/-- `SPI_HZ_MAX`. -/
def Config.spiHzMax : Nat := 8000000
/-- `RESET_HOLD_MS`. -/
def Config.resetHoldMs : Nat := 2
/-- `RESET_BOOT_MS`. -/
def Config.resetBootMs : Nat := 10

/-! FREE VALUES: nothing in Lean can evaluate them. -/

/-- What byte `i` of `FB` holds after block reset: unspecified (R251, I1; log 7). -/
opaque Config.fbPowerOn : Nat → Byte

/-- Byte `i` of the reset configuration's font ROM: not in the source (R130, I2; log 6). -/
opaque Config.fontByte : Nat → Byte

/-- The level of the controller reset line before the first `BEGIN`: unspecified (R47, I8; log 8). -/
opaque Config.rstLinePowerOn : Bool

/-- `SPI_HZ_RESET` of the reset configuration: OPEN (I3; log 6). -/
opaque Config.spiHzPowerOn : Word

/-- `INIT_RATIO` of the reset configuration: OPEN (I4; log 6). -/
opaque Config.initRatioValue : BitVec 3

/-- `INIT_VOLUME` of the reset configuration: OPEN (I4; log 6). -/
opaque Config.initVolumeValue : BitVec 6

/-- The reset configuration. DESIGN CHOICE: the geometry and `FB_AVAILABLE = 1` of 95_test_vectors.md section 0 (log 4).
PRESUMED: the spec's suggested `BIAS_CMD`, `POWER_CMD`, `START_LINE` (R6, D19; log 5). The rest is free (log 6). -/
def Config.reference : Config where
  w := 128
  h := 64
  iw := 132
  fbAvailable := true
  font := (List.range 475).map Config.fontByte
  spiHzReset := Config.spiHzPowerOn
  initRatio := Config.initRatioValue
  initVolume := Config.initVolumeValue
  biasCmd := 0xA2#8
  powerCmd := 0x2F#8
  startLine := 0#6

end Sys2Proof
end

