-- ==== Sys2Proof/Syntax.lean ====
section
/-! DEFINITION. The commands of the block as syntax: one constructor for each row of the opcode map (30_encoding.md R84),
with the operand values of R82. -/

namespace Sys2Proof

/-- A command. Coordinates, sizes and the offset are signed (R82); `v`, `bg` and the flags are bits (R12); payloads are
byte lists (R65). -/
inductive Instr where
  /-- `NOP` (R210). -/
  | nop
  /-- `SET_PIXEL x, y, v` (R103). -/
  | setPixel (x y : Int) (v : Bool)
  /-- `CLEAR` (R104). -/
  | clear
  /-- `START_FRAME bg` (R105). -/
  | startFrame (bg : Bool)
  /-- `FILL_RECT x, y, w, h` (R106). -/
  | fillRect (x y w h : Int)
  /-- `DRAW_RECT x, y, w, h` (R107). -/
  | drawRect (x y w h : Int)
  /-- `SET_CURSOR x, y` (R108). -/
  | setCursor (x y : Int)
  /-- `SET_COLOR v` (R109). -/
  | setColor (v : Bool)
  /-- `READ_FB index` (R110). -/
  | readFb (index : Nat)
  /-- `SET_TEXT_SIZE n` (R132). -/
  | setTextSize (n : Byte)
  /-- `PRINT "text"` (R134). -/
  | print (text : List Byte)
  /-- `GET_TEXT_WIDTH L` (R135). -/
  | getTextWidth (len : Nat)
  /-- `DRAW_CHAR x, y, c` (R133). -/
  | drawChar (x y : Int) (c : Byte)
  /-- `DRAW_XBM x, y, w, h, [bytes]` (R153). -/
  | drawXbm (x y w h : Int) (bytes : List Byte)
  /-- `SET_BITMAP_MSB_LEFT v` (R154). -/
  | setBitmapMsbLeft (v : Bool)
  /-- `SET_BITMAP_FLIP_H v` (R155). -/
  | setBitmapFlipH (v : Bool)
  /-- `SET_BITMAP_FLIP_V v` (R156). -/
  | setBitmapFlipV (v : Bool)
  /-- `BEGIN` (R174). -/
  | beginInit
  /-- `TURN_ON` (R175). -/
  | turnOn
  /-- `TURN_OFF` (R176). -/
  | turnOff
  /-- `IS_ON` (R177). -/
  | isOn
  /-- `END_FRAME` (R178). -/
  | endFrame
  /-- `SET_OFFSET x` (R179). -/
  | setOffset (ox : Int)
  /-- `CONFIGURE_ORIENTATION segRemap, comReverse, lsbAtTop` (R180). -/
  | configureOrientation (segRemap comReverse lsbAtTop : Bool)
  /-- `SET_CONTRAST ratio, volume` (R181). -/
  | setContrast (ratio volume : Byte)
  /-- `SET_INVERSE v` (R182). -/
  | setInverse (v : Bool)
  /-- `SET_SPI_FREQUENCY hz` (R183). -/
  | setSpiFrequency (hz : Word)
  deriving DecidableEq, Repr

end Sys2Proof
end

