-- ==== Sys2Proof/WellFormed.lean ====
section
/-! DEFINITION. Which commands have an encoding: every operand fits its field and a bitmap carries the bytes its size
announces (30_encoding.md R82, R83, R89). -/

namespace Sys2Proof

/-- A signed 16-bit field can hold `v` (R10, R82). -/
abbrev Fits16 (v : Int) : Prop := -32768 ≤ v ∧ v ≤ 32767

/-- An unsigned 16-bit field can hold `n` (R82). -/
abbrev FitsU16 (n : Nat) : Prop := n < 65536

/-- `N`, the payload bytes of a `w × h` bitmap: `((w + 7) div 8) * h`, or 0 for an empty one (R83, R150). -/
def xbmBytes (w h : Int) : Nat :=
  if 0 < w ∧ 0 < h then (w.toNat + 7) / 8 * h.toNat else 0

/-- The command can be written in its format: exactly what the assembler of R89 does not reject. -/
def Instr.wf : Instr → Bool
  | .nop => true
  | .setPixel x y _ => decide (Fits16 x ∧ Fits16 y)
  | .clear => true
  | .startFrame _ => true
  | .fillRect x y w h => decide (Fits16 x ∧ Fits16 y ∧ Fits16 w ∧ Fits16 h)
  | .drawRect x y w h => decide (Fits16 x ∧ Fits16 y ∧ Fits16 w ∧ Fits16 h)
  | .setCursor x y => decide (Fits16 x ∧ Fits16 y)
  | .setColor _ => true
  | .readFb index => decide (FitsU16 index)
  | .setTextSize _ => true
  | .print text => decide (FitsU16 text.length)
  | .getTextWidth len => decide (FitsU16 len)
  | .drawChar x y _ => decide (Fits16 x ∧ Fits16 y)
  | .drawXbm x y w h bytes =>
    decide (Fits16 x ∧ Fits16 y ∧ Fits16 w ∧ Fits16 h ∧ bytes.length = xbmBytes w h)
  | .setBitmapMsbLeft _ => true
  | .setBitmapFlipH _ => true
  | .setBitmapFlipV _ => true
  | .beginInit => true
  | .turnOn => true
  | .turnOff => true
  | .isOn => true
  | .endFrame => true
  | .setOffset ox => decide (Fits16 ox)
  | .configureOrientation _ _ _ => true
  | .setContrast _ _ => true
  | .setInverse _ => true
  | .setSpiFrequency _ => true

/-- The command is well formed. -/
abbrev Instr.WellFormed (i : Instr) : Prop := i.wf = true

end Sys2Proof
end

