-- ==== Sys2Proof/Decode.lean ====
section
/-! DEFINITION. The decoder and the encoder (30_encoding.md): formats, opcode map, command length, operand assembly,
payload packing; total on any list of words, every illegal header rejected with its kind. -/

namespace Sys2Proof

/-- The formats of R81. -/
inductive Format where
  | z | b | f3 | c8 | c16 | rv | p | bp | cp | ps | u32 | l | xbm
  deriving DecidableEq, Repr

/-- The opcodes of R84, in the table's order. -/
inductive Op where
  | nop | setPixel | clear | startFrame | fillRect | drawRect | setCursor | setColor | readFb
  | setTextSize | print | getTextWidth | drawChar | drawXbm
  | setBitmapMsbLeft | setBitmapFlipH | setBitmapFlipV
  | beginInit | turnOn | turnOff | isOn | endFrame | setOffset | configureOrientation
  | setContrast | setInverse | setSpiFrequency
  deriving DecidableEq, Repr

/-- The two kinds of illegal header (R85). -/
inductive HeaderFault where
  /-- `OPC` is not in the opcode map: cause 1. -/
  | unknownOpcode
  /-- `OPC` is in the map and a reserved header bit is 1: cause 2. -/
  | reservedBits
  deriving DecidableEq, Repr

/-- What the words at the head of the stream are (R85, R87, R211). -/
inductive Fetched where
  /-- Not all words of the command have arrived (R211, R225). -/
  | incomplete
  /-- An illegal header, and how many words it consumes (R85). -/
  | illegal (kind : HeaderFault) (header : Word) (len : Nat)
  /-- A command and its length in words (R83). -/
  | command (i : Instr) (len : Nat)
  deriving DecidableEq, Repr

/-! ## Formats and the opcode map -/

/-- The header bits a format names (R81): its fields below the opcode. -/
def Format.fields : Format → Word
  | .z => 0x00000000#32
  | .b => 0x00000001#32
  | .f3 => 0x00000007#32
  | .c8 => 0x000000FF#32
  | .c16 => 0x0000FFFF#32
  | .rv => 0x0000FFFF#32
  | .p => 0x00000000#32
  | .bp => 0x00000001#32
  | .cp => 0x000000FF#32
  | .ps => 0x00000000#32
  | .u32 => 0x00000000#32
  | .l => 0x0000FFFF#32
  | .xbm => 0x00000000#32

/-- The argument words `A1`, `A2` a format has (R81). -/
def Format.args : Format → Nat
  | .z | .b | .f3 | .c8 | .c16 | .rv | .l => 0
  | .p | .bp | .cp | .u32 => 1
  | .ps | .xbm => 2

/-- `mask` of R84: ones on the opcode and on the reserved bits. -/
def Format.mask (f : Format) : Word := ~~~f.fields

/-- `OPC` of a command (R84). -/
def Op.code : Op → BitVec 8
  | .nop => 0x00#8
  | .setPixel => 0x10#8
  | .clear => 0x11#8
  | .startFrame => 0x12#8
  | .fillRect => 0x13#8
  | .drawRect => 0x14#8
  | .setCursor => 0x15#8
  | .setColor => 0x16#8
  | .readFb => 0x17#8
  | .setTextSize => 0x20#8
  | .print => 0x21#8
  | .getTextWidth => 0x22#8
  | .drawChar => 0x23#8
  | .drawXbm => 0x30#8
  | .setBitmapMsbLeft => 0x31#8
  | .setBitmapFlipH => 0x32#8
  | .setBitmapFlipV => 0x33#8
  | .beginInit => 0x40#8
  | .turnOn => 0x41#8
  | .turnOff => 0x42#8
  | .isOn => 0x43#8
  | .endFrame => 0x44#8
  | .setOffset => 0x45#8
  | .configureOrientation => 0x46#8
  | .setContrast => 0x47#8
  | .setInverse => 0x48#8
  | .setSpiFrequency => 0x49#8

/-- The format of a command (R84). -/
def Op.format : Op → Format
  | .nop => .z
  | .setPixel => .bp
  | .clear => .z
  | .startFrame => .b
  | .fillRect => .ps
  | .drawRect => .ps
  | .setCursor => .p
  | .setColor => .b
  | .readFb => .c16
  | .setTextSize => .c8
  | .print => .l
  | .getTextWidth => .c16
  | .drawChar => .cp
  | .drawXbm => .xbm
  | .setBitmapMsbLeft => .b
  | .setBitmapFlipH => .b
  | .setBitmapFlipV => .b
  | .beginInit => .z
  | .turnOn => .z
  | .turnOff => .z
  | .isOn => .z
  | .endFrame => .z
  | .setOffset => .c16
  | .configureOrientation => .f3
  | .setContrast => .rv
  | .setInverse => .b
  | .setSpiFrequency => .u32

/-- The rows of R84, in order. -/
def Op.all : List Op :=
  [.nop, .setPixel, .clear, .startFrame, .fillRect, .drawRect, .setCursor, .setColor, .readFb,
   .setTextSize, .print, .getTextWidth, .drawChar, .drawXbm,
   .setBitmapMsbLeft, .setBitmapFlipH, .setBitmapFlipV,
   .beginInit, .turnOn, .turnOff, .isOn, .endFrame, .setOffset, .configureOrientation,
   .setContrast, .setInverse, .setSpiFrequency]

/-- The row whose opcode is `c`, if the map has one. -/
def Op.ofCode (c : BitVec 8) : Option Op := Op.all.find? (fun op => op.code == c)

/-- `match` of R84: the opcode in the top byte, every other bit 0. -/
def Op.matchWord (op : Op) : Word := op.code.setWidth 32 <<< 24

/-! ## Fields -/

/-- `OPC = h[31:24]` (R80). -/
def opcodeOf (h : Word) : BitVec 8 := h.extractLsb' 24 8

/-- A reserved header bit is 1: `h & mask` is not `match` (R84, R85; log 11). -/
def reservedSet (op : Op) (h : Word) : Bool := h &&& op.format.mask != op.matchWord

/-- The low and the high 16-bit field of an argument word, signed (R81, R82). -/
def loSigned (a : Word) : Int := (a.extractLsb' 0 16).toInt
@[inherit_doc loSigned]
def hiSigned (a : Word) : Int := (a.extractLsb' 16 16).toInt

/-- `zext_16(h[15:0])` (R82). -/
def imm16 (h : Word) : Nat := (h.extractLsb' 0 16).toNat

/-- The four bytes of a payload word, least significant first (R65). -/
def wordBytes (v : Word) : List Byte :=
  [v.extractLsb' 0 8, v.extractLsb' 8 8, v.extractLsb' 16 8, v.extractLsb' 24 8]

/-- The `n` payload bytes that payload words hold; pad bytes are dropped (R65). -/
def payloadBytes (n : Nat) (ws : List Word) : List Byte := (ws.flatMap wordBytes).take n

/-- `ceil(n / 4)`: the words `n` payload bytes take (R65, R83). -/
def payloadWords (n : Nat) : Nat := (n + 3) / 4

/-- `len(h, A2)`, the command length in words of R83. -/
def commandLength (f : Format) (h a2 : Word) : Nat :=
  match f with
  | .z | .b | .f3 | .c8 | .c16 | .rv => 1
  | .p | .bp | .cp | .u32 => 2
  | .ps => 3
  | .l => 1 + payloadWords (imm16 h)
  | .xbm => 3 + payloadWords (xbmBytes (loSigned a2) (hiSigned a2))

/-- Operand assembly (R82): the command that header `h` and the words after it stand for. -/
def assembleOperands (op : Op) (h : Word) (rest : List Word) : Instr :=
  let a1 := rest.getD 0 0
  let a2 := rest.getD 1 0
  match op with
  | .nop => .nop
  | .setPixel => .setPixel (loSigned a1) (hiSigned a1) (h.getLsbD 0)
  | .clear => .clear
  | .startFrame => .startFrame (h.getLsbD 0)
  | .fillRect => .fillRect (loSigned a1) (hiSigned a1) (loSigned a2) (hiSigned a2)
  | .drawRect => .drawRect (loSigned a1) (hiSigned a1) (loSigned a2) (hiSigned a2)
  | .setCursor => .setCursor (loSigned a1) (hiSigned a1)
  | .setColor => .setColor (h.getLsbD 0)
  | .readFb => .readFb (imm16 h)
  | .setTextSize => .setTextSize (h.extractLsb' 0 8)
  | .print => .print (payloadBytes (imm16 h) rest)
  | .getTextWidth => .getTextWidth (imm16 h)
  | .drawChar => .drawChar (loSigned a1) (hiSigned a1) (h.extractLsb' 0 8)
  | .drawXbm =>
    .drawXbm (loSigned a1) (hiSigned a1) (loSigned a2) (hiSigned a2)
      (payloadBytes (xbmBytes (loSigned a2) (hiSigned a2)) (rest.drop 2))
  | .setBitmapMsbLeft => .setBitmapMsbLeft (h.getLsbD 0)
  | .setBitmapFlipH => .setBitmapFlipH (h.getLsbD 0)
  | .setBitmapFlipV => .setBitmapFlipV (h.getLsbD 0)
  | .beginInit => .beginInit
  | .turnOn => .turnOn
  | .turnOff => .turnOff
  | .isOn => .isOn
  | .endFrame => .endFrame
  | .setOffset => .setOffset (loSigned h)
  | .configureOrientation =>
    .configureOrientation (h.getLsbD 0) (h.getLsbD 1) (h.getLsbD 2)
  | .setContrast => .setContrast (h.extractLsb' 0 8) (h.extractLsb' 8 8)
  | .setInverse => .setInverse (h.getLsbD 0)
  | .setSpiFrequency => .setSpiFrequency a1

/-- The sequencer's reading of the words at the head of the stream, in the order of R211: opcode, argument words, length,
payload words, reserved bits. -/
def decodeCommand (ws : List Word) : Fetched :=
  match ws with
  | [] => .incomplete
  | h :: rest =>
    match Op.ofCode (opcodeOf h) with
    | none => .illegal .unknownOpcode h 1
    | some op =>
      let n := commandLength op.format h (rest.getD 1 0)
      if rest.length < op.format.args then .incomplete
      else if ws.length < n then .incomplete
      else if reservedSet op h then .illegal .reservedBits h n
      else .command (assembleOperands op h (rest.take (n - 1))) n

/-! ## The encoder -/

/-- The row of a command. -/
def Instr.op : Instr → Op
  | .nop => .nop
  | .setPixel _ _ _ => .setPixel
  | .clear => .clear
  | .startFrame _ => .startFrame
  | .fillRect _ _ _ _ => .fillRect
  | .drawRect _ _ _ _ => .drawRect
  | .setCursor _ _ => .setCursor
  | .setColor _ => .setColor
  | .readFb _ => .readFb
  | .setTextSize _ => .setTextSize
  | .print _ => .print
  | .getTextWidth _ => .getTextWidth
  | .drawChar _ _ _ => .drawChar
  | .drawXbm _ _ _ _ _ => .drawXbm
  | .setBitmapMsbLeft _ => .setBitmapMsbLeft
  | .setBitmapFlipH _ => .setBitmapFlipH
  | .setBitmapFlipV _ => .setBitmapFlipV
  | .beginInit => .beginInit
  | .turnOn => .turnOn
  | .turnOff => .turnOff
  | .isOn => .isOn
  | .endFrame => .endFrame
  | .setOffset _ => .setOffset
  | .configureOrientation _ _ _ => .configureOrientation
  | .setContrast _ _ => .setContrast
  | .setInverse _ => .setInverse
  | .setSpiFrequency _ => .setSpiFrequency

/-- A 16-bit field that holds `v` in two's complement (R10, R82). -/
def field16 (v : Int) : BitVec 16 := BitVec.ofInt 16 v

/-- The argument word `hi[31:16], lo[15:0]` of R81. -/
def pairWord (lo hi : Int) : Word := field16 hi ++ field16 lo

/-- A bit as a header field. -/
def bitField (v : Bool) : Word := (BitVec.ofBool v).setWidth 32

/-- The header operand fields of a command (R81), every other bit 0. -/
def Instr.headerFields : Instr → Word
  | .setPixel _ _ v => bitField v
  | .startFrame bg => bitField bg
  | .setColor v => bitField v
  | .readFb index => (BitVec.ofNat 16 index).setWidth 32
  | .setTextSize n => n.setWidth 32
  | .print text => (BitVec.ofNat 16 text.length).setWidth 32
  | .getTextWidth len => (BitVec.ofNat 16 len).setWidth 32
  | .drawChar _ _ c => c.setWidth 32
  | .setBitmapMsbLeft v => bitField v
  | .setBitmapFlipH v => bitField v
  | .setBitmapFlipV v => bitField v
  | .setOffset ox => (field16 ox).setWidth 32
  | .configureOrientation f0 f1 f2 =>
    bitField f0 ||| bitField f1 <<< 1 ||| bitField f2 <<< 2
  | .setContrast ratio volume => ratio.setWidth 32 ||| volume.setWidth 32 <<< 8
  | .setInverse v => bitField v
  | .nop | .clear | .fillRect _ _ _ _ | .drawRect _ _ _ _ | .setCursor _ _
  | .drawXbm _ _ _ _ _ | .beginInit | .turnOn | .turnOff | .isOn | .endFrame
  | .setSpiFrequency _ => 0

/-- The header word of a command (R80). -/
def Instr.header (i : Instr) : Word := i.op.matchWord ||| i.headerFields

/-- Four payload bytes in one word, the first in the least significant byte (R65). -/
def packWord (b0 b1 b2 b3 : Byte) : Word := b3 ++ b2 ++ b1 ++ b0

/-- Payload bytes packed in words, the last word padded with 0 (R65). -/
def packBytes : List Byte → List Word
  | [] => []
  | [a] => [packWord a 0 0 0]
  | [a, b] => [packWord a b 0 0]
  | [a, b, c] => [packWord a b c 0]
  | a :: b :: c :: d :: rest => packWord a b c d :: packBytes rest

/-- The argument and payload words of a command (R81). -/
def Instr.operandWords : Instr → List Word
  | .setPixel x y _ => [pairWord x y]
  | .fillRect x y w h => [pairWord x y, pairWord w h]
  | .drawRect x y w h => [pairWord x y, pairWord w h]
  | .setCursor x y => [pairWord x y]
  | .print text => packBytes text
  | .drawChar x y _ => [pairWord x y]
  | .drawXbm x y w h bytes => pairWord x y :: pairWord w h :: packBytes bytes
  | .setSpiFrequency hz => [hz]
  | .nop | .clear | .startFrame _ | .setColor _ | .readFb _ | .setTextSize _
  | .getTextWidth _ | .setBitmapMsbLeft _ | .setBitmapFlipH _ | .setBitmapFlipV _
  | .beginInit | .turnOn | .turnOff | .isOn | .endFrame | .setOffset _
  | .configureOrientation _ _ _ | .setContrast _ _ | .setInverse _ => []

/-- The words of a command (R80). -/
def encode (i : Instr) : List Word := i.header :: i.operandWords

/-! ## The table's numbering of bits -/

/-- Word `k` of an instruction whose bits are `w`: bits `32k+31 .. 32k`, every bit from `nbits` on 0. -/
def tableWord (nbits w k : Nat) : Word := BitVec.ofNat 32 ((w % 2 ^ nbits) >>> (32 * k))

/-- The words of the instruction whose bits are `w`, as many as its header and `A2` announce (R83). -/
def tableWords (nbits w : Nat) : List Word :=
  let h := tableWord nbits w 0
  match Op.ofCode (opcodeOf h) with
  | none => [h]
  | some op =>
    (List.range (commandLength op.format h (tableWord nbits w 2))).map (tableWord nbits w)

/-- The instruction the decoder reads from an opcode-table word. -/
def decodeTableWord (nbits w : Nat) : Option Instr :=
  match decodeCommand (tableWords nbits w) with
  | .command i _ => some i
  | .illegal _ _ _ => none
  | .incomplete => none

end Sys2Proof
end

