-- ==== Sys2Proof/Machine/State.lean ====
section
/-! DEFINITION. The state of the block (10_state.md R30 to R53), its bus events (43_serializer.md R170), the reasons a
step can stop, and the state after block reset (70_reset_and_hazards.md R250, R251). -/

namespace Sys2Proof.Machine

/-- The protocol state (R41). `initializing` is held only inside `BEGIN` (R185). -/
inductive PState where
  | uninit | initializing | on | off
  deriving DecidableEq, Repr

/-- `CAUSE`, the cause of the first command fault since reset (R43, R221). -/
inductive Cause where
  | none | unknownOpcode | reservedBits | fbIndexRange
  deriving DecidableEq, Repr

/-- The level of the command/data line during a transaction (R170). -/
inductive DataCommand where
  | cmd | data
  deriving DecidableEq, Repr

/-- A bus event (R170). -/
inductive Event where
  /-- The controller reset line is driven to `level`. -/
  | resetLine (level : Bool)
  /-- At least `ms` milliseconds pass (R261). -/
  | wait (ms : Nat)
  /-- One transaction at clock rate `hz`, its bytes in order. -/
  | txn (dc : DataCommand) (hz : Word) (bytes : List Byte)
  deriving DecidableEq, Repr

/-- The framebuffer: one cell for each index of `[0, FB_SIZE)`, rising (R48, R60, R70). An index that is not listed does
not exist and reads as no byte (log 7). -/
abbrev Memory := List Host.Cell

/-- The canonical form: the cells' indices are `0, 1, .., size - 1` in this order. -/
abbrev Memory.wf (size : Nat) (m : Memory) : Prop := m.map Prod.fst = List.range size

/-- Why the machine stops with a fault. -/
inductive Fault where
  /-- Raised by `guardFb`, `guardFlush` and `READ_FB`: an access to the framebuffer while it is not the `FB_SIZE` bytes of
  R48, or while `OFFSET` is over `OFFSET_MAX` (R36). No run reaches such a state. Safe (log 12). -/
  | outsideFramebuffer
  deriving DecidableEq, Repr

/-- Why the machine answers no next state and no fault. -/
inductive Refusal where
  /-- Raised by `exec` for an instruction without a meaning yet. Safe. -/
  | notModelled (mnemonic : String)
  /-- Raised by `step`: the parameters are outside R7, "A model must refuse any configuration that violates these". Safe
  (log 13). -/
  | badConfiguration
  /-- Raised by `step`: no delivered word is left and the command is not complete; the block holds, "stuck, not fault"
  (R211, R225). Safe (log 2). -/
  | awaitingWords
  deriving DecidableEq, Repr

/-- The state. Every register has one home here; `FB_OK`, `TEXT_SCALE`, `STATUS` and `BUSY` are computed (R38, R42,
R45). -/
structure State where
  /-- The parameters, fixed for the life of the block (R53; the model's own field, log 3). -/
  cfg : Config
  /-- `CURSOR_X` (R34). -/
  cursorX : BitVec 32
  /-- `CURSOR_Y` (R34). -/
  cursorY : BitVec 32
  /-- `COLOR` (R35). -/
  color : Bool
  /-- `OFFSET` (R36). -/
  offset : Nat
  /-- `SEG_REMAP` (R37). -/
  segRemap : Bool
  /-- `COM_REVERSE` (R37). -/
  comReverse : Bool
  /-- `LSB_AT_TOP` (R37). -/
  lsbAtTop : Bool
  /-- `SPI_HZ` (R39). -/
  spiHz : Word
  /-- `BMP_MSB_LEFT` (R40). -/
  bmpMsbLeft : Bool
  /-- `BMP_FLIP_H` (R40). -/
  bmpFlipH : Bool
  /-- `BMP_FLIP_V` (R40). -/
  bmpFlipV : Bool
  /-- `PSTATE` (R41). -/
  pstate : PState
  /-- `ILL` (R43). -/
  ill : Bool
  /-- `CAUSE` (R43). -/
  cause : Cause
  /-- `FAULT_WORD` (R43). -/
  faultWord : Word
  /-- `RESULT` (R44). -/
  result : Word
  /-- `RST_LINE` (R47). -/
  rstLine : Bool
  /-- `FB` (R48). -/
  fb : Memory
  /-- `OUT`, oldest event first (R50). -/
  out : List Event
  /-- `CAB`, header first (R33). -/
  cab : List Word
  /-- `CSP` (R32). -/
  csp : Nat
  /-- The words the host has delivered and the block has not taken (the model's own field, log 1). -/
  stream : List Word
  deriving DecidableEq, Repr

/-- `clamp(hz, SPI_HZ_MIN, SPI_HZ_MAX)` (R10, R39). -/
def clampHz (hz : Word) : Word :=
  BitVec.ofNat 32 (min (max hz.toNat Config.spiHzMin) Config.spiHzMax)

/-- Block reset of a block with parameters `c` (R250). The framebuffer, when it exists, holds unspecified bytes (R251). -/
def State.resetWith (c : Config) : State where
  cfg := c
  cursorX := 0
  cursorY := 0
  color := true
  offset := 0
  segRemap := false
  comReverse := false
  lsbAtTop := true
  spiHz := clampHz c.spiHzReset
  bmpMsbLeft := false
  bmpFlipH := false
  bmpFlipV := false
  pstate := .uninit
  ill := false
  cause := .none
  faultWord := 0
  result := 0
  rstLine := Config.rstLinePowerOn
  fb := if c.fbAvailable then (List.range c.fbSize).map (fun i => (i, Config.fbPowerOn i)) else []
  out := []
  cab := []
  csp := 0
  stream := []

/-- The machine right after block reset, with the reset configuration (log 4, 5, 6). -/
def State.reset : State := State.resetWith Config.reference

end Sys2Proof.Machine
end

