-- ==== Sys2Proof/Machine/Flags.lean ====
section
/-! DEFINITION. The status flags of the block (10_state.md R41 to R46) and the host's read ports (R45). The block has no
condition codes and no arithmetic flags (R46). -/

namespace Sys2Proof.Machine

/-- The 2-bit code of `PSTATE` (R41). -/
def PState.code : PState → Word
  | .uninit => 0
  | .initializing => 1
  | .on => 2
  | .off => 3

/-- The 2-bit code of `CAUSE` (R43). -/
def Cause.code : Cause → Word
  | .none => 0
  | .unknownOpcode => 1
  | .reservedBits => 2
  | .fbIndexRange => 3

/-- The cause an illegal header records (R85, R221). -/
def causeOf : HeaderFault → Cause
  | .unknownOpcode => .unknownOpcode
  | .reservedBits => .reservedBits

/-- `FB_OK`, equal to `FB_AVAILABLE` at all times (R42). -/
def State.fbOk (s : State) : Bool := s.cfg.fbAvailable

/-- `BUSY`: a command has begun to arrive and is not complete (R33, R45). -/
def State.busy (s : State) : Bool := !s.cab.isEmpty

/-- `initialized` (R171). -/
def State.initialized (s : State) : Bool := s.pstate != .uninit

/-- `STATUS` (R45). -/
def State.status (s : State) : Word :=
  bitField s.fbOk ||| s.pstate.code <<< 1 ||| bitField s.ill <<< 3 ||| bitField s.busy <<< 4
    ||| s.cause.code <<< 5

/-- The three ports the host can read (R45). -/
inductive HostPort where
  | result | status | faultWord
  deriving DecidableEq, Repr

/-- What the host reads at a port. Reading changes nothing (R45). -/
def hostRead (s : State) : HostPort → Word
  | .result => s.result
  | .status => s.status
  | .faultWord => s.faultWord

end Sys2Proof.Machine
end

