-- ==== Sys2Proof/Machine/Operands.lean ====
section
/-! DEFINITION. Operand forms: the clip window and the one addressing mode of the block (20_memory.md R60 to R62), the
integer ranges its loops run over (R11), the font ROM (41_glyph.md R130) and the bitmap layout (42_bitmap.md R150 to
R152). -/

namespace Sys2Proof.Machine

/-- `(x, y)` is inside the clip window `[0, W) × [0, H)` (R62). -/
abbrev State.InWindow (s : State) (x y : Int) : Prop :=
  0 ≤ x ∧ x < s.cfg.w ∧ 0 ≤ y ∧ y < s.cfg.h

/-- The index of the byte of page `p` and physical column `col` (R60). -/
def State.fbIndex (s : State) (p col : Nat) : Nat := p * s.cfg.iw + col

/-- The translation of R62: the byte index and the bit of a logical coordinate, none outside the window. -/
def State.translate (s : State) (x y : Int) : Option (Nat × Nat) :=
  if s.InWindow x y then
    some (s.fbIndex (y.toNat / 8) (x.toNat + s.offset), y.toNat % 8)
  else none

/-- The coordinates `lo, lo+1, .., hi` that lie in `[0, bound)`: a loop `for i in lo..hi` (R11) without the rounds whose
pixel write the window clips (R100; log 16). -/
def rangeWithin (lo hi : Int) (bound : Nat) : List Int :=
  let first := max lo 0
  let last := min hi (bound - 1 : Int)
  (List.range (last - first + 1).toNat).map (fun (k : Nat) => first + (k : Int))

/-- `glyphIndex(c)` (R130): code points without a glyph take that of `?`. -/
def glyphIndex (c : Byte) : Nat :=
  if Config.fontFirst ≤ c.toNat ∧ c.toNat ≤ Config.fontLast then c.toNat - Config.fontFirst
  else Config.fallbackChar - Config.fontFirst

/-- `FONT[g * 5 + k]` (R130). A valid configuration's font has every byte a glyph index reaches (R70). -/
def State.fontColumn (s : State) (g k : Nat) : Byte :=
  s.cfg.font.getD (g * Config.glyphW + k) 0

/-- `TEXT_SCALE`, hardwired to 1 (R38). -/
def State.textScale (_ : State) : Nat := 1

/-- The row stride of a bitmap in bytes (R150). -/
def xbmStride (w : Int) : Nat := (w.toNat + 7) / 8

/-- The bit of its byte that holds column `c` (R151). -/
def State.xbmBit (s : State) (c : Nat) : Nat :=
  if s.bmpMsbLeft then 7 - c % 8 else c % 8

/-- `srcbit(c, r)` (R151): source pixel `(c, r)` of a bitmap `w` wide is 1. A byte that is not there has no 1 bit (log 18). -/
def State.xbmSource (s : State) (w : Int) (bytes : List Byte) (c r : Nat) : Bool :=
  match bytes[r * xbmStride w + c / 8]? with
  | some v => v.getLsbD (s.xbmBit c)
  | none => false

/-- `mirrorH` (R152): wide bitmaps are never mirrored. -/
def State.mirrorH (s : State) (w : Int) : Bool :=
  s.bmpFlipH && decide (w < Config.xbmNoMirrorMinW)

/-- `dx` of source column `c` (R152). -/
def State.xbmDx (s : State) (w : Int) (c : Nat) : Int :=
  if s.mirrorH w then w - 1 - c else c

/-- `dy` of source row `r` (R152). -/
def State.xbmDy (s : State) (h : Int) (r : Nat) : Int :=
  if s.bmpFlipV then h - 1 - r else r

/-- `clamp(ox, 0, IW - W)` (R10, R179). -/
def State.clampOffset (s : State) (ox : Int) : Nat := min ox.toNat s.cfg.offsetMax

end Sys2Proof.Machine
end

