-- ==== Sys2Proof/Machine/Ops.lean ====
section
/-! DEFINITION. The named operations over memory, registers and the bus, and `raise ILLEGAL`. -/

namespace Sys2Proof.Machine

/-! ## Framebuffer bytes and pixels -/

/-- `FB[i]` (R11); none where the index does not exist (R70). -/
def Memory.read : Memory → Nat → Option Byte
  | [], _ => none
  | (a, v) :: m, i => if a = i then some v else Memory.read m i

/-- `FB[i] <- v` (R11): the cell of index `i` holds `v`. -/
def Memory.write : Memory → Nat → Byte → Memory
  | [], _, _ => []
  | (a, u) :: m, i, v => if a = i then (a, v) :: m else (a, u) :: Memory.write m i v

/-- `size` cells that all hold `v` (R101). -/
def Memory.filled (size : Nat) (v : Byte) : Memory := (List.range size).map (fun i => (i, v))

/-- Bit `b` of a byte set to `v`, the other bits kept (R100). -/
def setBit (byte : Byte) (b : Nat) (v : Bool) : Byte :=
  if v then byte ||| (1#8 <<< b) else byte &&& ~~~(1#8 <<< b)

/-- The pixel at logical coordinate `(x, y)` (R61, R62); none outside the window. -/
def State.pixelAt (s : State) (x y : Int) : Option Bool :=
  match s.translate x y with
  | none => none
  | some (i, b) => (Memory.read s.fb i).map (fun v => v.getLsbD b)

/-- The state with framebuffer contents `m`. -/
def State.withFb (s : State) (m : Memory) : State := { s with fb := m }

/-- `SetPixel(x, y, v)` (R100): clipped outside the window, else a read and a write of one byte. -/
def setPixel (x y : Int) (v : Bool) (s : State) : State :=
  match s.translate x y with
  | none => s
  | some (i, b) =>
    match Memory.read s.fb i with
    | none => s
    | some byte => s.withFb (Memory.write s.fb i (setBit byte b v))

/-- One pixel write of a drawing command. -/
structure PixelWrite where
  x : Int
  y : Int
  v : Bool
  deriving DecidableEq, Repr

/-- The pixel writes of a drawing command, in order, each through `SetPixel` (R11, R100). -/
def paint (ps : List PixelWrite) (s : State) : State :=
  ps.foldl (fun s p => setPixel p.x p.y p.v s) s

/-- `Fill(byte)` (R101). -/
def fill (v : Byte) (s : State) : State := s.withFb (Memory.filled s.cfg.fbSize v)

/-- The framebuffer is the `FB_SIZE` bytes of R48 and `OFFSET` is in its range (R36), in a configuration of R7: every
access a rule makes is inside the index space (R62). -/
abbrev State.FbSound (s : State) : Prop :=
  s.cfg.Valid ∧ Memory.wf s.cfg.fbSize s.fb ∧ s.offset ≤ s.cfg.offsetMax

/-- The guard of R102 before a drawing command: nothing happens when `FB_OK = 0`. -/
def guardFb (s : State) (act : State → State) : Host.Outcome State Fault Refusal :=
  if s.fbOk = false then .next s
  else if s.FbSound then .next (act s)
  else .fault .outsideFramebuffer

/-! ## Registers -/

/-- `CURSOR_X <- x; CURSOR_Y <- y` (R34). -/
def State.setCursor (s : State) (x y : Int) : State :=
  { s with cursorX := BitVec.ofInt 32 x, cursorY := BitVec.ofInt 32 y }

/-- `COLOR <- v` (R35). -/
def State.setColor (s : State) (v : Bool) : State := { s with color := v }

/-- `OFFSET <- n` (R36). -/
def State.setOffset (s : State) (n : Nat) : State := { s with offset := n }

/-- The orientation flags (R37). -/
def State.setOrientation (s : State) (segRemap comReverse lsbAtTop : Bool) : State :=
  { s with segRemap := segRemap, comReverse := comReverse, lsbAtTop := lsbAtTop }

/-- `TEXT_SCALE <- n`: hardwired, the write is discarded (R38). -/
def State.setTextScale (s : State) (_ : Nat) : State := s

/-- `SPI_HZ <- clamp(hz, SPI_HZ_MIN, SPI_HZ_MAX)` (R39, R183). -/
def State.setSpiHz (s : State) (hz : Word) : State := { s with spiHz := clampHz hz }

/-- `BMP_MSB_LEFT <- v` (R40). -/
def State.setBmpMsbLeft (s : State) (v : Bool) : State := { s with bmpMsbLeft := v }

/-- `BMP_FLIP_H <- v` (R40). -/
def State.setBmpFlipH (s : State) (v : Bool) : State := { s with bmpFlipH := v }

/-- `BMP_FLIP_V <- v` (R40). -/
def State.setBmpFlipV (s : State) (v : Bool) : State := { s with bmpFlipV := v }

/-- `PSTATE <- p` (R41). -/
def State.setPState (s : State) (p : PState) : State := { s with pstate := p }

/-- `RESULT <- v` (R44). -/
def State.setResult (s : State) (v : Word) : State := { s with result := v }

/-- What `CLEAR` and `START_FRAME` do to the drawing state (R104, R105). -/
def resetDrawing (s : State) : State := (s.setCursor 0 0).setColor true

/-! ## Command faults -/

/-- `raise ILLEGAL(cause, word)` (R221): the first fault's cause and word are kept, `ILL` is sticky. There is no trap entry
and no return (R223, R224): nothing else changes and the run goes on. -/
def raiseIllegal (cause : Cause) (word : Word) (s : State) : State :=
  if s.ill then s else { s with ill := true, cause := cause, faultWord := word }

/-! ## The bus -/

/-- `Emit(e)` (R11, R50). -/
def State.emit (s : State) (e : Event) : State := { s with out := s.out ++ [e] }

/-- `Txn(dc, bytes)` at the current bus clock (R170). -/
def txn (dc : DataCommand) (bytes : List Byte) (s : State) : State :=
  s.emit (.txn dc s.spiHz bytes)

/-- The reset line driven to a level (R47, R170). -/
def driveReset (level : Bool) (s : State) : State :=
  { s with rstLine := level }.emit (.resetLine level)

/-- The gate of R171: `act` runs only when the protocol state is not `UNINIT`. -/
def gated (s : State) (act : State → State) : State :=
  if s.pstate = .uninit then s else act s

/-- The bytes of page `p` the flush sends (R173): physical columns `OFFSET .. OFFSET + W - 1`. -/
def State.pageBurst (s : State) (p : Nat) : List Byte :=
  (List.range s.cfg.w).filterMap (fun k => Memory.read s.fb (s.fbIndex p (s.offset + k)))

/-- The three addressing bytes of page `p` (R172, R173). -/
def State.pageAddress (s : State) (p : Nat) : List Byte :=
  [0xB0#8 ||| BitVec.ofNat 8 p, 0x10#8 ||| BitVec.ofNat 8 (s.offset >>> 4),
   0x00#8 ||| BitVec.ofNat 8 (s.offset &&& 0x0F)]

/-- `Flush()` once the gate of R171 has passed (R173): two transactions a page, pages ascending. -/
def flushPages (s : State) : State :=
  (List.range s.cfg.pages).foldl
    (fun t p => txn .data (t.pageBurst p) (txn .cmd (t.pageAddress p) t)) s

/-- `Flush()` (R173): nothing in `UNINIT`, else the page walk over the framebuffer. -/
def flush (s : State) : Host.Outcome State Fault Refusal :=
  if s.pstate = .uninit then .next s
  else if s.fbOk = true ∧ s.FbSound then .next (flushPages s)
  else .fault .outsideFramebuffer

/-- The segment-remap command byte (R172). -/
def segRemapCmd (s : State) : Byte := 0xA0#8 ||| (BitVec.ofBool s.segRemap).setWidth 8

/-- The row-direction command byte (R172). -/
def rowDirectionCmd (s : State) : Byte := if s.comReverse then 0xC8#8 else 0xC0#8

/-- The resistor-ratio command byte, masked to 3 bits (R172). -/
def ratioCmd (r : Byte) : Byte := 0x20#8 ||| (r &&& 0x07#8)

/-- The volume command, its operand masked to 6 bits (R172). -/
def volumeCmd (v : Byte) : List Byte := [0x81#8, v &&& 0x3F#8]

/-- The start-line command byte (R172). -/
def startLineCmd (l : Byte) : Byte := 0x40#8 ||| (l &&& 0x3F#8)

/-- The display-on, display-off and invert-display command bytes (R172). -/
def displayCmd (on : Bool) : Byte := if on then 0xAF#8 else 0xAE#8
@[inherit_doc displayCmd]
def invertCmd (inverse : Bool) : Byte := if inverse then 0xA7#8 else 0xA6#8

/-! ## The wires under a transaction -/

/-- The serial bus at one bit time: device-select, command/data line, data line (R66, R170, D32). -/
structure BusLevel where
  select : Bool
  dc : Bool
  bit : Bool
  deriving DecidableEq, Repr

/-- Device-select is active low (R170, D32). -/
def selectActive : Bool := false

/-- The command/data line is low for a command and high for data (R170, D32). -/
def DataCommand.level : DataCommand → Bool
  | .cmd => false
  | .data => true

/-- A byte on the wire, most significant bit first (R66, R170, D32). -/
def wireBits (v : Byte) : List Bool := (List.range 8).map (fun k => v.getLsbD (7 - k))

/-- The bit times of a transaction between select and release (R170). -/
def Event.wire : Event → List BusLevel
  | .txn dc _ bytes =>
    (bytes.flatMap wireBits).map (fun b => { select := selectActive, dc := dc.level, bit := b })
  | .resetLine _ => []
  | .wait _ => []

end Sys2Proof.Machine
end

