-- ==== Sys2Proof/Machine/Bitmap.lean ====
section
/-! DEFINITION. Meanings of the bitmap unpacker (42_bitmap.md). -/

namespace Sys2Proof.Machine

/-- The pixel writes of `DRAW_XBM` (R153): one for each source bit that is 1, row by row. -/
def State.xbmPixels (s : State) (x y w h : Int) (bytes : List Byte) : List PixelWrite :=
  if w ≤ 0 ∨ h ≤ 0 then []
  else
    (List.range h.toNat).flatMap fun (r : Nat) =>
      (List.range w.toNat).filterMap fun (c : Nat) =>
        if s.xbmSource w bytes c r then
          some { x := x + s.xbmDx w c, y := y + s.xbmDy h r, v := s.color }
        else none

/-- `DRAW_XBM` (R153). -/
def execDrawXbm (x y w h : Int) (bytes : List Byte) (s : State) :
    Host.Outcome State Fault Refusal :=
  guardFb s (fun s => paint (s.xbmPixels x y w h bytes) s)

/-- `SET_BITMAP_MSB_LEFT` (R154). -/
def execSetBitmapMsbLeft (v : Bool) (s : State) : Host.Outcome State Fault Refusal :=
  .next (s.setBmpMsbLeft v)

/-- `SET_BITMAP_FLIP_H` (R155). -/
def execSetBitmapFlipH (v : Bool) (s : State) : Host.Outcome State Fault Refusal :=
  .next (s.setBmpFlipH v)

/-- `SET_BITMAP_FLIP_V` (R156). -/
def execSetBitmapFlipV (v : Bool) (s : State) : Host.Outcome State Fault Refusal :=
  .next (s.setBmpFlipV v)

end Sys2Proof.Machine
end

