-- ==== Sys2Proof/Machine/Control.lean ====
section
/-! DEFINITION. Meanings of the command sequencer's family (44_control.md). -/

namespace Sys2Proof.Machine

/-- `NOP` (R210). -/
def execNop (s : State) : Host.Outcome State Fault Refusal := .next s

end Sys2Proof.Machine
end

