-- ==== Sys2Proof/Machine/Framebuffer.lean ====
section
/-! DEFINITION. Meanings of the framebuffer unit (40_framebuffer.md). -/

namespace Sys2Proof.Machine

/-- `SET_PIXEL` (R103): the operand's value, not `COLOR`. -/
def execSetPixel (x y : Int) (v : Bool) (s : State) : Host.Outcome State Fault Refusal :=
  guardFb s (setPixel x y v)

/-- `CLEAR` (R104). -/
def execClear (s : State) : Host.Outcome State Fault Refusal :=
  if s.fbOk = false then .next s else .next (resetDrawing (fill 0x00#8 s))

/-- `START_FRAME` (R105). -/
def execStartFrame (bg : Bool) (s : State) : Host.Outcome State Fault Refusal :=
  if s.fbOk = false then .next s
  else .next (resetDrawing (fill (if bg then 0xFF#8 else 0x00#8) s))

/-- The pixel writes of `FILL_RECT` (R106). -/
def State.rectPixels (s : State) (x y w h : Int) : List PixelWrite :=
  if w ≤ 0 ∨ h ≤ 0 then []
  else
    (rangeWithin y (y + h - 1) s.cfg.h).flatMap fun j =>
      (rangeWithin x (x + w - 1) s.cfg.w).map fun i => { x := i, y := j, v := s.color }

/-- `FILL_RECT` (R106). -/
def execFillRect (x y w h : Int) (s : State) : Host.Outcome State Fault Refusal :=
  guardFb s (fun s => paint (s.rectPixels x y w h) s)

/-- The pixel writes of `DRAW_RECT` (R107): the top and bottom rows, then the left and right columns. -/
def State.borderPixels (s : State) (x y w h : Int) : List PixelWrite :=
  if w ≤ 0 ∨ h ≤ 0 then []
  else
    ((rangeWithin x (x + w - 1) s.cfg.w).flatMap fun i =>
      [{ x := i, y := y, v := s.color }, { x := i, y := y + h - 1, v := s.color }]) ++
    (rangeWithin y (y + h - 1) s.cfg.h).flatMap fun j =>
      [{ x := x, y := j, v := s.color }, { x := x + w - 1, y := j, v := s.color }]

/-- `DRAW_RECT` (R107). -/
def execDrawRect (x y w h : Int) (s : State) : Host.Outcome State Fault Refusal :=
  guardFb s (fun s => paint (s.borderPixels x y w h) s)

/-- `SET_CURSOR` (R108). -/
def execSetCursor (x y : Int) (s : State) : Host.Outcome State Fault Refusal :=
  .next (s.setCursor x y)

/-- `SET_COLOR` (R109). -/
def execSetColor (v : Bool) (s : State) : Host.Outcome State Fault Refusal :=
  .next (s.setColor v)

/-- `READ_FB` (R110): cause 3 with the header word when the index is outside `FB`. -/
def execReadFb (index : Nat) (s : State) : Host.Outcome State Fault Refusal :=
  if s.fbOk = false then .next (s.setResult 0)
  else if s.cfg.fbSize ≤ index then
    .next (raiseIllegal .fbIndexRange (Instr.readFb index).header s)
  else
    match Memory.read s.fb index with
    | some v => .next (s.setResult (v.setWidth 32))
    | none => .fault .outsideFramebuffer

end Sys2Proof.Machine
end

