-- ==== Sys2Proof/Machine/Glyph.lean ====
section
/-! DEFINITION. Meanings of the glyph renderer (41_glyph.md). -/

namespace Sys2Proof.Machine

/-- The pixel writes of `DrawGlyph(x, y, c)` (R131): five opaque glyph columns, then the spacing column. -/
def State.glyphPixels (s : State) (x y : Int) (c : Byte) : List PixelWrite :=
  ((List.range Config.glyphW).flatMap fun (k : Nat) =>
    (List.range 8).map fun (i : Nat) =>
      { x := x + k,
        y := if s.lsbAtTop then y + i else y + 7 - i,
        v := if (s.fontColumn (glyphIndex c) k).getLsbD i then s.color else !s.color }) ++
  (List.range 8).map fun (i : Nat) => { x := x + 5, y := y + i, v := !s.color }

/-- `DrawGlyph(x, y, c)` (R131). -/
def drawGlyph (x y : Int) (c : Byte) (s : State) : State := paint (s.glyphPixels x y c) s

/-- `SET_TEXT_SIZE` (R132): the operand is discarded. -/
def execSetTextSize (n : Byte) (s : State) : Host.Outcome State Fault Refusal :=
  .next (s.setTextScale n.toNat)

/-- `DRAW_CHAR` (R133). -/
def execDrawChar (x y : Int) (c : Byte) (s : State) : Host.Outcome State Fault Refusal :=
  guardFb s (drawGlyph x y c)

/-- `CHAR_ADVANCE * TEXT_SCALE` (R134). -/
def State.advance (s : State) : Int := Config.charAdvance * s.textScale

/-- The wrap test and its effect (R134). -/
def wrapCursor (s : State) : State :=
  if s.cursorX.toInt + s.advance > s.cfg.w then
    s.setCursor 0 (s.cursorY.toInt + Config.lineAdvance)
  else s

/-- The line at the cursor would exceed the visible height (R134). -/
abbrev State.LineOverflows (s : State) : Prop := s.cursorY.toInt + Config.lineAdvance > s.cfg.h

/-- One drawn character: its cell, then the cursor advance (R134). -/
def drawAtCursor (c : Byte) (s : State) : State :=
  let t := drawGlyph s.cursorX.toInt s.cursorY.toInt c s
  t.setCursor (t.cursorX.toInt + t.advance) t.cursorY.toInt

/-- The loop of `PRINT` (R134): wrap, stop at the bottom, draw, advance. -/
def printText : List Byte → State → State
  | [], s => s
  | c :: cs, s =>
    let t := wrapCursor s
    if t.LineOverflows then t else printText cs (drawAtCursor c t)

/-- `PRINT` (R134). -/
def execPrint (text : List Byte) (s : State) : Host.Outcome State Fault Refusal :=
  guardFb s (printText text)

/-- `GET_TEXT_WIDTH` (R135). -/
def execGetTextWidth (len : Nat) (s : State) : Host.Outcome State Fault Refusal :=
  .next (s.setResult (BitVec.ofNat 32 (len * Config.charAdvance * s.textScale)))

end Sys2Proof.Machine
end

