-- ==== Sys2Proof/Machine/Serializer.lean ====
section
/-! DEFINITION. Meanings of the display page serializer (43_serializer.md). -/

namespace Sys2Proof.Machine

/-- The reset pulse of `BEGIN` (R174, R261). -/
def resetPulse (s : State) : State :=
  (driveReset true ((driveReset false s).emit (.wait Config.resetHoldMs))).emit
    (.wait Config.resetBootMs)

/-- The init command sequence of `BEGIN` (R174), each command one transaction (R186). -/
def initCommands (s : State) : List (List Byte) :=
  [[0xE2#8], [segRemapCmd s], [rowDirectionCmd s], [s.cfg.biasCmd], [s.cfg.powerCmd],
   [ratioCmd (s.cfg.initRatio.setWidth 8)], volumeCmd (s.cfg.initVolume.setWidth 8),
   [startLineCmd (s.cfg.startLine.setWidth 8)], [displayCmd true]]

/-- `CMD` transactions one after the other (R170, R186). -/
def sendCommands (cmds : List (List Byte)) (s : State) : State :=
  cmds.foldl (fun t bytes => txn .cmd bytes t) s

/-- `BEGIN` (R174). -/
def execBeginInit (s : State) : Host.Outcome State Fault Refusal :=
  if s.fbOk = false then .next (s.setResult 0)
  else
    let t := resetPulse (s.setPState .initializing)
    .next (((sendCommands (initCommands t) t).setPState .on).setResult 1)

/-- `TURN_ON` (R175). -/
def execTurnOn (s : State) : Host.Outcome State Fault Refusal :=
  .next (gated s fun s => (txn .cmd [displayCmd true] s).setPState .on)

/-- `TURN_OFF` (R176). -/
def execTurnOff (s : State) : Host.Outcome State Fault Refusal :=
  .next (gated s fun s => (txn .cmd [displayCmd false] s).setPState .off)

/-- `IS_ON` (R177). -/
def execIsOn (s : State) : Host.Outcome State Fault Refusal :=
  .next (s.setResult (if s.pstate = .on then 1 else 0))

/-- `END_FRAME` (R178). -/
def execEndFrame (s : State) : Host.Outcome State Fault Refusal := flush s

/-- `SET_OFFSET` (R179): the clamped offset is stored, then the flush follows. -/
def execSetOffset (ox : Int) (s : State) : Host.Outcome State Fault Refusal :=
  flush (s.setOffset (s.clampOffset ox))

/-- `CONFIGURE_ORIENTATION` (R180). -/
def execConfigureOrientation (segRemap comReverse lsbAtTop : Bool) (s : State) :
    Host.Outcome State Fault Refusal :=
  .next (gated (s.setOrientation segRemap comReverse lsbAtTop) fun s =>
    sendCommands [[segRemapCmd s], [rowDirectionCmd s]] s)

/-- `SET_CONTRAST` (R181): nothing is stored. -/
def execSetContrast (ratio volume : Byte) (s : State) : Host.Outcome State Fault Refusal :=
  .next (gated s (sendCommands [[ratioCmd ratio], volumeCmd volume]))

/-- `SET_INVERSE` (R182): nothing is stored. -/
def execSetInverse (v : Bool) (s : State) : Host.Outcome State Fault Refusal :=
  .next (gated s (txn .cmd [invertCmd v]))

/-- `SET_SPI_FREQUENCY` (R183). -/
def execSetSpiFrequency (hz : Word) (s : State) : Host.Outcome State Fault Refusal :=
  .next (s.setSpiHz hz)

end Sys2Proof.Machine
end

