-- ==== Sys2Proof/Machine/Dispatch.lean ====
section
/-! DEFINITION. One arm for each command. -/

namespace Sys2Proof.Machine

def exec (i : Instr) (s : State) : Host.Outcome State Fault Refusal :=
  match i with
  | .nop => Sys2Proof.Machine.execNop s
  | .setPixel x y v => Sys2Proof.Machine.execSetPixel x y v s
  | .clear => Sys2Proof.Machine.execClear s
  | .startFrame bg => Sys2Proof.Machine.execStartFrame bg s
  | .fillRect x y w h => Sys2Proof.Machine.execFillRect x y w h s
  | .drawRect x y w h => Sys2Proof.Machine.execDrawRect x y w h s
  | .setCursor x y => Sys2Proof.Machine.execSetCursor x y s
  | .setColor v => Sys2Proof.Machine.execSetColor v s
  | .readFb index => Sys2Proof.Machine.execReadFb index s
  | .setTextSize n => Sys2Proof.Machine.execSetTextSize n s
  | .print text => Sys2Proof.Machine.execPrint text s
  | .getTextWidth len => Sys2Proof.Machine.execGetTextWidth len s
  | .drawChar x y c => Sys2Proof.Machine.execDrawChar x y c s
  | .drawXbm x y w h bytes => Sys2Proof.Machine.execDrawXbm x y w h bytes s
  | .setBitmapMsbLeft v => Sys2Proof.Machine.execSetBitmapMsbLeft v s
  | .setBitmapFlipH v => Sys2Proof.Machine.execSetBitmapFlipH v s
  | .setBitmapFlipV v => Sys2Proof.Machine.execSetBitmapFlipV v s
  | .beginInit => Sys2Proof.Machine.execBeginInit s
  | .turnOn => Sys2Proof.Machine.execTurnOn s
  | .turnOff => Sys2Proof.Machine.execTurnOff s
  | .isOn => Sys2Proof.Machine.execIsOn s
  | .endFrame => Sys2Proof.Machine.execEndFrame s
  | .setOffset ox => Sys2Proof.Machine.execSetOffset ox s
  | .configureOrientation segRemap comReverse lsbAtTop => Sys2Proof.Machine.execConfigureOrientation segRemap comReverse lsbAtTop s
  | .setContrast ratio volume => Sys2Proof.Machine.execSetContrast ratio volume s
  | .setInverse v => Sys2Proof.Machine.execSetInverse v s
  | .setSpiFrequency hz => Sys2Proof.Machine.execSetSpiFrequency hz s

end Sys2Proof.Machine
end

