-- ==== Sys2Proof/Machine/Sequencer.lean ====
section
/-! DEFINITION. The sequencer's handling of the command stream (44_control.md R211; 10_state.md R32, R33): which words are
waiting, taking a whole command, holding for words, and placing a command for the next step. -/

namespace Sys2Proof.Machine

/-- The words not yet executed, in delivery order: those in `CAB`, then those still in the stream. -/
def State.pending (s : State) : List Word := s.cab ++ s.stream

/-- A command of `n` words has completed: `CSP <- CSP + n`, its words are gone, `CAB` is empty (R32, R33). -/
def retire (n : Nat) (s : State) : State :=
  { s with csp := s.csp + n, cab := [], stream := s.pending.drop n }

/-- `retire` after an instruction rule that answered a next state. -/
def retireOutcome (n : Nat) : Host.Outcome State Fault Refusal → Host.Outcome State Fault Refusal
  | .next t => .next (retire n t)
  | .fault r => .fault r
  | .refused r => .refused r

/-- The delivered words of an incomplete command are taken into `CAB` (R33). -/
def receiveWords (s : State) : State := { s with cab := s.pending, stream := [] }

/-- The block holds (R211): it takes the words there are, and has no step when there are none (log 2). -/
def holdForWords (s : State) : Host.Outcome State Fault Refusal :=
  if s.stream = [] then .refused .awaitingWords else .next (receiveWords s)

/-- The host delivers words (R64; log 1). -/
def State.deliver (s : State) (ws : List Word) : State := { s with stream := s.stream ++ ws }

/-- A command placed so that the next step executes it: first in the stream, nothing in `CAB`. -/
def placeWords (ws : List Word) (s : State) : State := { s with cab := [], stream := ws ++ s.stream }

/-- A run over a finite stream has ended: every word is consumed and `BUSY = 0` (R213). -/
def State.runEnded (s : State) : Bool := s.stream.isEmpty && !s.busy

end Sys2Proof.Machine
end

