-- ==== Sys2Proof/Machine/Step.lean ====
section
/-! DEFINITION. One step: one whole command of the stream (44_control.md R211). -/

namespace Sys2Proof.Machine

/-- `Step()` (R211). A configuration outside R7 is refused (log 13). -/
def step (s : State) : Host.Outcome State Fault Refusal :=
  if s.cfg.Valid then
    match decodeCommand s.pending with
    | .incomplete => holdForWords s
    | .illegal kind header n => .next (retire n (raiseIllegal (causeOf kind) header s))
    | .command i n => retireOutcome n (exec i s)
  else .refused .badConfiguration

/-- `s` with the instruction of an opcode-table word placed for the next step (log 1). -/
def State.withFetchWord (s : State) (nbits w : Nat) : State := placeWords (tableWords nbits w) s

end Sys2Proof.Machine
end

