-- ==== Sys2Proof/Machine/Assembler.lean ====
section
/-! DEFINITION. The assembler of 30_encoding.md R89 and R90 over syntax trees: commands, the `.word` directive and the
pseudo-commands. The textual syntax of R89 carries no meaning of its own and is not parsed (log 17). -/

namespace Sys2Proof.Machine

/-- One line of a program (R89, R90). -/
inductive AsmLine where
  /-- A command. -/
  | command (i : Instr)
  /-- `.word v`: the word unchanged, which may be an illegal encoding. -/
  | word (v : Word)
  /-- `START_FRAME` with no operand. -/
  | startFrameDefault
  /-- `FLUSH`. -/
  | flush
  /-- `PRINT_CHAR c`. -/
  | printChar (c : Byte)
  /-- `SET_BITMAP_FLAGS m, fh, fv`. -/
  | setBitmapFlags (m fh fv : Bool)
  /-- `GET_TEXT_WIDTH "text"`. -/
  | getTextWidthOf (text : List Byte)
  deriving DecidableEq, Repr

/-- The commands a pseudo-command expands to (R90); none for `.word`. -/
def AsmLine.expand : AsmLine → List Instr
  | .command i => [i]
  | .word _ => []
  | .startFrameDefault => [.startFrame false]
  | .flush => [.endFrame]
  | .printChar c => [.print [c]]
  | .setBitmapFlags m fh fv => [.setBitmapMsbLeft m, .setBitmapFlipH fh, .setBitmapFlipV fv]
  | .getTextWidthOf text => [.getTextWidth text.length]

/-- The words of a line, none where an operand does not fit its field (R89). -/
def AsmLine.words : AsmLine → Option (List Word)
  | .word v => some [v]
  | line => if line.expand.all Instr.wf then some (line.expand.flatMap encode) else none

/-- The words of a program, none where a line is rejected (R89). -/
def assembleLines : List AsmLine → Option (List Word)
  | [] => some []
  | line :: lines =>
    match line.words, assembleLines lines with
    | some ws, some rest => some (ws ++ rest)
    | _, _ => none

end Sys2Proof.Machine
end

