-- ==== Sys2Proof/Safety.lean ====
section
/-! DEFINITION. What every reachable state satisfies: the invariants the rules of 10_state.md give the registers, and
reachability from block reset under any delivery of words. -/

namespace Sys2Proof.Machine

/-- The framebuffer of a block that has one is its `FB_SIZE` bytes; a block without one has no byte (R48, R42). -/
abbrev State.FbShape (s : State) : Prop :=
  Memory.wf (if s.fbOk then s.cfg.fbSize else 0) s.fb

/-- The cursor bounds of R34, in the form a step keeps: a cursor below every line start of `SET_CURSOR` was left there by a
wrap, so its next character fits the line. -/
abbrev State.CursorInRange (s : State) : Prop :=
  -32768 ≤ s.cursorX.toInt ∧ s.cursorX.toInt ≤ 32767 ∧
  -32768 ≤ s.cursorY.toInt ∧ s.cursorY.toInt ≤ 32775 ∧
  (32767 < s.cursorY.toInt → s.cursorX.toInt + 6 ≤ s.cfg.w)

/-- The bus clock is in its clamp range (R39). -/
abbrev State.SpiInRange (s : State) : Prop :=
  Config.spiHzMin ≤ s.spiHz.toNat ∧ s.spiHz.toNat ≤ Config.spiHzMax

/-- The fault record is empty exactly while `ILL = 0` (R43, R221). -/
abbrev State.FaultRecordOk (s : State) : Prop :=
  (s.ill = false → s.cause = .none ∧ s.faultWord = 0) ∧ (s.ill = true → s.cause ≠ .none)

/-- `CAB` never holds a whole command or an illegal header that could already execute (R33, R211). -/
abbrev State.CabIncomplete (s : State) : Prop := decodeCommand s.cab = .incomplete

/-- The invariant of the block. -/
structure State.Inv (s : State) : Prop where
  /-- R7. -/
  config : s.cfg.Valid
  /-- R48, R42. -/
  fbShape : s.FbShape
  /-- R36: `0 <= OFFSET <= IW - W`. -/
  offset : s.offset ≤ s.cfg.offsetMax
  /-- R34. -/
  cursor : s.CursorInRange
  /-- R39. -/
  spi : s.SpiInRange
  /-- R185. -/
  notInitializing : s.pstate ≠ .initializing
  /-- R171, R174: a block without a framebuffer is never initialised. -/
  absentUninit : s.fbOk = false → s.pstate = .uninit
  /-- R43. -/
  faultRecord : s.FaultRecordOk
  /-- R33. -/
  cab : s.CabIncomplete

/-- The states of a block with parameters `c`: block reset, then steps and deliveries in any order. -/
inductive Reachable (c : Config) : State → Prop where
  | reset : Reachable c (State.resetWith c)
  | step {s t : State} : Reachable c s → Machine.step s = .next t → Reachable c t
  | deliver {s : State} (ws : List Word) : Reachable c s → Reachable c (s.deliver ws)

end Sys2Proof.Machine
end

