-- ==== Sys2Proof/Certificates/Slice0/Obligations.lean ====
section
/-! DEFINITION. The statements of this model, one `def Obligations.<Name> : Prop` each, and the words they are said in. -/

namespace Sys2Proof.Claims

open Sys2Proof.Machine

/-! ## The words of the statements -/

/-- The framebuffer exists and is the one R48 and R36 describe. -/
abbrev Ready (s : State) : Prop := s.fbOk = true ∧ s.FbSound

/-- Only the framebuffer differs: pixel `(x, y)` of the window holds `v x y` where `P x y`, every other pixel and every byte
no pixel of `P` translates to is as before. -/
def Paints (s t : State) (P : Int → Int → Prop) (v : Int → Int → Bool) : Prop :=
  t = { s with fb := t.fb } ∧ Memory.wf s.cfg.fbSize t.fb ∧
  (∀ x y, s.InWindow x y →
    (P x y → t.pixelAt x y = some (v x y)) ∧ (¬ P x y → t.pixelAt x y = s.pixelAt x y)) ∧
  (∀ a, (∀ x y b, P x y → s.translate x y ≠ some (a, b)) →
    Memory.read t.fb a = Memory.read s.fb a)

/-- `(i, j)` is a pixel of the rectangle of corner `(x, y)` and size `w × h`. -/
abbrev InRect (x y w h i j : Int) : Prop := x ≤ i ∧ i < x + w ∧ y ≤ j ∧ j < y + h

/-- `lo, lo + 1, .., hi` (R11), none when `hi < lo`. -/
def fromTo (lo hi : Int) : List Int :=
  (List.range (hi - lo + 1).toNat).map fun (k : Nat) => lo + (k : Int)

/-- The pseudocode of R106 read literally, with no clipping but that of `SetPixel`. -/
def literalFillRect (x y w h : Int) (s : State) : State :=
  if w ≤ 0 ∨ h ≤ 0 then s
  else
    (fromTo y (y + h - 1)).foldl
      (fun s j => (fromTo x (x + w - 1)).foldl (fun s i => setPixel i j s.color s) s) s

/-- Commands executed one after the other. -/
def execAll : List Instr → State → Host.Outcome State Fault Refusal
  | [], s => .next s
  | i :: is, s =>
    match exec i s with
    | .next t => execAll is t
    | .fault r => .fault r
    | .refused r => .refused r

/-- `c` is drawn in the cell at `(x, y)` (R131): the value of pixel `(i, j)` of the cell. -/
def cellPixel (s : State) (x y : Int) (c : Byte) (i j : Int) : Bool :=
  let g := if 0x20 ≤ c.toNat ∧ c.toNat ≤ 0x7E then c.toNat - 0x20 else 0x1F
  let bit := if s.lsbAtTop then (j - y).toNat else (7 - (j - y)).toNat
  if i = x + 5 then !s.color
  else if (s.cfg.font.getD (g * 5 + (i - x).toNat) 0).getLsbD bit then s.color
  else !s.color

/-- Source pixel `(c, r)` of a bitmap `w` wide is 1 (R150, R151). -/
def SourceOn (s : State) (w : Int) (bytes : List Byte) (c r : Nat) : Prop :=
  ∃ v, bytes[r * ((w.toNat + 7) / 8) + c / 8]? = some v ∧
    v.getLsbD (if s.bmpMsbLeft then 7 - c % 8 else c % 8) = true

/-- Some source pixel that is 1 has destination `(i, j)` (R152). -/
def XbmOn (s : State) (x y w h : Int) (bytes : List Byte) (i j : Int) : Prop :=
  ∃ c r : Nat, (c : Int) < w ∧ (r : Int) < h ∧ SourceOn s w bytes c r ∧
    i = x + (if s.bmpFlipH = true ∧ w < 100 then w - 1 - c else c) ∧
    j = y + (if s.bmpFlipV then h - 1 - r else r)

/-- The events of a flush (R173): two transactions a page, in page order, the burst being the page's visible bytes. -/
def FlushEvents (s : State) (es : List Event) : Prop :=
  es.length = 2 * s.cfg.pages ∧
  ∀ p, p < s.cfg.pages →
    es[2 * p]? = some (.txn .cmd s.spiHz
      [0xB0#8 ||| BitVec.ofNat 8 p, 0x10#8 ||| BitVec.ofNat 8 (s.offset >>> 4),
       0x00#8 ||| BitVec.ofNat 8 (s.offset &&& 0x0F)]) ∧
    ∃ bytes : List Byte,
      es[2 * p + 1]? = some (.txn .data s.spiHz bytes) ∧ bytes.length = s.cfg.w ∧
      ∀ k, k < s.cfg.w → bytes[k]? = Memory.read s.fb (p * s.cfg.iw + s.offset + k)

/-- The bytes of a command of R172, its operand inside its own field. -/
def TableCommand (s : State) (bytes : List Byte) : Prop :=
  bytes = [0xE2#8] ∨ bytes = [0xA0#8] ∨ bytes = [0xA1#8] ∨ bytes = [0xC0#8] ∨ bytes = [0xC8#8] ∨
  bytes = [s.cfg.biasCmd] ∨ bytes = [s.cfg.powerCmd] ∨
  (∃ r, r < 8 ∧ bytes = [BitVec.ofNat 8 (0x20 + r)]) ∨
  (∃ v, v < 64 ∧ bytes = [0x81#8, BitVec.ofNat 8 v]) ∨
  (∃ l, l < 64 ∧ bytes = [BitVec.ofNat 8 (0x40 + l)]) ∨
  bytes = [0xAF#8] ∨ bytes = [0xAE#8] ∨ bytes = [0xA7#8] ∨ bytes = [0xA6#8] ∨
  (∃ p hi lo, p < 16 ∧ hi < 16 ∧ lo < 16 ∧
    bytes = [BitVec.ofNat 8 (0xB0 + p), BitVec.ofNat 8 (0x10 + hi), BitVec.ofNat 8 lo])

/-- The drawing commands of R102: those that touch the framebuffer. -/
def isDrawing : Instr → Bool
  | .setPixel _ _ _ | .clear | .startFrame _ | .fillRect _ _ _ _ | .drawRect _ _ _ _
  | .drawChar _ _ _ | .print _ | .drawXbm _ _ _ _ _ => true
  | _ => false

/-- The commands that flush (R76). -/
def isFlushing : Instr → Bool
  | .endFrame | .setOffset _ => true
  | _ => false

/-- The command length of R83, from the operands. -/
def lengthOf : Instr → Nat
  | .setPixel _ _ _ | .setCursor _ _ | .drawChar _ _ _ | .setSpiFrequency _ => 2
  | .fillRect _ _ _ _ | .drawRect _ _ _ _ => 3
  | .print text => 1 + (text.length + 3) / 4
  | .drawXbm _ _ w h _ =>
    3 + ((if 0 < w ∧ 0 < h then (w.toNat + 7) / 8 * h.toNat else 0) + 3) / 4
  | _ => 1

/-- The rows of R84: opcode, mnemonic's command, `match`, `mask`. -/
def opcodeRows : List (Op × Word × Word) :=
  [(.nop, 0x00000000#32, 0xFFFFFFFF#32), (.setPixel, 0x10000000#32, 0xFFFFFFFE#32),
   (.clear, 0x11000000#32, 0xFFFFFFFF#32), (.startFrame, 0x12000000#32, 0xFFFFFFFE#32),
   (.fillRect, 0x13000000#32, 0xFFFFFFFF#32), (.drawRect, 0x14000000#32, 0xFFFFFFFF#32),
   (.setCursor, 0x15000000#32, 0xFFFFFFFF#32), (.setColor, 0x16000000#32, 0xFFFFFFFE#32),
   (.readFb, 0x17000000#32, 0xFFFF0000#32),
   (.setTextSize, 0x20000000#32, 0xFFFFFF00#32), (.print, 0x21000000#32, 0xFFFF0000#32),
   (.getTextWidth, 0x22000000#32, 0xFFFF0000#32), (.drawChar, 0x23000000#32, 0xFFFFFF00#32),
   (.drawXbm, 0x30000000#32, 0xFFFFFFFF#32), (.setBitmapMsbLeft, 0x31000000#32, 0xFFFFFFFE#32),
   (.setBitmapFlipH, 0x32000000#32, 0xFFFFFFFE#32), (.setBitmapFlipV, 0x33000000#32, 0xFFFFFFFE#32),
   (.beginInit, 0x40000000#32, 0xFFFFFFFF#32), (.turnOn, 0x41000000#32, 0xFFFFFFFF#32),
   (.turnOff, 0x42000000#32, 0xFFFFFFFF#32), (.isOn, 0x43000000#32, 0xFFFFFFFF#32),
   (.endFrame, 0x44000000#32, 0xFFFFFFFF#32), (.setOffset, 0x45000000#32, 0xFFFF0000#32),
   (.configureOrientation, 0x46000000#32, 0xFFFFFFF8#32), (.setContrast, 0x47000000#32, 0xFFFF0000#32),
   (.setInverse, 0x48000000#32, 0xFFFFFFFE#32), (.setSpiFrequency, 0x49000000#32, 0xFFFFFFFF#32)]

end Sys2Proof.Claims

open Sys2Proof Sys2Proof.Machine Sys2Proof.Claims

/-! ## Encoding (30_encoding.md) -/

/-- The encoding examples of R91 decode to the commands they stand for, each followed by any words. -/
def Obligations.SpecExamplesDecode : Prop :=
  ∀ rest : List Word,
    decodeCommand (0x10000001#32 :: 0x000A0003#32 :: rest) = .command (.setPixel 3 10 true) 2 ∧
    decodeCommand (0x15000000#32 :: 0x00000000#32 :: rest) = .command (.setCursor 0 0) 2 ∧
    decodeCommand (0x13000000#32 :: 0xFFFDFFFE#32 :: 0x00060005#32 :: rest) =
      .command (.fillRect (-2) (-3) 5 6) 3 ∧
    decodeCommand (0x4500FFFB#32 :: rest) = .command (.setOffset (-5)) 1 ∧
    decodeCommand (0x46000005#32 :: rest) = .command (.configureOrientation true false true) 1 ∧
    decodeCommand (0x47004709#32 :: rest) = .command (.setContrast 9 0x47) 1 ∧
    decodeCommand (0x21000002#32 :: 0x00006948#32 :: rest) = .command (.print [0x48, 0x69]) 2 ∧
    decodeCommand (0x30000000#32 :: 0x00000000#32 :: 0x0002000A#32 :: 0x04030201#32 :: rest) =
      .command (.drawXbm 0 0 10 2 [1, 2, 3, 4]) 4 ∧
    decodeCommand (0x49000000#32 :: 0x003D0900#32 :: rest) = .command (.setSpiFrequency 4000000) 2

/-- The opcode map of R84: the model's rows are the table's, a header whose reserved bits are 0 is selected by exactly the
row `h & mask = match`, and no header is selected by two rows (R87). -/
def Obligations.OpcodeMapMatchesTable : Prop :=
  (opcodeRows.map fun r => (r.1, r.1.matchWord, r.1.format.mask)) = opcodeRows ∧
  (∀ (h : Word) (op : Op), h &&& op.format.mask = op.matchWord ↔
    (Op.ofCode (opcodeOf h) = some op ∧ reservedSet op h = false)) ∧
  (∀ (h : Word) (r q : Op × Word × Word), r ∈ opcodeRows → q ∈ opcodeRows →
    h &&& r.2.2 = r.2.1 → h &&& q.2.2 = q.2.1 → r = q)

/-- Decoding an encoded well-formed command gives it back, with its length, whatever words follow it. -/
def Obligations.DecodeOfEncode : Prop :=
  ∀ (i : Instr) (rest : List Word), i.WellFormed →
    decodeCommand (encode i ++ rest) = .command i (encode i).length

/-- The other direction: what decodes to a command is well formed, and its header and argument words are the encoder's;
payload words agree but for pad bytes (R65). -/
def Obligations.EncodeOfDecode : Prop :=
  ∀ (ws : List Word) (i : Instr) (n : Nat), decodeCommand ws = .command i n →
    i.WellFormed ∧ n ≤ ws.length ∧ n = (encode i).length ∧
    (encode i).take (1 + i.op.format.args) = ws.take (1 + i.op.format.args) ∧
    decodeCommand (encode i) = .command i n

/-- The two kinds of illegal header (R85, with a reserved bit read as log 11 says): an opcode outside the map is illegal at
once and consumes one word; a reserved bit is illegal when the whole length of the format has arrived, and consumes it.
Every other header with all its words there is a command. -/
def Obligations.HeadersDecodeOrAreIllegal : Prop :=
  ∀ (h : Word) (rest : List Word),
    (Op.ofCode (opcodeOf h) = none →
      decodeCommand (h :: rest) = .illegal .unknownOpcode h 1) ∧
    (∀ op, Op.ofCode (opcodeOf h) = some op →
      op.format.args ≤ rest.length →
      commandLength op.format h (rest.getD 1 0) ≤ rest.length + 1 →
      (h &&& op.format.mask ≠ op.matchWord →
        decodeCommand (h :: rest) =
          .illegal .reservedBits h (commandLength op.format h (rest.getD 1 0))) ∧
      (h &&& op.format.mask = op.matchWord →
        ∃ i, i.op = op ∧ decodeCommand (h :: rest) =
          .command i (commandLength op.format h (rest.getD 1 0))))

/-- The command length of R83, for every command the decoder answers. -/
def Obligations.CommandLengthByFormat : Prop :=
  ∀ (ws : List Word) (i : Instr) (n : Nat), decodeCommand ws = .command i n → n = lengthOf i

/-- A payload has exactly the `N` bytes its command announces (`L = h[15:0]` for `PRINT`, the bytes of a `w × h` bitmap for
`DRAW_XBM`), in `ceil(N / 4)` words; byte `k` is bits `8*(k mod 4)+7 .. 8*(k mod 4)` of payload word `k div 4`, so the bytes of
the last word past byte `N - 1` are padding and never reach the command (R65). -/
def Obligations.PayloadBytesLittleEndian : Prop :=
  (∀ (ws : List Word) (text : List Byte) (n : Nat), decodeCommand ws = .command (.print text) n →
    (∃ hdr, ws[0]? = some hdr ∧ text.length = (hdr.extractLsb' 0 16).toNat) ∧
    n = 1 + (text.length + 3) / 4 ∧
    ∀ k, k < text.length → ∃ v, ws[1 + k / 4]? = some v ∧
      text[k]? = some (v.extractLsb' (8 * (k % 4)) 8)) ∧
  (∀ (ws : List Word) (x y w h : Int) (bytes : List Byte) (n : Nat),
    decodeCommand ws = .command (.drawXbm x y w h bytes) n →
    bytes.length = (if 0 < w ∧ 0 < h then (w.toNat + 7) / 8 * h.toNat else 0) ∧
    n = 3 + (bytes.length + 3) / 4 ∧
    ∀ k, k < bytes.length → ∃ v, ws[3 + k / 4]? = some v ∧
      bytes[k]? = some (v.extractLsb' (8 * (k % 4)) 8))

/-- The pseudo-commands of R90 assemble to the words of their expansions. -/
def Obligations.PseudoCommandsExpand : Prop :=
  AsmLine.startFrameDefault.words = some [0x12000000#32] ∧
  AsmLine.flush.words = some [0x44000000#32] ∧
  (∀ c : Byte, (AsmLine.printChar c).words = some [0x21000001#32, c.setWidth 32]) ∧
  (∀ m fh fv : Bool, (AsmLine.setBitmapFlags m fh fv).words =
    some [0x31000000#32 ||| (BitVec.ofBool m).setWidth 32,
      0x32000000#32 ||| (BitVec.ofBool fh).setWidth 32,
      0x33000000#32 ||| (BitVec.ofBool fv).setWidth 32]) ∧
  (∀ text : List Byte, text.length < 65536 →
    (AsmLine.getTextWidthOf text).words = some (encode (.getTextWidth text.length)))

/-! ## The step (44_control.md, 60_exceptions.md) -/

/-- When the words at the head of the stream are a command, the step is that command's meaning, then the stream moves past
its words: `CSP + n`, `CAB` empty (R211, R32, R33). No command's meaning is a refusal. -/
def Obligations.StepRunsDecodedCommand : Prop :=
  ∀ (s : State) (i : Instr) (n : Nat), s.cfg.Valid →
    decodeCommand (s.cab ++ s.stream) = .command i n →
    (∀ t, exec i s = .next t → step s = .next
      { t with csp := t.csp + n, cab := [], stream := (t.cab ++ t.stream).drop n }) ∧
    (∀ r, exec i s = .fault r → step s = .fault r) ∧
    (∀ r, exec i s ≠ .refused r)

/-- `raise ILLEGAL` (R221): each of the three causes sets `ILL`, records cause and header word for the first fault only,
consumes the command's words and has no other effect; once `ILL` is 1 no step changes the record. -/
def Obligations.CommandFaultsRecord : Prop :=
  (Cause.unknownOpcode.code = 1 ∧ Cause.reservedBits.code = 2 ∧ Cause.fbIndexRange.code = 3) ∧
  (∀ s t : State, step s = .next t → s.ill = true →
    t.ill = true ∧ t.cause = s.cause ∧ t.faultWord = s.faultWord) ∧
  ∀ (s : State), s.cfg.Valid →
    (∀ h n, decodeCommand (s.cab ++ s.stream) = .illegal .unknownOpcode h n →
      n = 1 ∧ step s = .next
        { s with
          ill := true
          cause := if s.ill then s.cause else .unknownOpcode
          faultWord := if s.ill then s.faultWord else h
          csp := s.csp + 1, cab := [], stream := (s.cab ++ s.stream).drop 1 }) ∧
    (∀ h n, decodeCommand (s.cab ++ s.stream) = .illegal .reservedBits h n →
      step s = .next
        { s with
          ill := true
          cause := if s.ill then s.cause else .reservedBits
          faultWord := if s.ill then s.faultWord else h
          csp := s.csp + n, cab := [], stream := (s.cab ++ s.stream).drop n }) ∧
    (∀ index n, decodeCommand (s.cab ++ s.stream) = .command (.readFb index) n →
      s.fbOk = true → s.cfg.fbSize ≤ index →
      n = 1 ∧ step s = .next
        { s with
          ill := true
          cause := if s.ill then s.cause else .fbIndexRange
          faultWord := if s.ill then s.faultWord else 0x17000000#32 ||| BitVec.ofNat 32 index
          csp := s.csp + 1, cab := [], stream := (s.cab ++ s.stream).drop 1 })

/-- While a command is incomplete the block executes nothing, `BUSY` is 1, and there is no step when no word has arrived
(R33, R211, R225). That the delivered words go into `CAB` all at once, in a step of its own, and that the missing step is the
refusal `awaitingWords`, are the model's choices (log 2). -/
def Obligations.StepHoldsForMissingWords : Prop :=
  ∀ (s : State), s.cfg.Valid → decodeCommand (s.cab ++ s.stream) = .incomplete →
    (s.stream = [] → step s = .refused .awaitingWords) ∧
    (s.stream ≠ [] → step s = .next { s with cab := s.cab ++ s.stream, stream := [] } ∧
      ∀ t, step s = .next t → t.status.getLsbD 4 = true)

/-- Words are consumed strictly in order and each exactly once; `CSP` counts them (R32, R64, R211). -/
def Obligations.WordsConsumedInOrder : Prop :=
  ∀ (s t : State), step s = .next t →
    ∃ taken : List Word, s.cab ++ s.stream = taken ++ (t.cab ++ t.stream) ∧
      t.csp = s.csp + taken.length ∧ (taken = [] ∨ t.cab = [])

/-- A configuration outside R7 is refused. -/
def Obligations.BadGeometryRefused : Prop :=
  ∀ s : State,
    ¬ (s.cfg.h % 8 = 0 ∧ (8 ≤ s.cfg.h ∧ s.cfg.h ≤ 128) ∧
        (6 ≤ s.cfg.w ∧ s.cfg.w ≤ s.cfg.iw ∧ s.cfg.iw ≤ 256)) →
    step s = .refused .badConfiguration

/-- `NOP` (R210): the header `0x00000000` and no other is `NOP`; it changes `CSP` only, in every state. -/
def Obligations.NopOnlyAdvances : Prop :=
  (∀ s : State, exec .nop s = .next s) ∧
  (∀ (s : State) (rest : List Word), s.cfg.Valid → s.cab = [] →
    s.stream = 0x00000000#32 :: rest →
    step s = .next { s with csp := s.csp + 1, stream := rest }) ∧
  (∀ (h : Word) (rest : List Word), opcodeOf h = 0x00#8 → h ≠ 0 →
    decodeCommand (h :: rest) = .illegal .reservedBits h 1)

/-! ## The framebuffer unit (40_framebuffer.md) -/

/-- `SET_PIXEL` (R100, R103): clipped outside the window; inside, one bit of one byte. -/
def Obligations.SetPixelWritesOneBit : Prop :=
  ∀ (s : State) (x y : Int) (v : Bool), Ready s →
    (¬ (0 ≤ x ∧ x < s.cfg.w ∧ 0 ≤ y ∧ y < s.cfg.h) → exec (.setPixel x y v) s = .next s) ∧
    (0 ≤ x ∧ x < s.cfg.w ∧ 0 ≤ y ∧ y < s.cfg.h →
      ∃ (old : Byte) (m : Memory),
        exec (.setPixel x y v) s = .next { s with fb := m } ∧
        Memory.wf s.cfg.fbSize m ∧
        Memory.read s.fb (y.toNat / 8 * s.cfg.iw + (x.toNat + s.offset)) = some old ∧
        Memory.read m (y.toNat / 8 * s.cfg.iw + (x.toNat + s.offset)) =
          some (if v then old ||| (1#8 <<< (y.toNat % 8))
            else old &&& ~~~(1#8 <<< (y.toNat % 8))) ∧
        ∀ a, a ≠ y.toNat / 8 * s.cfg.iw + (x.toNat + s.offset) →
          Memory.read m a = Memory.read s.fb a)

/-- The read-back law (R111) through the inspection port: after `SET_PIXEL x, y, v` inside the window, `READ_FB` of the
pixel's byte answers `v` in the pixel's bit. -/
def Obligations.SetPixelReadsBack : Prop :=
  ∀ (s : State) (x y : Int) (v : Bool), Ready s → s.InWindow x y →
    ∃ t u : State, exec (.setPixel x y v) s = .next t ∧
      exec (.readFb (y.toNat / 8 * s.cfg.iw + (x.toNat + s.offset))) t = .next u ∧
      u.result.getLsbD (y.toNat % 8) = v ∧ u.ill = s.ill

/-- `CLEAR` and `START_FRAME` (R101, R104, R105): every byte of the full internal buffer is written, the cursor goes to the
origin, the colour to 1, and nothing else changes. -/
def Obligations.FillsWriteEveryByte : Prop :=
  ∀ s : State, s.fbOk = true →
    (∃ m, exec .clear s =
        .next { s with fb := m, cursorX := 0, cursorY := 0, color := true } ∧
      Memory.wf s.cfg.fbSize m ∧ ∀ a, a < s.cfg.fbSize → Memory.read m a = some 0x00#8) ∧
    (∀ bg : Bool, ∃ m, exec (.startFrame bg) s =
        .next { s with fb := m, cursorX := 0, cursorY := 0, color := true } ∧
      Memory.wf s.cfg.fbSize m ∧
      ∀ a, a < s.cfg.fbSize → Memory.read m a = some (if bg then 0xFF#8 else 0x00#8))

/-- Clear idempotence (R112): `START_FRAME 0`, any commands, then `CLEAR` leave the framebuffer, the cursor and the colour
that a fresh `CLEAR` leaves. -/
def Obligations.ClearForgetsDrawing : Prop :=
  ∀ (s u : State) (is : List Instr), s.fbOk = true →
    execAll (.startFrame false :: is) s = .next u →
    ∃ t t0 : State, exec .clear u = .next t ∧ exec .clear s = .next t0 ∧
      t.fb = t0.fb ∧ t.cursorX = t0.cursorX ∧ t.cursorY = t0.cursorY ∧ t.color = t0.color

/-- `FILL_RECT` (R106): exactly the in-window pixels of the rectangle take `COLOR`. -/
def Obligations.FillRectPaintsRectangle : Prop :=
  ∀ (s : State) (x y w h : Int), Ready s →
    ∃ t, exec (.fillRect x y w h) s = .next t ∧
      Paints s t (InRect x y w h) (fun _ _ => s.color)

/-- `FILL_RECT` is the literal double loop of R106's pseudocode (the model's loops skip clipped rounds, log 16). -/
def Obligations.FillRectIsLiteralLoop : Prop :=
  ∀ (s : State) (x y w h : Int), Ready s →
    exec (.fillRect x y w h) s = .next (literalFillRect x y w h s)

/-- `DRAW_RECT` (R107): exactly the in-window pixels of the border take `COLOR`. -/
def Obligations.DrawRectPaintsBorder : Prop :=
  ∀ (s : State) (x y w h : Int), Ready s →
    ∃ t, exec (.drawRect x y w h) s = .next t ∧
      Paints s t
        (fun i j => InRect x y w h i j ∧ (i = x ∨ i = x + w - 1 ∨ j = y ∨ j = y + h - 1))
        (fun _ _ => s.color)

/-- A rectangle one or two pixels wide or high is all border: `DRAW_RECT` equals `FILL_RECT` (R107). -/
def Obligations.ThinRectanglesAreFilled : Prop :=
  ∀ (s : State) (x y w h : Int), Ready s → (w ≤ 2 ∨ h ≤ 2) →
    exec (.drawRect x y w h) s = exec (.fillRect x y w h) s

/-- Zero or negative sizes draw nothing (R106, R107, R153, R220). -/
def Obligations.EmptySizesDrawNothing : Prop :=
  ∀ (s : State) (x y w h : Int) (bytes : List Byte), (s.fbOk = false ∨ s.FbSound) →
    (w ≤ 0 ∨ h ≤ 0) →
    exec (.fillRect x y w h) s = .next s ∧ exec (.drawRect x y w h) s = .next s ∧
      exec (.drawXbm x y w h bytes) s = .next s

/-- `SET_CURSOR` and `SET_COLOR` (R108, R109) store their operands, in every state, and change nothing else. -/
def Obligations.CursorAndColorStored : Prop :=
  ∀ (s : State) (x y : Int) (v : Bool), Fits16 x → Fits16 y →
    (∃ cx cy : BitVec 32, cx.toInt = x ∧ cy.toInt = y ∧
      exec (.setCursor x y) s = .next { s with cursorX := cx, cursorY := cy }) ∧
    exec (.setColor v) s = .next { s with color := v }

/-- `READ_FB` (R110): 0 without a framebuffer, the byte inside the index space, cause 3 outside it. -/
def Obligations.ReadFbReturnsByte : Prop :=
  ∀ (s : State) (index : Nat),
    (s.fbOk = false → exec (.readFb index) s = .next { s with result := 0 }) ∧
    (Ready s → index < s.cfg.fbSize → ∃ byte, Memory.read s.fb index = some byte ∧
      exec (.readFb index) s = .next { s with result := byte.setWidth 32 }) ∧
    (s.fbOk = true → s.cfg.fbSize ≤ index → index < 65536 →
      exec (.readFb index) s = .next
        { s with
          ill := true
          cause := if s.ill then s.cause else .fbIndexRange
          faultWord := if s.ill then s.faultWord else 0x17000000#32 ||| BitVec.ofNat 32 index })

/-- The framebuffer-absent guard (R102): each of the eight drawing commands changes no state at all and consumes its words;
`READ_FB` writes `RESULT <- 0` and nothing else. -/
def Obligations.AbsentFramebufferIsNoOp : Prop :=
  ∀ (s : State) (i : Instr), s.fbOk = false →
    (isDrawing i = true → exec i s = .next s ∧
      ∀ n, s.cfg.Valid → decodeCommand (s.cab ++ s.stream) = .command i n →
        step s = .next
          { s with csp := s.csp + n, cab := [], stream := (s.cab ++ s.stream).drop n }) ∧
    (∀ index, exec (.readFb index) s = .next { s with result := 0 })

/-! ## The glyph renderer (41_glyph.md) -/

/-- `SET_TEXT_SIZE` is discarded and `GET_TEXT_WIDTH L` answers `6 * L` in every state (R132, R135, R138). -/
def Obligations.TextSizeAndWidth : Prop :=
  (∀ (s : State) (n : Byte), exec (.setTextSize n) s = .next s) ∧
  (∀ (s : State) (len : Nat), len < 65536 →
    ∃ r : Word, r.toNat = 6 * len ∧ exec (.getTextWidth len) s = .next { s with result := r })

/-- `DRAW_CHAR` (R131, R133): the 6 × 8 cell is drawn opaque, the cursor is untouched. -/
def Obligations.DrawCharPaintsCell : Prop :=
  ∀ (s : State) (x y : Int) (c : Byte), Ready s →
    ∃ t, exec (.drawChar x y c) s = .next t ∧ Paints s t (InRect x y 6 8) (cellPixel s x y c)

/-- A cell aligned to a page in colour 1 (R131): its bytes become the glyph's column bytes, bit-reversed when
`LSB_AT_TOP = 0`, and 0x00. -/
def Obligations.AlignedCellHoldsGlyphBytes : Prop :=
  ∀ (s : State) (x y : Nat) (c : Byte), Ready s → s.color = true →
    y % 8 = 0 → y + 8 ≤ s.cfg.h → x + 5 < s.cfg.w → 0x20 ≤ c.toNat → c.toNat ≤ 0x7E →
    ∃ t, exec (.drawChar x y c) s = .next t ∧
      Memory.read t.fb (y / 8 * s.cfg.iw + (x + 5 + s.offset)) = some 0x00#8 ∧
      ∀ k, k < 5 → ∃ byte glyph : Byte,
        Memory.read t.fb (y / 8 * s.cfg.iw + (x + k + s.offset)) = some byte ∧
        s.cfg.font[(c.toNat - 0x20) * 5 + k]? = some glyph ∧
        (s.lsbAtTop = true → byte = glyph) ∧
        (s.lsbAtTop = false → ∀ b, b < 8 → byte.getLsbD b = glyph.getLsbD (7 - b))

/-- One round of `PRINT` (R134): wrap when `CURSOR_X + 6 > W`, stop when `CURSOR_Y + 8 > H`, else draw the cell as
`DRAW_CHAR` does and advance by 6. -/
def Obligations.PrintNextCharacter : Prop :=
  ∀ (s : State) (c : Byte) (cs : List Byte) (cx cy : Int), Ready s → s.CursorInRange →
    (cx, cy) = (if s.cursorX.toInt + 6 > s.cfg.w then (0, s.cursorY.toInt + 8)
      else (s.cursorX.toInt, s.cursorY.toInt)) →
    exec (.print []) s = .next s ∧
    (cy + 8 > s.cfg.h →
      exec (.print (c :: cs)) s =
        .next { s with cursorX := BitVec.ofInt 32 cx, cursorY := BitVec.ofInt 32 cy }) ∧
    (cy + 8 ≤ s.cfg.h → ∃ m, exec (.drawChar cx cy c) s = .next { s with fb := m } ∧
      exec (.print (c :: cs)) s =
        exec (.print cs)
          { s with
            fb := m, cursorX := BitVec.ofInt 32 (cx + 6), cursorY := BitVec.ofInt 32 cy })

/-- `PRINT` completes for every string and changes the framebuffer and the cursor only; bytes outside the visible columns
are as before (R63, R134, R136). -/
def Obligations.PrintChangesFbAndCursorOnly : Prop :=
  ∀ (s : State) (text : List Byte), Ready s →
    ∃ (m : Memory) (cx cy : BitVec 32),
      exec (.print text) s = .next { s with fb := m, cursorX := cx, cursorY := cy } ∧
      Memory.wf s.cfg.fbSize m ∧
      ∀ a, (∀ x y b, s.translate x y ≠ some (a, b)) → Memory.read m a = Memory.read s.fb a

/-- Printing a string in two pieces is printing it whole, also across wraps and after truncation (R134). -/
def Obligations.PrintInPieces : Prop :=
  ∀ (s : State) (a b : List Byte), Ready s →
    ∃ t, exec (.print a) s = .next t ∧ exec (.print (a ++ b)) s = exec (.print b) t

/-- Capacity (R137): from cursor `(0, 0)`, `PRINT` draws exactly its first `floor(W/6) * floor(H/8)` characters, character
`k` at column `6 * (k mod floor(W/6))` of line `k div floor(W/6)`. -/
def Obligations.PrintCapacity : Prop :=
  ∀ (s : State) (text : List Byte), Ready s → s.cursorX = 0 → s.cursorY = 0 →
    ∃ t u : State, exec (.print text) s = .next t ∧
      execAll ((text.take (s.cfg.w / 6 * (s.cfg.h / 8))).mapIdx fun k c =>
        Instr.drawChar (6 * (k % (s.cfg.w / 6)) : Nat) (8 * (k / (s.cfg.w / 6)) : Nat) c) s =
          .next u ∧
      t.fb = u.fb

/-! ## The bitmap unpacker (42_bitmap.md) -/

/-- The bitmap flags store their operands, in every state, and change nothing else (R154, R155, R156). -/
def Obligations.BitmapFlagsStored : Prop :=
  ∀ (s : State) (v : Bool),
    exec (.setBitmapMsbLeft v) s = .next { s with bmpMsbLeft := v } ∧
    exec (.setBitmapFlipH v) s = .next { s with bmpFlipH := v } ∧
    exec (.setBitmapFlipV v) s = .next { s with bmpFlipV := v }

/-- `DRAW_XBM` (R150 to R153, R158): exactly the in-window destinations of source bits that are 1 take `COLOR`. -/
def Obligations.DrawXbmPaintsSetBits : Prop :=
  ∀ (s : State) (x y w h : Int) (bytes : List Byte), Ready s →
    ∃ t, exec (.drawXbm x y w h bytes) s = .next t ∧
      Paints s t (XbmOn s x y w h bytes) (fun _ _ => s.color) ∧
      ∀ i j, XbmOn s x y w h bytes i j → InRect x y w h i j

/-- Bitmaps 100 pixels wide or wider ignore `BMP_FLIP_H` (R157). -/
def Obligations.WideBitmapIgnoresFlipH : Prop :=
  ∀ (s : State) (x y w h : Int) (bytes : List Byte), Ready s → 100 ≤ w →
    ∃ t u : State, exec (.drawXbm x y w h bytes) { s with bmpFlipH := true } = .next t ∧
      exec (.drawXbm x y w h bytes) { s with bmpFlipH := false } = .next u ∧ t.fb = u.fb

/-- Narrower bitmaps are mirrored about their vertical centre line (R157), where the clip window leaves both images whole
and the rectangle held one value before. -/
def Obligations.NarrowBitmapMirrored : Prop :=
  ∀ (s : State) (x y w h : Int) (bytes : List Byte) (blank : Bool), Ready s → 0 < w → w < 100 →
    0 ≤ x → x + w ≤ s.cfg.w → 0 ≤ y → y + h ≤ s.cfg.h →
    (∀ i j, InRect x y w h i j → s.pixelAt i j = some blank) →
    ∃ t u : State, exec (.drawXbm x y w h bytes) { s with bmpFlipH := true } = .next t ∧
      exec (.drawXbm x y w h bytes) { s with bmpFlipH := false } = .next u ∧
      ∀ i j, InRect x y w h i j → t.pixelAt i j = u.pixelAt (x + (x + w - 1 - i)) j

/-! ## The page serializer (43_serializer.md) -/

/-- `BEGIN` (R174): with a framebuffer, the reset pulse, the init sequence, `PSTATE = ON` and `RESULT = 1`, from every
state; without one, `RESULT = 0` and nothing else. The byte values are those the spec marks as general knowledge (log 10). -/
def Obligations.BeginSequence : Prop :=
  ∀ s : State,
    (s.fbOk = true → exec .beginInit s = .next
      { s with
        pstate := .on, result := 1, rstLine := true
        out := s.out ++
          [.resetLine false, .wait 2, .resetLine true, .wait 10,
           .txn .cmd s.spiHz [0xE2#8],
           .txn .cmd s.spiHz [if s.segRemap then 0xA1#8 else 0xA0#8],
           .txn .cmd s.spiHz [if s.comReverse then 0xC8#8 else 0xC0#8],
           .txn .cmd s.spiHz [s.cfg.biasCmd], .txn .cmd s.spiHz [s.cfg.powerCmd],
           .txn .cmd s.spiHz [BitVec.ofNat 8 (0x20 + s.cfg.initRatio.toNat)],
           .txn .cmd s.spiHz [0x81#8, s.cfg.initVolume.setWidth 8],
           .txn .cmd s.spiHz [BitVec.ofNat 8 (0x40 + s.cfg.startLine.toNat)],
           .txn .cmd s.spiHz [0xAF#8]] }) ∧
    (s.fbOk = false → exec .beginInit s = .next { s with result := 0 })

/-- `TURN_ON`, `TURN_OFF` and `IS_ON` (R175, R176, R177). -/
def Obligations.DisplayOnOff : Prop :=
  ∀ s : State,
    (s.pstate = .uninit → exec .turnOn s = .next s ∧ exec .turnOff s = .next s) ∧
    (s.pstate ≠ .uninit →
      exec .turnOn s = .next
        { s with pstate := .on, out := s.out ++ [.txn .cmd s.spiHz [0xAF#8]] } ∧
      exec .turnOff s = .next
        { s with pstate := .off, out := s.out ++ [.txn .cmd s.spiHz [0xAE#8]] }) ∧
    exec .isOn s = .next { s with result := if s.pstate = .on then 1 else 0 }

/-- `END_FRAME` (R173, R178): nothing in `UNINIT`, else the flush of every page; only `OUT` changes. -/
def Obligations.EndFrameFlushes : Prop :=
  ∀ s : State,
    (s.pstate = .uninit → exec .endFrame s = .next s) ∧
    (s.pstate ≠ .uninit → Ready s →
      ∃ es, exec .endFrame s = .next { s with out := s.out ++ es } ∧ FlushEvents s es)

/-- `SET_OFFSET` (R179): the clamped offset is stored, then the flush with that offset follows. -/
def Obligations.SetOffsetClampsAndFlushes : Prop :=
  ∀ (s : State) (ox : Int) (n : Nat), s.cfg.Valid →
    (n : Int) = min (max ox 0) (s.cfg.iw - s.cfg.w : Int) →
    (s.pstate = .uninit → exec (.setOffset ox) s = .next { s with offset := n }) ∧
    (s.pstate ≠ .uninit → Ready s →
      ∃ es, exec (.setOffset ox) s = .next { s with offset := n, out := s.out ++ es } ∧
        FlushEvents { s with offset := n } es)

/-- The offset clamp law (R188). -/
def Obligations.OffsetClampLaw : Prop :=
  ∀ (s : State) (ox : Int), s.cfg.w ≤ s.cfg.iw →
    (ox ≤ 0 → exec (.setOffset ox) s = exec (.setOffset 0) s) ∧
    ((s.cfg.iw : Int) - s.cfg.w ≤ ox →
      exec (.setOffset ox) s = exec (.setOffset (s.cfg.iw - s.cfg.w)) s)

/-- Changing `OFFSET` moves no framebuffer byte; a pixel drawn afterwards lands at `x` plus the new offset (R113). -/
def Obligations.OffsetMovesNoByte : Prop :=
  ∀ (s t : State) (ox x y : Int) (v : Bool), Ready s → exec (.setOffset ox) s = .next t →
    s.InWindow x y →
    t.fb = s.fb ∧ ∃ u byte, exec (.setPixel x y v) t = .next u ∧
      Memory.read u.fb (y.toNat / 8 * s.cfg.iw +
        (x + min (max ox 0) (s.cfg.iw - s.cfg.w : Int)).toNat) = some byte ∧
      byte.getLsbD (y.toNat % 8) = v

/-- `CONFIGURE_ORIENTATION` (R180): the flags are stored in every state; the two commands follow only when initialised. -/
def Obligations.OrientationStoredAndSent : Prop :=
  ∀ (s : State) (f0 f1 f2 : Bool),
    exec (.configureOrientation f0 f1 f2) s = .next
      { s with
        segRemap := f0, comReverse := f1, lsbAtTop := f2
        out := if s.pstate = .uninit then s.out
          else s.out ++ [.txn .cmd s.spiHz [if f0 then 0xA1#8 else 0xA0#8],
            .txn .cmd s.spiHz [if f1 then 0xC8#8 else 0xC0#8]] }

/-- `SET_CONTRAST` and `SET_INVERSE` (R181, R182) send masked operands when initialised and store nothing. -/
def Obligations.ContrastAndInverseSent : Prop :=
  ∀ (s : State) (ratio volume : Byte) (v : Bool),
    exec (.setContrast ratio volume) s = .next
      { s with
        out := if s.pstate = .uninit then s.out
          else s.out ++ [.txn .cmd s.spiHz [BitVec.ofNat 8 (0x20 + ratio.toNat % 8)],
            .txn .cmd s.spiHz [0x81#8, BitVec.ofNat 8 (volume.toNat % 64)]] } ∧
    exec (.setInverse v) s = .next
      { s with
        out := if s.pstate = .uninit then s.out
          else s.out ++ [.txn .cmd s.spiHz [if v then 0xA7#8 else 0xA6#8]] }

/-- `SET_SPI_FREQUENCY` (R183): the clamped rate is stored, nothing is sent, and the next transaction records it. -/
def Obligations.SpiFrequencyClamped : Prop :=
  ∀ (s : State) (hz : Word), ∃ r : Word,
    r.toNat = min (max hz.toNat 100000) 8000000 ∧
    exec (.setSpiFrequency hz) s = .next { s with spiHz := r } ∧
    (s.pstate ≠ .uninit → ∀ v, ∃ t, exec (.setInverse v) { s with spiHz := r } = .next t ∧
      t.out = s.out ++ [.txn .cmd r [if v then 0xA7#8 else 0xA6#8]])

/-- A byte on the wire goes out most significant bit first, device-select low, the command/data line low for `CMD` and high
for `DATA` (R66, R170). -/
def Obligations.WireOrder : Prop :=
  ∀ (dc : DataCommand) (hz : Word) (bytes : List Byte) (n k : Nat) (v : Byte),
    bytes[n]? = some v → k < 8 →
    (Event.txn dc hz bytes).wire.length = 8 * bytes.length ∧
    (Event.txn dc hz bytes).wire[8 * n + k]? =
      some { select := false, dc := decide (dc = .data), bit := v.getLsbD (7 - k) }

/-! ## Rules about the whole machine -/

/-- Bus gating (R171): while `PSTATE = UNINIT` no command but `BEGIN` emits anything. -/
def Obligations.UninitEmitsNothing : Prop :=
  ∀ (i : Instr) (s t : State), s.pstate = .uninit → i ≠ .beginInit → exec i s = .next t →
    t.out = s.out

/-- The transitions of `PSTATE` (R184): every command not named leaves it unchanged. -/
def Obligations.ProtocolStateTransitions : Prop :=
  ∀ (i : Instr) (s t : State), exec i s = .next t →
    t.pstate =
      if i = .beginInit then (if s.fbOk then .on else s.pstate)
      else if i = .turnOn then (if s.pstate = .uninit then .uninit else .on)
      else if i = .turnOff then (if s.pstate = .uninit then .uninit else .off)
      else s.pstate

/-- `OUT` is only ever appended to, and no command but `END_FRAME` and `SET_OFFSET` emits a `DATA` transaction (R50, R189):
said of every step. -/
def Obligations.OnlyFlushesSendData : Prop :=
  ∀ s t : State, step s = .next t →
    ∃ es, t.out = s.out ++ es ∧
      ((∃ hz bytes, Event.txn .data hz bytes ∈ es) →
        ∃ i n, decodeCommand (s.cab ++ s.stream) = .command i n ∧ isFlushing i = true)

/-- Every transaction records the bus clock as it stands when its command starts, and carries at least one byte (R170,
R257). -/
def Obligations.TransactionsUseCurrentClock : Prop :=
  ∀ (i : Instr) (s t : State), exec i s = .next t →
    ∃ es, t.out = s.out ++ es ∧
      ∀ dc hz bytes, Event.txn dc hz bytes ∈ es → hz = s.spiHz ∧ bytes ≠ []

/-- Every `CMD` transaction is a command of R172, its operand inside its own field. The bytes are those the spec marks as
general knowledge (log 10). -/
def Obligations.CommandBytesFromTable : Prop :=
  ∀ (i : Instr) (s t : State), exec i s = .next t → s.cfg.Valid → s.offset ≤ s.cfg.offsetMax →
    ∃ es, t.out = s.out ++ es ∧
      ∀ hz bytes, Event.txn .cmd hz bytes ∈ es → TableCommand s bytes

/-- Every command completes: in a state whose framebuffer is sound, or in a block without one that is not initialised, the
meaning of every command answers a next state, whatever its operands (R86, R102, R171, R212). -/
def Obligations.EveryCommandCompletes : Prop :=
  ∀ (i : Instr) (s : State), Ready s ∨ (s.fbOk = false ∧ s.pstate = .uninit) →
    ∃ t, exec i s = .next t

/-- Each register is written only by the commands 10_state.md names as its writers (R34 to R44, R47; `TEXT_SCALE` and `FB_OK`
have none and are no fields); the parameters, `CAB`, `CSP` and the stream by no command. -/
def Obligations.RegistersKeepTheirWriters : Prop :=
  ∀ (i : Instr) (s t : State), exec i s = .next t →
    (t.cursorX ≠ s.cursorX ∨ t.cursorY ≠ s.cursorY →
      (∃ x y, i = .setCursor x y) ∨ i = .clear ∨ (∃ bg, i = .startFrame bg) ∨
        ∃ text, i = .print text) ∧
    (t.color ≠ s.color → (∃ v, i = .setColor v) ∨ i = .clear ∨ ∃ bg, i = .startFrame bg) ∧
    (t.offset ≠ s.offset → ∃ ox, i = .setOffset ox) ∧
    (t.segRemap ≠ s.segRemap ∨ t.comReverse ≠ s.comReverse ∨ t.lsbAtTop ≠ s.lsbAtTop →
      ∃ a b c, i = .configureOrientation a b c) ∧
    (t.spiHz ≠ s.spiHz → ∃ hz, i = .setSpiFrequency hz) ∧
    (t.bmpMsbLeft ≠ s.bmpMsbLeft → ∃ v, i = .setBitmapMsbLeft v) ∧
    (t.bmpFlipH ≠ s.bmpFlipH → ∃ v, i = .setBitmapFlipH v) ∧
    (t.bmpFlipV ≠ s.bmpFlipV → ∃ v, i = .setBitmapFlipV v) ∧
    (t.pstate ≠ s.pstate → i = .beginInit ∨ i = .turnOn ∨ i = .turnOff) ∧
    (t.result ≠ s.result →
      i = .beginInit ∨ i = .isOn ∨ (∃ n, i = .getTextWidth n) ∨ ∃ n, i = .readFb n) ∧
    (t.rstLine ≠ s.rstLine → i = .beginInit) ∧
    (t.ill ≠ s.ill ∨ t.cause ≠ s.cause ∨ t.faultWord ≠ s.faultWord → ∃ n, i = .readFb n) ∧
    (t.fb ≠ s.fb → isDrawing i = true) ∧
    t.cfg = s.cfg ∧ t.cab = s.cab ∧ t.csp = s.csp ∧ t.stream = s.stream

/-- Bytes outside the visible columns are written only by the whole-buffer fills (R63). -/
def Obligations.HiddenColumnsKept : Prop :=
  ∀ (i : Instr) (s t : State), exec i s = .next t → i ≠ .clear → (∀ bg, i ≠ .startFrame bg) →
    ∀ a, (∀ x y b, s.translate x y ≠ some (a, b)) → Memory.read t.fb a = Memory.read s.fb a

/-- `STATUS` (R45). -/
def Obligations.StatusLayout : Prop :=
  ∀ s : State,
    (hostRead s .status).getLsbD 0 = s.cfg.fbAvailable ∧
    ((hostRead s .status).extractLsb' 1 2).toNat =
      (match s.pstate with | .uninit => 0 | .initializing => 1 | .on => 2 | .off => 3) ∧
    (hostRead s .status).getLsbD 3 = s.ill ∧
    ((hostRead s .status).getLsbD 4 = true ↔ s.cab ≠ []) ∧
    ((hostRead s .status).extractLsb' 5 2).toNat =
      (match s.cause with
        | .none => 0 | .unknownOpcode => 1 | .reservedBits => 2 | .fbIndexRange => 3) ∧
    (hostRead s .status) >>> 7 = 0 ∧
    hostRead s .result = s.result ∧ hostRead s .faultWord = s.faultWord

/-- The state after block reset, for every configuration (R250, R252). -/
def Obligations.ResetValues : Prop :=
  ∀ c : Config,
    let s := State.resetWith c
    s.cfg = c ∧ s.cursorX = 0 ∧ s.cursorY = 0 ∧ s.color = true ∧ s.textScale = 1 ∧
    s.offset = 0 ∧ s.segRemap = false ∧ s.comReverse = false ∧ s.lsbAtTop = true ∧
    s.spiHz.toNat = min (max c.spiHzReset.toNat 100000) 8000000 ∧
    s.bmpMsbLeft = false ∧ s.bmpFlipH = false ∧ s.bmpFlipV = false ∧
    s.pstate = .uninit ∧ s.fbOk = c.fbAvailable ∧
    s.ill = false ∧ s.cause = .none ∧ s.faultWord = 0 ∧ s.result = 0 ∧
    s.busy = false ∧ s.cab = [] ∧ s.csp = 0 ∧ s.out = []

/-- Block reset meets the invariant, for every configuration of R7; so does the reset state itself. -/
def Obligations.ResetMeetsInv : Prop :=
  (∀ c : Config, c.Valid → (State.resetWith c).Inv) ∧ State.reset.Inv

/-- Every step and every delivery of words keeps the invariant. -/
def Obligations.StepKeepsInv : Prop :=
  (∀ s t : State, s.Inv → step s = .next t → t.Inv) ∧
  (∀ (s : State) (ws : List Word), s.Inv → (s.deliver ws).Inv)

/-- From a state that meets the invariant no step faults, and the only refusal is to hold for words that have not been
delivered: every command of the stream executes. -/
def Obligations.StepNeverStopsWithWords : Prop :=
  ∀ s : State, s.Inv →
    (∀ r, step s ≠ .fault r) ∧
    (∀ r, step s = .refused r →
      r = .awaitingWords ∧ s.stream = [] ∧ decodeCommand s.cab = .incomplete)
end

