-- ==== Sys2Proof/Laws/State.lean ====
section
/-! SUPPORT. One lemma for each field and each update of the state, true by `rfl`, so that no later proof unfolds a record
update. -/

namespace Sys2Proof.Machine

@[simp] theorem withFb_cfg (s : State) (m : Memory) : (s.withFb m).cfg = s.cfg := rfl
@[simp] theorem withFb_cursorX (s : State) (m : Memory) : (s.withFb m).cursorX = s.cursorX := rfl
@[simp] theorem withFb_cursorY (s : State) (m : Memory) : (s.withFb m).cursorY = s.cursorY := rfl
@[simp] theorem withFb_color (s : State) (m : Memory) : (s.withFb m).color = s.color := rfl
@[simp] theorem withFb_offset (s : State) (m : Memory) : (s.withFb m).offset = s.offset := rfl
@[simp] theorem withFb_segRemap (s : State) (m : Memory) : (s.withFb m).segRemap = s.segRemap := rfl
@[simp] theorem withFb_comReverse (s : State) (m : Memory) : (s.withFb m).comReverse = s.comReverse := rfl
@[simp] theorem withFb_lsbAtTop (s : State) (m : Memory) : (s.withFb m).lsbAtTop = s.lsbAtTop := rfl
@[simp] theorem withFb_spiHz (s : State) (m : Memory) : (s.withFb m).spiHz = s.spiHz := rfl
@[simp] theorem withFb_bmpMsbLeft (s : State) (m : Memory) : (s.withFb m).bmpMsbLeft = s.bmpMsbLeft := rfl
@[simp] theorem withFb_bmpFlipH (s : State) (m : Memory) : (s.withFb m).bmpFlipH = s.bmpFlipH := rfl
@[simp] theorem withFb_bmpFlipV (s : State) (m : Memory) : (s.withFb m).bmpFlipV = s.bmpFlipV := rfl
@[simp] theorem withFb_pstate (s : State) (m : Memory) : (s.withFb m).pstate = s.pstate := rfl
@[simp] theorem withFb_ill (s : State) (m : Memory) : (s.withFb m).ill = s.ill := rfl
@[simp] theorem withFb_cause (s : State) (m : Memory) : (s.withFb m).cause = s.cause := rfl
@[simp] theorem withFb_faultWord (s : State) (m : Memory) : (s.withFb m).faultWord = s.faultWord := rfl
@[simp] theorem withFb_result (s : State) (m : Memory) : (s.withFb m).result = s.result := rfl
@[simp] theorem withFb_rstLine (s : State) (m : Memory) : (s.withFb m).rstLine = s.rstLine := rfl
@[simp] theorem withFb_fb (s : State) (m : Memory) : (s.withFb m).fb = m := rfl
@[simp] theorem withFb_out (s : State) (m : Memory) : (s.withFb m).out = s.out := rfl
@[simp] theorem withFb_cab (s : State) (m : Memory) : (s.withFb m).cab = s.cab := rfl
@[simp] theorem withFb_csp (s : State) (m : Memory) : (s.withFb m).csp = s.csp := rfl
@[simp] theorem withFb_stream (s : State) (m : Memory) : (s.withFb m).stream = s.stream := rfl

@[simp] theorem setCursor_cfg (s : State) (x y : Int) : (s.setCursor x y).cfg = s.cfg := rfl
@[simp] theorem setCursor_cursorX (s : State) (x y : Int) : (s.setCursor x y).cursorX = BitVec.ofInt 32 x := rfl
@[simp] theorem setCursor_cursorY (s : State) (x y : Int) : (s.setCursor x y).cursorY = BitVec.ofInt 32 y := rfl
@[simp] theorem setCursor_color (s : State) (x y : Int) : (s.setCursor x y).color = s.color := rfl
@[simp] theorem setCursor_offset (s : State) (x y : Int) : (s.setCursor x y).offset = s.offset := rfl
@[simp] theorem setCursor_segRemap (s : State) (x y : Int) : (s.setCursor x y).segRemap = s.segRemap := rfl
@[simp] theorem setCursor_comReverse (s : State) (x y : Int) : (s.setCursor x y).comReverse = s.comReverse := rfl
@[simp] theorem setCursor_lsbAtTop (s : State) (x y : Int) : (s.setCursor x y).lsbAtTop = s.lsbAtTop := rfl
@[simp] theorem setCursor_spiHz (s : State) (x y : Int) : (s.setCursor x y).spiHz = s.spiHz := rfl
@[simp] theorem setCursor_bmpMsbLeft (s : State) (x y : Int) : (s.setCursor x y).bmpMsbLeft = s.bmpMsbLeft := rfl
@[simp] theorem setCursor_bmpFlipH (s : State) (x y : Int) : (s.setCursor x y).bmpFlipH = s.bmpFlipH := rfl
@[simp] theorem setCursor_bmpFlipV (s : State) (x y : Int) : (s.setCursor x y).bmpFlipV = s.bmpFlipV := rfl
@[simp] theorem setCursor_pstate (s : State) (x y : Int) : (s.setCursor x y).pstate = s.pstate := rfl
@[simp] theorem setCursor_ill (s : State) (x y : Int) : (s.setCursor x y).ill = s.ill := rfl
@[simp] theorem setCursor_cause (s : State) (x y : Int) : (s.setCursor x y).cause = s.cause := rfl
@[simp] theorem setCursor_faultWord (s : State) (x y : Int) : (s.setCursor x y).faultWord = s.faultWord := rfl
@[simp] theorem setCursor_result (s : State) (x y : Int) : (s.setCursor x y).result = s.result := rfl
@[simp] theorem setCursor_rstLine (s : State) (x y : Int) : (s.setCursor x y).rstLine = s.rstLine := rfl
@[simp] theorem setCursor_fb (s : State) (x y : Int) : (s.setCursor x y).fb = s.fb := rfl
@[simp] theorem setCursor_out (s : State) (x y : Int) : (s.setCursor x y).out = s.out := rfl
@[simp] theorem setCursor_cab (s : State) (x y : Int) : (s.setCursor x y).cab = s.cab := rfl
@[simp] theorem setCursor_csp (s : State) (x y : Int) : (s.setCursor x y).csp = s.csp := rfl
@[simp] theorem setCursor_stream (s : State) (x y : Int) : (s.setCursor x y).stream = s.stream := rfl

@[simp] theorem setColor_cfg (s : State) (v : Bool) : (s.setColor v).cfg = s.cfg := rfl
@[simp] theorem setColor_cursorX (s : State) (v : Bool) : (s.setColor v).cursorX = s.cursorX := rfl
@[simp] theorem setColor_cursorY (s : State) (v : Bool) : (s.setColor v).cursorY = s.cursorY := rfl
@[simp] theorem setColor_color (s : State) (v : Bool) : (s.setColor v).color = v := rfl
@[simp] theorem setColor_offset (s : State) (v : Bool) : (s.setColor v).offset = s.offset := rfl
@[simp] theorem setColor_segRemap (s : State) (v : Bool) : (s.setColor v).segRemap = s.segRemap := rfl
@[simp] theorem setColor_comReverse (s : State) (v : Bool) : (s.setColor v).comReverse = s.comReverse := rfl
@[simp] theorem setColor_lsbAtTop (s : State) (v : Bool) : (s.setColor v).lsbAtTop = s.lsbAtTop := rfl
@[simp] theorem setColor_spiHz (s : State) (v : Bool) : (s.setColor v).spiHz = s.spiHz := rfl
@[simp] theorem setColor_bmpMsbLeft (s : State) (v : Bool) : (s.setColor v).bmpMsbLeft = s.bmpMsbLeft := rfl
@[simp] theorem setColor_bmpFlipH (s : State) (v : Bool) : (s.setColor v).bmpFlipH = s.bmpFlipH := rfl
@[simp] theorem setColor_bmpFlipV (s : State) (v : Bool) : (s.setColor v).bmpFlipV = s.bmpFlipV := rfl
@[simp] theorem setColor_pstate (s : State) (v : Bool) : (s.setColor v).pstate = s.pstate := rfl
@[simp] theorem setColor_ill (s : State) (v : Bool) : (s.setColor v).ill = s.ill := rfl
@[simp] theorem setColor_cause (s : State) (v : Bool) : (s.setColor v).cause = s.cause := rfl
@[simp] theorem setColor_faultWord (s : State) (v : Bool) : (s.setColor v).faultWord = s.faultWord := rfl
@[simp] theorem setColor_result (s : State) (v : Bool) : (s.setColor v).result = s.result := rfl
@[simp] theorem setColor_rstLine (s : State) (v : Bool) : (s.setColor v).rstLine = s.rstLine := rfl
@[simp] theorem setColor_fb (s : State) (v : Bool) : (s.setColor v).fb = s.fb := rfl
@[simp] theorem setColor_out (s : State) (v : Bool) : (s.setColor v).out = s.out := rfl
@[simp] theorem setColor_cab (s : State) (v : Bool) : (s.setColor v).cab = s.cab := rfl
@[simp] theorem setColor_csp (s : State) (v : Bool) : (s.setColor v).csp = s.csp := rfl
@[simp] theorem setColor_stream (s : State) (v : Bool) : (s.setColor v).stream = s.stream := rfl

@[simp] theorem setOffset_cfg (s : State) (n : Nat) : (s.setOffset n).cfg = s.cfg := rfl
@[simp] theorem setOffset_cursorX (s : State) (n : Nat) : (s.setOffset n).cursorX = s.cursorX := rfl
@[simp] theorem setOffset_cursorY (s : State) (n : Nat) : (s.setOffset n).cursorY = s.cursorY := rfl
@[simp] theorem setOffset_color (s : State) (n : Nat) : (s.setOffset n).color = s.color := rfl
@[simp] theorem setOffset_offset (s : State) (n : Nat) : (s.setOffset n).offset = n := rfl
@[simp] theorem setOffset_segRemap (s : State) (n : Nat) : (s.setOffset n).segRemap = s.segRemap := rfl
@[simp] theorem setOffset_comReverse (s : State) (n : Nat) : (s.setOffset n).comReverse = s.comReverse := rfl
@[simp] theorem setOffset_lsbAtTop (s : State) (n : Nat) : (s.setOffset n).lsbAtTop = s.lsbAtTop := rfl
@[simp] theorem setOffset_spiHz (s : State) (n : Nat) : (s.setOffset n).spiHz = s.spiHz := rfl
@[simp] theorem setOffset_bmpMsbLeft (s : State) (n : Nat) : (s.setOffset n).bmpMsbLeft = s.bmpMsbLeft := rfl
@[simp] theorem setOffset_bmpFlipH (s : State) (n : Nat) : (s.setOffset n).bmpFlipH = s.bmpFlipH := rfl
@[simp] theorem setOffset_bmpFlipV (s : State) (n : Nat) : (s.setOffset n).bmpFlipV = s.bmpFlipV := rfl
@[simp] theorem setOffset_pstate (s : State) (n : Nat) : (s.setOffset n).pstate = s.pstate := rfl
@[simp] theorem setOffset_ill (s : State) (n : Nat) : (s.setOffset n).ill = s.ill := rfl
@[simp] theorem setOffset_cause (s : State) (n : Nat) : (s.setOffset n).cause = s.cause := rfl
@[simp] theorem setOffset_faultWord (s : State) (n : Nat) : (s.setOffset n).faultWord = s.faultWord := rfl
@[simp] theorem setOffset_result (s : State) (n : Nat) : (s.setOffset n).result = s.result := rfl
@[simp] theorem setOffset_rstLine (s : State) (n : Nat) : (s.setOffset n).rstLine = s.rstLine := rfl
@[simp] theorem setOffset_fb (s : State) (n : Nat) : (s.setOffset n).fb = s.fb := rfl
@[simp] theorem setOffset_out (s : State) (n : Nat) : (s.setOffset n).out = s.out := rfl
@[simp] theorem setOffset_cab (s : State) (n : Nat) : (s.setOffset n).cab = s.cab := rfl
@[simp] theorem setOffset_csp (s : State) (n : Nat) : (s.setOffset n).csp = s.csp := rfl
@[simp] theorem setOffset_stream (s : State) (n : Nat) : (s.setOffset n).stream = s.stream := rfl

@[simp] theorem setOrientation_cfg (s : State) (a b c : Bool) : (s.setOrientation a b c).cfg = s.cfg := rfl
@[simp] theorem setOrientation_cursorX (s : State) (a b c : Bool) : (s.setOrientation a b c).cursorX = s.cursorX := rfl
@[simp] theorem setOrientation_cursorY (s : State) (a b c : Bool) : (s.setOrientation a b c).cursorY = s.cursorY := rfl
@[simp] theorem setOrientation_color (s : State) (a b c : Bool) : (s.setOrientation a b c).color = s.color := rfl
@[simp] theorem setOrientation_offset (s : State) (a b c : Bool) : (s.setOrientation a b c).offset = s.offset := rfl
@[simp] theorem setOrientation_segRemap (s : State) (a b c : Bool) : (s.setOrientation a b c).segRemap = a := rfl
@[simp] theorem setOrientation_comReverse (s : State) (a b c : Bool) : (s.setOrientation a b c).comReverse = b := rfl
@[simp] theorem setOrientation_lsbAtTop (s : State) (a b c : Bool) : (s.setOrientation a b c).lsbAtTop = c := rfl
@[simp] theorem setOrientation_spiHz (s : State) (a b c : Bool) : (s.setOrientation a b c).spiHz = s.spiHz := rfl
@[simp] theorem setOrientation_bmpMsbLeft (s : State) (a b c : Bool) : (s.setOrientation a b c).bmpMsbLeft = s.bmpMsbLeft := rfl
@[simp] theorem setOrientation_bmpFlipH (s : State) (a b c : Bool) : (s.setOrientation a b c).bmpFlipH = s.bmpFlipH := rfl
@[simp] theorem setOrientation_bmpFlipV (s : State) (a b c : Bool) : (s.setOrientation a b c).bmpFlipV = s.bmpFlipV := rfl
@[simp] theorem setOrientation_pstate (s : State) (a b c : Bool) : (s.setOrientation a b c).pstate = s.pstate := rfl
@[simp] theorem setOrientation_ill (s : State) (a b c : Bool) : (s.setOrientation a b c).ill = s.ill := rfl
@[simp] theorem setOrientation_cause (s : State) (a b c : Bool) : (s.setOrientation a b c).cause = s.cause := rfl
@[simp] theorem setOrientation_faultWord (s : State) (a b c : Bool) : (s.setOrientation a b c).faultWord = s.faultWord := rfl
@[simp] theorem setOrientation_result (s : State) (a b c : Bool) : (s.setOrientation a b c).result = s.result := rfl
@[simp] theorem setOrientation_rstLine (s : State) (a b c : Bool) : (s.setOrientation a b c).rstLine = s.rstLine := rfl
@[simp] theorem setOrientation_fb (s : State) (a b c : Bool) : (s.setOrientation a b c).fb = s.fb := rfl
@[simp] theorem setOrientation_out (s : State) (a b c : Bool) : (s.setOrientation a b c).out = s.out := rfl
@[simp] theorem setOrientation_cab (s : State) (a b c : Bool) : (s.setOrientation a b c).cab = s.cab := rfl
@[simp] theorem setOrientation_csp (s : State) (a b c : Bool) : (s.setOrientation a b c).csp = s.csp := rfl
@[simp] theorem setOrientation_stream (s : State) (a b c : Bool) : (s.setOrientation a b c).stream = s.stream := rfl

@[simp] theorem setSpiHz_cfg (s : State) (hz : Word) : (s.setSpiHz hz).cfg = s.cfg := rfl
@[simp] theorem setSpiHz_cursorX (s : State) (hz : Word) : (s.setSpiHz hz).cursorX = s.cursorX := rfl
@[simp] theorem setSpiHz_cursorY (s : State) (hz : Word) : (s.setSpiHz hz).cursorY = s.cursorY := rfl
@[simp] theorem setSpiHz_color (s : State) (hz : Word) : (s.setSpiHz hz).color = s.color := rfl
@[simp] theorem setSpiHz_offset (s : State) (hz : Word) : (s.setSpiHz hz).offset = s.offset := rfl
@[simp] theorem setSpiHz_segRemap (s : State) (hz : Word) : (s.setSpiHz hz).segRemap = s.segRemap := rfl
@[simp] theorem setSpiHz_comReverse (s : State) (hz : Word) : (s.setSpiHz hz).comReverse = s.comReverse := rfl
@[simp] theorem setSpiHz_lsbAtTop (s : State) (hz : Word) : (s.setSpiHz hz).lsbAtTop = s.lsbAtTop := rfl
@[simp] theorem setSpiHz_spiHz (s : State) (hz : Word) : (s.setSpiHz hz).spiHz = clampHz hz := rfl
@[simp] theorem setSpiHz_bmpMsbLeft (s : State) (hz : Word) : (s.setSpiHz hz).bmpMsbLeft = s.bmpMsbLeft := rfl
@[simp] theorem setSpiHz_bmpFlipH (s : State) (hz : Word) : (s.setSpiHz hz).bmpFlipH = s.bmpFlipH := rfl
@[simp] theorem setSpiHz_bmpFlipV (s : State) (hz : Word) : (s.setSpiHz hz).bmpFlipV = s.bmpFlipV := rfl
@[simp] theorem setSpiHz_pstate (s : State) (hz : Word) : (s.setSpiHz hz).pstate = s.pstate := rfl
@[simp] theorem setSpiHz_ill (s : State) (hz : Word) : (s.setSpiHz hz).ill = s.ill := rfl
@[simp] theorem setSpiHz_cause (s : State) (hz : Word) : (s.setSpiHz hz).cause = s.cause := rfl
@[simp] theorem setSpiHz_faultWord (s : State) (hz : Word) : (s.setSpiHz hz).faultWord = s.faultWord := rfl
@[simp] theorem setSpiHz_result (s : State) (hz : Word) : (s.setSpiHz hz).result = s.result := rfl
@[simp] theorem setSpiHz_rstLine (s : State) (hz : Word) : (s.setSpiHz hz).rstLine = s.rstLine := rfl
@[simp] theorem setSpiHz_fb (s : State) (hz : Word) : (s.setSpiHz hz).fb = s.fb := rfl
@[simp] theorem setSpiHz_out (s : State) (hz : Word) : (s.setSpiHz hz).out = s.out := rfl
@[simp] theorem setSpiHz_cab (s : State) (hz : Word) : (s.setSpiHz hz).cab = s.cab := rfl
@[simp] theorem setSpiHz_csp (s : State) (hz : Word) : (s.setSpiHz hz).csp = s.csp := rfl
@[simp] theorem setSpiHz_stream (s : State) (hz : Word) : (s.setSpiHz hz).stream = s.stream := rfl

@[simp] theorem setBmpMsbLeft_cfg (s : State) (v : Bool) : (s.setBmpMsbLeft v).cfg = s.cfg := rfl
@[simp] theorem setBmpMsbLeft_cursorX (s : State) (v : Bool) : (s.setBmpMsbLeft v).cursorX = s.cursorX := rfl
@[simp] theorem setBmpMsbLeft_cursorY (s : State) (v : Bool) : (s.setBmpMsbLeft v).cursorY = s.cursorY := rfl
@[simp] theorem setBmpMsbLeft_color (s : State) (v : Bool) : (s.setBmpMsbLeft v).color = s.color := rfl
@[simp] theorem setBmpMsbLeft_offset (s : State) (v : Bool) : (s.setBmpMsbLeft v).offset = s.offset := rfl
@[simp] theorem setBmpMsbLeft_segRemap (s : State) (v : Bool) : (s.setBmpMsbLeft v).segRemap = s.segRemap := rfl
@[simp] theorem setBmpMsbLeft_comReverse (s : State) (v : Bool) : (s.setBmpMsbLeft v).comReverse = s.comReverse := rfl
@[simp] theorem setBmpMsbLeft_lsbAtTop (s : State) (v : Bool) : (s.setBmpMsbLeft v).lsbAtTop = s.lsbAtTop := rfl
@[simp] theorem setBmpMsbLeft_spiHz (s : State) (v : Bool) : (s.setBmpMsbLeft v).spiHz = s.spiHz := rfl
@[simp] theorem setBmpMsbLeft_bmpMsbLeft (s : State) (v : Bool) : (s.setBmpMsbLeft v).bmpMsbLeft = v := rfl
@[simp] theorem setBmpMsbLeft_bmpFlipH (s : State) (v : Bool) : (s.setBmpMsbLeft v).bmpFlipH = s.bmpFlipH := rfl
@[simp] theorem setBmpMsbLeft_bmpFlipV (s : State) (v : Bool) : (s.setBmpMsbLeft v).bmpFlipV = s.bmpFlipV := rfl
@[simp] theorem setBmpMsbLeft_pstate (s : State) (v : Bool) : (s.setBmpMsbLeft v).pstate = s.pstate := rfl
@[simp] theorem setBmpMsbLeft_ill (s : State) (v : Bool) : (s.setBmpMsbLeft v).ill = s.ill := rfl
@[simp] theorem setBmpMsbLeft_cause (s : State) (v : Bool) : (s.setBmpMsbLeft v).cause = s.cause := rfl
@[simp] theorem setBmpMsbLeft_faultWord (s : State) (v : Bool) : (s.setBmpMsbLeft v).faultWord = s.faultWord := rfl
@[simp] theorem setBmpMsbLeft_result (s : State) (v : Bool) : (s.setBmpMsbLeft v).result = s.result := rfl
@[simp] theorem setBmpMsbLeft_rstLine (s : State) (v : Bool) : (s.setBmpMsbLeft v).rstLine = s.rstLine := rfl
@[simp] theorem setBmpMsbLeft_fb (s : State) (v : Bool) : (s.setBmpMsbLeft v).fb = s.fb := rfl
@[simp] theorem setBmpMsbLeft_out (s : State) (v : Bool) : (s.setBmpMsbLeft v).out = s.out := rfl
@[simp] theorem setBmpMsbLeft_cab (s : State) (v : Bool) : (s.setBmpMsbLeft v).cab = s.cab := rfl
@[simp] theorem setBmpMsbLeft_csp (s : State) (v : Bool) : (s.setBmpMsbLeft v).csp = s.csp := rfl
@[simp] theorem setBmpMsbLeft_stream (s : State) (v : Bool) : (s.setBmpMsbLeft v).stream = s.stream := rfl

@[simp] theorem setBmpFlipH_cfg (s : State) (v : Bool) : (s.setBmpFlipH v).cfg = s.cfg := rfl
@[simp] theorem setBmpFlipH_cursorX (s : State) (v : Bool) : (s.setBmpFlipH v).cursorX = s.cursorX := rfl
@[simp] theorem setBmpFlipH_cursorY (s : State) (v : Bool) : (s.setBmpFlipH v).cursorY = s.cursorY := rfl
@[simp] theorem setBmpFlipH_color (s : State) (v : Bool) : (s.setBmpFlipH v).color = s.color := rfl
@[simp] theorem setBmpFlipH_offset (s : State) (v : Bool) : (s.setBmpFlipH v).offset = s.offset := rfl
@[simp] theorem setBmpFlipH_segRemap (s : State) (v : Bool) : (s.setBmpFlipH v).segRemap = s.segRemap := rfl
@[simp] theorem setBmpFlipH_comReverse (s : State) (v : Bool) : (s.setBmpFlipH v).comReverse = s.comReverse := rfl
@[simp] theorem setBmpFlipH_lsbAtTop (s : State) (v : Bool) : (s.setBmpFlipH v).lsbAtTop = s.lsbAtTop := rfl
@[simp] theorem setBmpFlipH_spiHz (s : State) (v : Bool) : (s.setBmpFlipH v).spiHz = s.spiHz := rfl
@[simp] theorem setBmpFlipH_bmpMsbLeft (s : State) (v : Bool) : (s.setBmpFlipH v).bmpMsbLeft = s.bmpMsbLeft := rfl
@[simp] theorem setBmpFlipH_bmpFlipH (s : State) (v : Bool) : (s.setBmpFlipH v).bmpFlipH = v := rfl
@[simp] theorem setBmpFlipH_bmpFlipV (s : State) (v : Bool) : (s.setBmpFlipH v).bmpFlipV = s.bmpFlipV := rfl
@[simp] theorem setBmpFlipH_pstate (s : State) (v : Bool) : (s.setBmpFlipH v).pstate = s.pstate := rfl
@[simp] theorem setBmpFlipH_ill (s : State) (v : Bool) : (s.setBmpFlipH v).ill = s.ill := rfl
@[simp] theorem setBmpFlipH_cause (s : State) (v : Bool) : (s.setBmpFlipH v).cause = s.cause := rfl
@[simp] theorem setBmpFlipH_faultWord (s : State) (v : Bool) : (s.setBmpFlipH v).faultWord = s.faultWord := rfl
@[simp] theorem setBmpFlipH_result (s : State) (v : Bool) : (s.setBmpFlipH v).result = s.result := rfl
@[simp] theorem setBmpFlipH_rstLine (s : State) (v : Bool) : (s.setBmpFlipH v).rstLine = s.rstLine := rfl
@[simp] theorem setBmpFlipH_fb (s : State) (v : Bool) : (s.setBmpFlipH v).fb = s.fb := rfl
@[simp] theorem setBmpFlipH_out (s : State) (v : Bool) : (s.setBmpFlipH v).out = s.out := rfl
@[simp] theorem setBmpFlipH_cab (s : State) (v : Bool) : (s.setBmpFlipH v).cab = s.cab := rfl
@[simp] theorem setBmpFlipH_csp (s : State) (v : Bool) : (s.setBmpFlipH v).csp = s.csp := rfl
@[simp] theorem setBmpFlipH_stream (s : State) (v : Bool) : (s.setBmpFlipH v).stream = s.stream := rfl

@[simp] theorem setBmpFlipV_cfg (s : State) (v : Bool) : (s.setBmpFlipV v).cfg = s.cfg := rfl
@[simp] theorem setBmpFlipV_cursorX (s : State) (v : Bool) : (s.setBmpFlipV v).cursorX = s.cursorX := rfl
@[simp] theorem setBmpFlipV_cursorY (s : State) (v : Bool) : (s.setBmpFlipV v).cursorY = s.cursorY := rfl
@[simp] theorem setBmpFlipV_color (s : State) (v : Bool) : (s.setBmpFlipV v).color = s.color := rfl
@[simp] theorem setBmpFlipV_offset (s : State) (v : Bool) : (s.setBmpFlipV v).offset = s.offset := rfl
@[simp] theorem setBmpFlipV_segRemap (s : State) (v : Bool) : (s.setBmpFlipV v).segRemap = s.segRemap := rfl
@[simp] theorem setBmpFlipV_comReverse (s : State) (v : Bool) : (s.setBmpFlipV v).comReverse = s.comReverse := rfl
@[simp] theorem setBmpFlipV_lsbAtTop (s : State) (v : Bool) : (s.setBmpFlipV v).lsbAtTop = s.lsbAtTop := rfl
@[simp] theorem setBmpFlipV_spiHz (s : State) (v : Bool) : (s.setBmpFlipV v).spiHz = s.spiHz := rfl
@[simp] theorem setBmpFlipV_bmpMsbLeft (s : State) (v : Bool) : (s.setBmpFlipV v).bmpMsbLeft = s.bmpMsbLeft := rfl
@[simp] theorem setBmpFlipV_bmpFlipH (s : State) (v : Bool) : (s.setBmpFlipV v).bmpFlipH = s.bmpFlipH := rfl
@[simp] theorem setBmpFlipV_bmpFlipV (s : State) (v : Bool) : (s.setBmpFlipV v).bmpFlipV = v := rfl
@[simp] theorem setBmpFlipV_pstate (s : State) (v : Bool) : (s.setBmpFlipV v).pstate = s.pstate := rfl
@[simp] theorem setBmpFlipV_ill (s : State) (v : Bool) : (s.setBmpFlipV v).ill = s.ill := rfl
@[simp] theorem setBmpFlipV_cause (s : State) (v : Bool) : (s.setBmpFlipV v).cause = s.cause := rfl
@[simp] theorem setBmpFlipV_faultWord (s : State) (v : Bool) : (s.setBmpFlipV v).faultWord = s.faultWord := rfl
@[simp] theorem setBmpFlipV_result (s : State) (v : Bool) : (s.setBmpFlipV v).result = s.result := rfl
@[simp] theorem setBmpFlipV_rstLine (s : State) (v : Bool) : (s.setBmpFlipV v).rstLine = s.rstLine := rfl
@[simp] theorem setBmpFlipV_fb (s : State) (v : Bool) : (s.setBmpFlipV v).fb = s.fb := rfl
@[simp] theorem setBmpFlipV_out (s : State) (v : Bool) : (s.setBmpFlipV v).out = s.out := rfl
@[simp] theorem setBmpFlipV_cab (s : State) (v : Bool) : (s.setBmpFlipV v).cab = s.cab := rfl
@[simp] theorem setBmpFlipV_csp (s : State) (v : Bool) : (s.setBmpFlipV v).csp = s.csp := rfl
@[simp] theorem setBmpFlipV_stream (s : State) (v : Bool) : (s.setBmpFlipV v).stream = s.stream := rfl

@[simp] theorem setPState_cfg (s : State) (p : PState) : (s.setPState p).cfg = s.cfg := rfl
@[simp] theorem setPState_cursorX (s : State) (p : PState) : (s.setPState p).cursorX = s.cursorX := rfl
@[simp] theorem setPState_cursorY (s : State) (p : PState) : (s.setPState p).cursorY = s.cursorY := rfl
@[simp] theorem setPState_color (s : State) (p : PState) : (s.setPState p).color = s.color := rfl
@[simp] theorem setPState_offset (s : State) (p : PState) : (s.setPState p).offset = s.offset := rfl
@[simp] theorem setPState_segRemap (s : State) (p : PState) : (s.setPState p).segRemap = s.segRemap := rfl
@[simp] theorem setPState_comReverse (s : State) (p : PState) : (s.setPState p).comReverse = s.comReverse := rfl
@[simp] theorem setPState_lsbAtTop (s : State) (p : PState) : (s.setPState p).lsbAtTop = s.lsbAtTop := rfl
@[simp] theorem setPState_spiHz (s : State) (p : PState) : (s.setPState p).spiHz = s.spiHz := rfl
@[simp] theorem setPState_bmpMsbLeft (s : State) (p : PState) : (s.setPState p).bmpMsbLeft = s.bmpMsbLeft := rfl
@[simp] theorem setPState_bmpFlipH (s : State) (p : PState) : (s.setPState p).bmpFlipH = s.bmpFlipH := rfl
@[simp] theorem setPState_bmpFlipV (s : State) (p : PState) : (s.setPState p).bmpFlipV = s.bmpFlipV := rfl
@[simp] theorem setPState_pstate (s : State) (p : PState) : (s.setPState p).pstate = p := rfl
@[simp] theorem setPState_ill (s : State) (p : PState) : (s.setPState p).ill = s.ill := rfl
@[simp] theorem setPState_cause (s : State) (p : PState) : (s.setPState p).cause = s.cause := rfl
@[simp] theorem setPState_faultWord (s : State) (p : PState) : (s.setPState p).faultWord = s.faultWord := rfl
@[simp] theorem setPState_result (s : State) (p : PState) : (s.setPState p).result = s.result := rfl
@[simp] theorem setPState_rstLine (s : State) (p : PState) : (s.setPState p).rstLine = s.rstLine := rfl
@[simp] theorem setPState_fb (s : State) (p : PState) : (s.setPState p).fb = s.fb := rfl
@[simp] theorem setPState_out (s : State) (p : PState) : (s.setPState p).out = s.out := rfl
@[simp] theorem setPState_cab (s : State) (p : PState) : (s.setPState p).cab = s.cab := rfl
@[simp] theorem setPState_csp (s : State) (p : PState) : (s.setPState p).csp = s.csp := rfl
@[simp] theorem setPState_stream (s : State) (p : PState) : (s.setPState p).stream = s.stream := rfl

@[simp] theorem setResult_cfg (s : State) (v : Word) : (s.setResult v).cfg = s.cfg := rfl
@[simp] theorem setResult_cursorX (s : State) (v : Word) : (s.setResult v).cursorX = s.cursorX := rfl
@[simp] theorem setResult_cursorY (s : State) (v : Word) : (s.setResult v).cursorY = s.cursorY := rfl
@[simp] theorem setResult_color (s : State) (v : Word) : (s.setResult v).color = s.color := rfl
@[simp] theorem setResult_offset (s : State) (v : Word) : (s.setResult v).offset = s.offset := rfl
@[simp] theorem setResult_segRemap (s : State) (v : Word) : (s.setResult v).segRemap = s.segRemap := rfl
@[simp] theorem setResult_comReverse (s : State) (v : Word) : (s.setResult v).comReverse = s.comReverse := rfl
@[simp] theorem setResult_lsbAtTop (s : State) (v : Word) : (s.setResult v).lsbAtTop = s.lsbAtTop := rfl
@[simp] theorem setResult_spiHz (s : State) (v : Word) : (s.setResult v).spiHz = s.spiHz := rfl
@[simp] theorem setResult_bmpMsbLeft (s : State) (v : Word) : (s.setResult v).bmpMsbLeft = s.bmpMsbLeft := rfl
@[simp] theorem setResult_bmpFlipH (s : State) (v : Word) : (s.setResult v).bmpFlipH = s.bmpFlipH := rfl
@[simp] theorem setResult_bmpFlipV (s : State) (v : Word) : (s.setResult v).bmpFlipV = s.bmpFlipV := rfl
@[simp] theorem setResult_pstate (s : State) (v : Word) : (s.setResult v).pstate = s.pstate := rfl
@[simp] theorem setResult_ill (s : State) (v : Word) : (s.setResult v).ill = s.ill := rfl
@[simp] theorem setResult_cause (s : State) (v : Word) : (s.setResult v).cause = s.cause := rfl
@[simp] theorem setResult_faultWord (s : State) (v : Word) : (s.setResult v).faultWord = s.faultWord := rfl
@[simp] theorem setResult_result (s : State) (v : Word) : (s.setResult v).result = v := rfl
@[simp] theorem setResult_rstLine (s : State) (v : Word) : (s.setResult v).rstLine = s.rstLine := rfl
@[simp] theorem setResult_fb (s : State) (v : Word) : (s.setResult v).fb = s.fb := rfl
@[simp] theorem setResult_out (s : State) (v : Word) : (s.setResult v).out = s.out := rfl
@[simp] theorem setResult_cab (s : State) (v : Word) : (s.setResult v).cab = s.cab := rfl
@[simp] theorem setResult_csp (s : State) (v : Word) : (s.setResult v).csp = s.csp := rfl
@[simp] theorem setResult_stream (s : State) (v : Word) : (s.setResult v).stream = s.stream := rfl

@[simp] theorem emit_cfg (s : State) (e : Event) : (s.emit e).cfg = s.cfg := rfl
@[simp] theorem emit_cursorX (s : State) (e : Event) : (s.emit e).cursorX = s.cursorX := rfl
@[simp] theorem emit_cursorY (s : State) (e : Event) : (s.emit e).cursorY = s.cursorY := rfl
@[simp] theorem emit_color (s : State) (e : Event) : (s.emit e).color = s.color := rfl
@[simp] theorem emit_offset (s : State) (e : Event) : (s.emit e).offset = s.offset := rfl
@[simp] theorem emit_segRemap (s : State) (e : Event) : (s.emit e).segRemap = s.segRemap := rfl
@[simp] theorem emit_comReverse (s : State) (e : Event) : (s.emit e).comReverse = s.comReverse := rfl
@[simp] theorem emit_lsbAtTop (s : State) (e : Event) : (s.emit e).lsbAtTop = s.lsbAtTop := rfl
@[simp] theorem emit_spiHz (s : State) (e : Event) : (s.emit e).spiHz = s.spiHz := rfl
@[simp] theorem emit_bmpMsbLeft (s : State) (e : Event) : (s.emit e).bmpMsbLeft = s.bmpMsbLeft := rfl
@[simp] theorem emit_bmpFlipH (s : State) (e : Event) : (s.emit e).bmpFlipH = s.bmpFlipH := rfl
@[simp] theorem emit_bmpFlipV (s : State) (e : Event) : (s.emit e).bmpFlipV = s.bmpFlipV := rfl
@[simp] theorem emit_pstate (s : State) (e : Event) : (s.emit e).pstate = s.pstate := rfl
@[simp] theorem emit_ill (s : State) (e : Event) : (s.emit e).ill = s.ill := rfl
@[simp] theorem emit_cause (s : State) (e : Event) : (s.emit e).cause = s.cause := rfl
@[simp] theorem emit_faultWord (s : State) (e : Event) : (s.emit e).faultWord = s.faultWord := rfl
@[simp] theorem emit_result (s : State) (e : Event) : (s.emit e).result = s.result := rfl
@[simp] theorem emit_rstLine (s : State) (e : Event) : (s.emit e).rstLine = s.rstLine := rfl
@[simp] theorem emit_fb (s : State) (e : Event) : (s.emit e).fb = s.fb := rfl
@[simp] theorem emit_out (s : State) (e : Event) : (s.emit e).out = s.out ++ [e] := rfl
@[simp] theorem emit_cab (s : State) (e : Event) : (s.emit e).cab = s.cab := rfl
@[simp] theorem emit_csp (s : State) (e : Event) : (s.emit e).csp = s.csp := rfl
@[simp] theorem emit_stream (s : State) (e : Event) : (s.emit e).stream = s.stream := rfl

@[simp] theorem retire_cfg (s : State) (n : Nat) : (retire n s).cfg = s.cfg := rfl
@[simp] theorem retire_cursorX (s : State) (n : Nat) : (retire n s).cursorX = s.cursorX := rfl
@[simp] theorem retire_cursorY (s : State) (n : Nat) : (retire n s).cursorY = s.cursorY := rfl
@[simp] theorem retire_color (s : State) (n : Nat) : (retire n s).color = s.color := rfl
@[simp] theorem retire_offset (s : State) (n : Nat) : (retire n s).offset = s.offset := rfl
@[simp] theorem retire_segRemap (s : State) (n : Nat) : (retire n s).segRemap = s.segRemap := rfl
@[simp] theorem retire_comReverse (s : State) (n : Nat) : (retire n s).comReverse = s.comReverse := rfl
@[simp] theorem retire_lsbAtTop (s : State) (n : Nat) : (retire n s).lsbAtTop = s.lsbAtTop := rfl
@[simp] theorem retire_spiHz (s : State) (n : Nat) : (retire n s).spiHz = s.spiHz := rfl
@[simp] theorem retire_bmpMsbLeft (s : State) (n : Nat) : (retire n s).bmpMsbLeft = s.bmpMsbLeft := rfl
@[simp] theorem retire_bmpFlipH (s : State) (n : Nat) : (retire n s).bmpFlipH = s.bmpFlipH := rfl
@[simp] theorem retire_bmpFlipV (s : State) (n : Nat) : (retire n s).bmpFlipV = s.bmpFlipV := rfl
@[simp] theorem retire_pstate (s : State) (n : Nat) : (retire n s).pstate = s.pstate := rfl
@[simp] theorem retire_ill (s : State) (n : Nat) : (retire n s).ill = s.ill := rfl
@[simp] theorem retire_cause (s : State) (n : Nat) : (retire n s).cause = s.cause := rfl
@[simp] theorem retire_faultWord (s : State) (n : Nat) : (retire n s).faultWord = s.faultWord := rfl
@[simp] theorem retire_result (s : State) (n : Nat) : (retire n s).result = s.result := rfl
@[simp] theorem retire_rstLine (s : State) (n : Nat) : (retire n s).rstLine = s.rstLine := rfl
@[simp] theorem retire_fb (s : State) (n : Nat) : (retire n s).fb = s.fb := rfl
@[simp] theorem retire_out (s : State) (n : Nat) : (retire n s).out = s.out := rfl
@[simp] theorem retire_cab (s : State) (n : Nat) : (retire n s).cab = [] := rfl
@[simp] theorem retire_csp (s : State) (n : Nat) : (retire n s).csp = s.csp + n := rfl
@[simp] theorem retire_stream (s : State) (n : Nat) : (retire n s).stream = s.pending.drop n := rfl

@[simp] theorem receiveWords_cfg (s : State) : (receiveWords s).cfg = s.cfg := rfl
@[simp] theorem receiveWords_cursorX (s : State) : (receiveWords s).cursorX = s.cursorX := rfl
@[simp] theorem receiveWords_cursorY (s : State) : (receiveWords s).cursorY = s.cursorY := rfl
@[simp] theorem receiveWords_color (s : State) : (receiveWords s).color = s.color := rfl
@[simp] theorem receiveWords_offset (s : State) : (receiveWords s).offset = s.offset := rfl
@[simp] theorem receiveWords_segRemap (s : State) : (receiveWords s).segRemap = s.segRemap := rfl
@[simp] theorem receiveWords_comReverse (s : State) : (receiveWords s).comReverse = s.comReverse := rfl
@[simp] theorem receiveWords_lsbAtTop (s : State) : (receiveWords s).lsbAtTop = s.lsbAtTop := rfl
@[simp] theorem receiveWords_spiHz (s : State) : (receiveWords s).spiHz = s.spiHz := rfl
@[simp] theorem receiveWords_bmpMsbLeft (s : State) : (receiveWords s).bmpMsbLeft = s.bmpMsbLeft := rfl
@[simp] theorem receiveWords_bmpFlipH (s : State) : (receiveWords s).bmpFlipH = s.bmpFlipH := rfl
@[simp] theorem receiveWords_bmpFlipV (s : State) : (receiveWords s).bmpFlipV = s.bmpFlipV := rfl
@[simp] theorem receiveWords_pstate (s : State) : (receiveWords s).pstate = s.pstate := rfl
@[simp] theorem receiveWords_ill (s : State) : (receiveWords s).ill = s.ill := rfl
@[simp] theorem receiveWords_cause (s : State) : (receiveWords s).cause = s.cause := rfl
@[simp] theorem receiveWords_faultWord (s : State) : (receiveWords s).faultWord = s.faultWord := rfl
@[simp] theorem receiveWords_result (s : State) : (receiveWords s).result = s.result := rfl
@[simp] theorem receiveWords_rstLine (s : State) : (receiveWords s).rstLine = s.rstLine := rfl
@[simp] theorem receiveWords_fb (s : State) : (receiveWords s).fb = s.fb := rfl
@[simp] theorem receiveWords_out (s : State) : (receiveWords s).out = s.out := rfl
@[simp] theorem receiveWords_cab (s : State) : (receiveWords s).cab = s.pending := rfl
@[simp] theorem receiveWords_csp (s : State) : (receiveWords s).csp = s.csp := rfl
@[simp] theorem receiveWords_stream (s : State) : (receiveWords s).stream = [] := rfl

@[simp] theorem deliver_cfg (s : State) (ws : List Word) : (s.deliver ws).cfg = s.cfg := rfl
@[simp] theorem deliver_cursorX (s : State) (ws : List Word) : (s.deliver ws).cursorX = s.cursorX := rfl
@[simp] theorem deliver_cursorY (s : State) (ws : List Word) : (s.deliver ws).cursorY = s.cursorY := rfl
@[simp] theorem deliver_color (s : State) (ws : List Word) : (s.deliver ws).color = s.color := rfl
@[simp] theorem deliver_offset (s : State) (ws : List Word) : (s.deliver ws).offset = s.offset := rfl
@[simp] theorem deliver_segRemap (s : State) (ws : List Word) : (s.deliver ws).segRemap = s.segRemap := rfl
@[simp] theorem deliver_comReverse (s : State) (ws : List Word) : (s.deliver ws).comReverse = s.comReverse := rfl
@[simp] theorem deliver_lsbAtTop (s : State) (ws : List Word) : (s.deliver ws).lsbAtTop = s.lsbAtTop := rfl
@[simp] theorem deliver_spiHz (s : State) (ws : List Word) : (s.deliver ws).spiHz = s.spiHz := rfl
@[simp] theorem deliver_bmpMsbLeft (s : State) (ws : List Word) : (s.deliver ws).bmpMsbLeft = s.bmpMsbLeft := rfl
@[simp] theorem deliver_bmpFlipH (s : State) (ws : List Word) : (s.deliver ws).bmpFlipH = s.bmpFlipH := rfl
@[simp] theorem deliver_bmpFlipV (s : State) (ws : List Word) : (s.deliver ws).bmpFlipV = s.bmpFlipV := rfl
@[simp] theorem deliver_pstate (s : State) (ws : List Word) : (s.deliver ws).pstate = s.pstate := rfl
@[simp] theorem deliver_ill (s : State) (ws : List Word) : (s.deliver ws).ill = s.ill := rfl
@[simp] theorem deliver_cause (s : State) (ws : List Word) : (s.deliver ws).cause = s.cause := rfl
@[simp] theorem deliver_faultWord (s : State) (ws : List Word) : (s.deliver ws).faultWord = s.faultWord := rfl
@[simp] theorem deliver_result (s : State) (ws : List Word) : (s.deliver ws).result = s.result := rfl
@[simp] theorem deliver_rstLine (s : State) (ws : List Word) : (s.deliver ws).rstLine = s.rstLine := rfl
@[simp] theorem deliver_fb (s : State) (ws : List Word) : (s.deliver ws).fb = s.fb := rfl
@[simp] theorem deliver_out (s : State) (ws : List Word) : (s.deliver ws).out = s.out := rfl
@[simp] theorem deliver_cab (s : State) (ws : List Word) : (s.deliver ws).cab = s.cab := rfl
@[simp] theorem deliver_csp (s : State) (ws : List Word) : (s.deliver ws).csp = s.csp := rfl
@[simp] theorem deliver_stream (s : State) (ws : List Word) : (s.deliver ws).stream = s.stream ++ ws := rfl

@[simp] theorem placeWords_cfg (s : State) (ws : List Word) : (placeWords ws s).cfg = s.cfg := rfl
@[simp] theorem placeWords_cursorX (s : State) (ws : List Word) : (placeWords ws s).cursorX = s.cursorX := rfl
@[simp] theorem placeWords_cursorY (s : State) (ws : List Word) : (placeWords ws s).cursorY = s.cursorY := rfl
@[simp] theorem placeWords_color (s : State) (ws : List Word) : (placeWords ws s).color = s.color := rfl
@[simp] theorem placeWords_offset (s : State) (ws : List Word) : (placeWords ws s).offset = s.offset := rfl
@[simp] theorem placeWords_segRemap (s : State) (ws : List Word) : (placeWords ws s).segRemap = s.segRemap := rfl
@[simp] theorem placeWords_comReverse (s : State) (ws : List Word) : (placeWords ws s).comReverse = s.comReverse := rfl
@[simp] theorem placeWords_lsbAtTop (s : State) (ws : List Word) : (placeWords ws s).lsbAtTop = s.lsbAtTop := rfl
@[simp] theorem placeWords_spiHz (s : State) (ws : List Word) : (placeWords ws s).spiHz = s.spiHz := rfl
@[simp] theorem placeWords_bmpMsbLeft (s : State) (ws : List Word) : (placeWords ws s).bmpMsbLeft = s.bmpMsbLeft := rfl
@[simp] theorem placeWords_bmpFlipH (s : State) (ws : List Word) : (placeWords ws s).bmpFlipH = s.bmpFlipH := rfl
@[simp] theorem placeWords_bmpFlipV (s : State) (ws : List Word) : (placeWords ws s).bmpFlipV = s.bmpFlipV := rfl
@[simp] theorem placeWords_pstate (s : State) (ws : List Word) : (placeWords ws s).pstate = s.pstate := rfl
@[simp] theorem placeWords_ill (s : State) (ws : List Word) : (placeWords ws s).ill = s.ill := rfl
@[simp] theorem placeWords_cause (s : State) (ws : List Word) : (placeWords ws s).cause = s.cause := rfl
@[simp] theorem placeWords_faultWord (s : State) (ws : List Word) : (placeWords ws s).faultWord = s.faultWord := rfl
@[simp] theorem placeWords_result (s : State) (ws : List Word) : (placeWords ws s).result = s.result := rfl
@[simp] theorem placeWords_rstLine (s : State) (ws : List Word) : (placeWords ws s).rstLine = s.rstLine := rfl
@[simp] theorem placeWords_fb (s : State) (ws : List Word) : (placeWords ws s).fb = s.fb := rfl
@[simp] theorem placeWords_out (s : State) (ws : List Word) : (placeWords ws s).out = s.out := rfl
@[simp] theorem placeWords_cab (s : State) (ws : List Word) : (placeWords ws s).cab = [] := rfl
@[simp] theorem placeWords_csp (s : State) (ws : List Word) : (placeWords ws s).csp = s.csp := rfl
@[simp] theorem placeWords_stream (s : State) (ws : List Word) : (placeWords ws s).stream = ws ++ s.stream := rfl

@[simp] theorem setTextScale_eq (s : State) (n : Nat) : s.setTextScale n = s := rfl
@[simp] theorem textScale_eq (s : State) : s.textScale = 1 := rfl
@[simp] theorem withFb_self (s : State) : s.withFb s.fb = s := rfl
@[simp] theorem withFb_withFb (s : State) (m n : Memory) : (s.withFb m).withFb n = s.withFb n := rfl
theorem fbOk_eq (s : State) : s.fbOk = s.cfg.fbAvailable := rfl

/-- `raise ILLEGAL` in full (R221). -/
theorem raiseIllegal_eq (c : Cause) (w : Word) (s : State) :
    raiseIllegal c w s =
      { s with
        ill := true
        cause := if s.ill then s.cause else c
        faultWord := if s.ill then s.faultWord else w } := by
  unfold raiseIllegal
  split
  · next h => cases s; simp_all
  · next h => simp [h]

end Sys2Proof.Machine
end

