-- ==== Sys2Proof/Laws/Memory.lean ====
section
/-! SUPPORT. The laws of framebuffer bytes: read after write, every operation keeps the canonical form, and what a
well-formed framebuffer reads as. -/

namespace Sys2Proof.Machine

@[simp] theorem Memory.write_keys (m : Memory) (a : Nat) (v : Byte) :
    (Memory.write m a v).map Prod.fst = m.map Prod.fst := by
  induction m with
  | nil => rfl
  | cons c m ih =>
    obtain ⟨k, u⟩ := c
    by_cases h : k = a <;> simp [Memory.write, h, ih]

theorem Memory.write_wf {size : Nat} {m : Memory} (h : Memory.wf size m) (a : Nat) (v : Byte) :
    Memory.wf size (Memory.write m a v) := by
  simpa [Memory.wf] using h

@[simp] theorem Memory.filled_wf (size : Nat) (v : Byte) : Memory.wf size (Memory.filled size v) := by
  simp [Memory.wf, Memory.filled, Function.comp_def]

theorem Memory.read_isSome (m : Memory) (a : Nat) :
    (Memory.read m a).isSome ↔ a ∈ m.map Prod.fst := by
  induction m with
  | nil => simp [Memory.read]
  | cons c m ih =>
    obtain ⟨k, u⟩ := c
    by_cases h : k = a
    · simp [Memory.read, h]
    · simp only [Memory.read, h, if_false, ih, List.map_cons, List.mem_cons]
      exact ⟨.inr, fun h' => h'.resolve_left (fun e => h e.symm)⟩

/-- A well-formed framebuffer has a byte exactly at the indices below its size. -/
theorem Memory.read_some_iff {size : Nat} {m : Memory} (h : Memory.wf size m) (a : Nat) :
    (∃ v, Memory.read m a = some v) ↔ a < size := by
  rw [← Option.isSome_iff_exists, Memory.read_isSome, h, List.mem_range]

theorem Memory.read_of_lt {size : Nat} {m : Memory} (h : Memory.wf size m) {a : Nat} (ha : a < size) :
    ∃ v, Memory.read m a = some v := (Memory.read_some_iff h a).2 ha

theorem Memory.read_write_ne (m : Memory) {a b : Nat} (v : Byte) (h : b ≠ a) :
    Memory.read (Memory.write m a v) b = Memory.read m b := by
  induction m with
  | nil => rfl
  | cons c m ih =>
    obtain ⟨k, u⟩ := c
    by_cases hk : k = a
    · subst hk
      simp [Memory.write, Memory.read, h.symm]
    · rw [Memory.write, if_neg hk, Memory.read, Memory.read, ih]

theorem Memory.read_write_same {m : Memory} {a : Nat} {u : Byte} (v : Byte)
    (h : Memory.read m a = some u) : Memory.read (Memory.write m a v) a = some v := by
  induction m with
  | nil => simp [Memory.read] at h
  | cons c m ih =>
    obtain ⟨k, w⟩ := c
    by_cases hk : k = a
    · simp [Memory.write, Memory.read, hk]
    · simp only [Memory.read, hk, if_false] at h
      simp [Memory.write, Memory.read, hk, ih h]

/-- Writing back what a byte holds changes nothing. -/
theorem Memory.write_self {m : Memory} {a : Nat} {v : Byte} (h : Memory.read m a = some v) :
    Memory.write m a v = m := by
  induction m with
  | nil => rfl
  | cons c m ih =>
    obtain ⟨k, w⟩ := c
    by_cases hk : k = a
    · simp [Memory.read, hk] at h
      simp [Memory.write, hk, h]
    · simp only [Memory.read, hk, if_false] at h
      simp [Memory.write, hk, ih h]

theorem Memory.read_map_range (n k a : Nat) (f : Nat → Byte) :
    Memory.read ((List.range' k n).map (fun i => (i, f i))) a =
      if k ≤ a ∧ a < k + n then some (f a) else none := by
  induction n generalizing k with
  | zero => simp [Memory.read]
  | succ n ih =>
    rw [List.range'_succ, List.map_cons, Memory.read, ih]
    by_cases h : k = a
    · subst h; simp
    · rw [if_neg h]
      congr 1
      apply propext
      omega

@[simp] theorem Memory.read_filled (size a : Nat) (v : Byte) :
    Memory.read (Memory.filled size v) a = if a < size then some v else none := by
  simpa [Memory.filled, List.range_eq_range'] using Memory.read_map_range size 0 a (fun _ => v)

/-- Two well-formed framebuffers that read the same are the same data. -/
theorem Memory.ext {m n : Memory} (hk : m.map Prod.fst = n.map Prod.fst)
    (hd : (m.map Prod.fst).Nodup) (h : ∀ a, Memory.read m a = Memory.read n a) : m = n := by
  induction m generalizing n with
  | nil => simpa using hk.symm
  | cons c m ih =>
    obtain ⟨k, u⟩ := c
    cases n with
    | nil => simp at hk
    | cons d n =>
      obtain ⟨k', u'⟩ := d
      simp only [List.map_cons, List.cons.injEq] at hk
      obtain ⟨rfl, hk⟩ := hk
      simp only [List.map_cons, List.nodup_cons] at hd
      have h0 := h k
      simp only [Memory.read, if_true, Option.some.injEq] at h0
      subst h0
      rw [ih hk hd.2]
      intro a
      by_cases ha : k = a
      · subst ha
        have e1 : Memory.read m k = none := by
          have := (Memory.read_isSome m k).not.2 hd.1
          simpa using this
        have e2 : Memory.read n k = none := by
          have := (Memory.read_isSome n k).not.2 (hk ▸ hd.1)
          simpa using this
        rw [e1, e2]
      · have := h a
        simpa [Memory.read, ha] using this

theorem Memory.wf_ext {size : Nat} {m n : Memory} (hm : Memory.wf size m) (hn : Memory.wf size n)
    (h : ∀ a, a < size → Memory.read m a = Memory.read n a) : m = n := by
  refine Memory.ext (hm.trans hn.symm) (hm ▸ List.nodup_range) fun a => ?_
  by_cases ha : a < size
  · exact h a ha
  · have e1 := (Memory.read_some_iff hm a).not.2 ha
    have e2 := (Memory.read_some_iff hn a).not.2 ha
    cases hr : Memory.read m a <;> cases hs : Memory.read n a <;> simp_all

/-- The canonical form lists its indices in strictly rising order. -/
theorem Memory.wf_rising {size : Nat} {m : Memory} (h : Memory.wf size m) :
    (m.map Prod.fst).Pairwise (· < ·) := h ▸ List.pairwise_lt_range

/-- Block reset leaves a framebuffer in canonical form (R48). -/
theorem resetWith_fb_wf (c : Config) :
    Memory.wf (if c.fbAvailable then c.fbSize else 0) (State.resetWith c).fb := by
  by_cases h : c.fbAvailable <;> simp [State.resetWith, Memory.wf, h, Function.comp_def]

theorem reset_fb_wf : Memory.wf 1056 State.reset.fb := resetWith_fb_wf Config.reference

end Sys2Proof.Machine
end

