-- ==== Sys2Proof/Laws/Pixel.lean ====
section
/-! SUPPORT. What `SetPixel` and a sequence of pixel writes do (R100), said once for every drawing command. -/

namespace Sys2Proof.Machine

/-! ## One byte -/

theorem getLsbD_setBit (byte : Byte) {b : Nat} (hb : b < 8) (v : Bool) (j : Nat) :
    (setBit byte b v).getLsbD j = if j = b then v else byte.getLsbD j := by
  unfold setBit
  by_cases hj : j < 8
  · by_cases e : j = b
    · subst e
      cases v <;> simp [hj]
    · have : (decide (j < b) || !decide (j - b = 0)) = true := by
        simp; omega
      cases v <;> simp [hj, e]
      all_goals simp_all
      all_goals omega
  · have hb' : j ≠ b := by omega
    have h8 : 8 ≤ j := by omega
    rw [if_neg hb', BitVec.getLsbD_of_ge _ _ h8, BitVec.getLsbD_of_ge _ _ h8]

theorem setBit_self (byte : Byte) {b : Nat} (hb : b < 8) : setBit byte b (byte.getLsbD b) = byte := by
  apply BitVec.eq_of_getLsbD_eq
  intro j hj
  rw [getLsbD_setBit _ hb]
  split <;> simp_all

/-! ## Translation -/

/-- The translation reads the parameters and `OFFSET` only. -/
theorem translate_congr {s t : State} (hc : t.cfg = s.cfg) (ho : t.offset = s.offset) (x y : Int) :
    t.translate x y = s.translate x y := by
  simp [State.translate, State.InWindow, State.fbIndex, hc, ho]

@[simp] theorem translate_withFb (s : State) (m : Memory) (x y : Int) :
    (s.withFb m).translate x y = s.translate x y := translate_congr rfl rfl x y

theorem translate_of_inWindow {s : State} {x y : Int} (h : s.InWindow x y) :
    s.translate x y =
      some (y.toNat / 8 * s.cfg.iw + (x.toNat + s.offset), y.toNat % 8) := if_pos h

theorem translate_of_not {s : State} {x y : Int} (h : ¬ s.InWindow x y) :
    s.translate x y = none := if_neg h

theorem translate_eq_some {s : State} {x y : Int} {a b : Nat} :
    s.translate x y = some (a, b) ↔
      s.InWindow x y ∧ a = y.toNat / 8 * s.cfg.iw + (x.toNat + s.offset) ∧ b = y.toNat % 8 := by
  by_cases h : s.InWindow x y
  · rw [translate_of_inWindow h]
    simp only [Option.some.injEq, Prod.mk.injEq]
    exact ⟨fun ⟨e, f⟩ => ⟨h, e.symm, f.symm⟩, fun ⟨_, e, f⟩ => ⟨e.symm, f.symm⟩⟩
  · rw [translate_of_not h]
    simp [h]

/-- A translated coordinate names a byte that exists, in its page and inside the visible columns (R62). -/
theorem translate_bounds {s : State} (hs : s.FbSound) {x y : Int} {a b : Nat}
    (h : s.translate x y = some (a, b)) : a < s.cfg.fbSize ∧ b < 8 := by
  obtain ⟨⟨hx, hx', hy, hy'⟩, rfl, rfl⟩ := translate_eq_some.1 h
  obtain ⟨⟨⟨g1, g2, g3, g4, g5, g6⟩, -⟩, -, ho⟩ := hs
  refine ⟨?_, Nat.mod_lt _ (by decide)⟩
  unfold Config.offsetMax at ho
  unfold Config.fbSize Config.pages
  have hp : y.toNat / 8 < s.cfg.h / 8 := by omega
  have hc : x.toNat + s.offset < s.cfg.iw := by omega
  calc y.toNat / 8 * s.cfg.iw + (x.toNat + s.offset)
      < y.toNat / 8 * s.cfg.iw + s.cfg.iw := by omega
    _ = (y.toNat / 8 + 1) * s.cfg.iw := by ring
    _ ≤ s.cfg.h / 8 * s.cfg.iw := Nat.mul_le_mul_right _ hp
    _ = s.cfg.iw * (s.cfg.h / 8) := Nat.mul_comm _ _

/-- Different coordinates have different bits. -/
theorem translate_inj {s : State} (hs : s.FbSound) {x y x' y' : Int} {a b : Nat}
    (h : s.translate x y = some (a, b)) (h' : s.translate x' y' = some (a, b)) :
    x = x' ∧ y = y' := by
  obtain ⟨⟨hx, hxw, hy, hyh⟩, ha, hb⟩ := translate_eq_some.1 h
  obtain ⟨⟨hx', hxw', hy', hyh'⟩, ha', hb'⟩ := translate_eq_some.1 h'
  obtain ⟨⟨⟨-, -, -, g4, g5, -⟩, -⟩, -, ho⟩ := hs
  unfold Config.offsetMax at ho
  have hc : x.toNat + s.offset < s.cfg.iw := by omega
  have hc' : x'.toNat + s.offset < s.cfg.iw := by omega
  have hpos : 0 < s.cfg.iw := by omega
  have hd : a / s.cfg.iw = y.toNat / 8 := by
    rw [ha, Nat.mul_comm, Nat.mul_add_div hpos, Nat.div_eq_of_lt hc, Nat.add_zero]
  have hd' : a / s.cfg.iw = y'.toNat / 8 := by
    rw [ha', Nat.mul_comm, Nat.mul_add_div hpos, Nat.div_eq_of_lt hc', Nat.add_zero]
  have hm : a % s.cfg.iw = x.toNat + s.offset := by
    rw [ha, Nat.mul_comm, Nat.mul_add_mod, Nat.mod_eq_of_lt hc]
  have hm' : a % s.cfg.iw = x'.toNat + s.offset := by
    rw [ha', Nat.mul_comm, Nat.mul_add_mod, Nat.mod_eq_of_lt hc']
  omega

/-! ## One pixel write -/

/-- `SetPixel` changes the framebuffer only. -/
theorem setPixel_eq (x y : Int) (v : Bool) (s : State) :
    setPixel x y v s = s.withFb (setPixel x y v s).fb := by
  unfold setPixel
  split
  · rfl
  · split <;> rfl

@[simp] theorem setPixel_cfg (x y : Int) (v : Bool) (s : State) : (setPixel x y v s).cfg = s.cfg := by
  rw [setPixel_eq]; rfl

@[simp] theorem setPixel_offset (x y : Int) (v : Bool) (s : State) :
    (setPixel x y v s).offset = s.offset := by
  rw [setPixel_eq]; rfl

@[simp] theorem setPixel_fbOk (x y : Int) (v : Bool) (s : State) :
    (setPixel x y v s).fbOk = s.fbOk := by
  rw [setPixel_eq]; rfl

@[simp] theorem setPixel_color (x y : Int) (v : Bool) (s : State) :
    (setPixel x y v s).color = s.color := by
  rw [setPixel_eq]; rfl

@[simp] theorem setPixel_keys (x y : Int) (v : Bool) (s : State) :
    (setPixel x y v s).fb.map Prod.fst = s.fb.map Prod.fst := by
  unfold setPixel
  split
  · rfl
  · split <;> simp

theorem setPixel_sound {s : State} (hs : s.FbSound) (x y : Int) (v : Bool) :
    (setPixel x y v s).FbSound := by
  simpa [State.FbSound, Memory.wf] using hs

theorem setPixel_of_not {s : State} {x y : Int} (v : Bool) (h : ¬ s.InWindow x y) :
    setPixel x y v s = s := by
  simp [setPixel, translate_of_not h]

/-- `SetPixel` inside the window, in full (R100). -/
theorem setPixel_of_translate {s : State} (hs : s.FbSound) {x y : Int} (v : Bool) {a b : Nat}
    (h : s.translate x y = some (a, b)) :
    ∃ byte, Memory.read s.fb a = some byte ∧
      setPixel x y v s = s.withFb (Memory.write s.fb a (setBit byte b v)) := by
  obtain ⟨byte, hr⟩ := Memory.read_of_lt hs.2.1 (translate_bounds hs h).1
  exact ⟨byte, hr, by simp [setPixel, h, hr]⟩

theorem read_setPixel_ne {s : State} (hs : s.FbSound) {x y : Int} (v : Bool) {a : Nat}
    (h : ∀ b, s.translate x y ≠ some (a, b)) :
    Memory.read (setPixel x y v s).fb a = Memory.read s.fb a := by
  by_cases hw : s.InWindow x y
  · have ht := translate_of_inWindow hw
    obtain ⟨byte, -, e⟩ := setPixel_of_translate hs v ht
    rw [e]
    refine Memory.read_write_ne _ _ fun ea => h (y.toNat % 8) ?_
    rw [ht, ea]
  · rw [setPixel_of_not v hw]

/-- The pixels after a pixel write: the one written, if it is in the window, and every other as before (R100). -/
theorem pixelAt_setPixel {s : State} (hs : s.FbSound) (x y : Int) (v : Bool) {i j : Int}
    (hij : s.InWindow i j) :
    (setPixel x y v s).pixelAt i j = if i = x ∧ j = y then some v else s.pixelAt i j := by
  have hti := translate_of_inWindow hij
  generalize ha : j.toNat / 8 * s.cfg.iw + (i.toNat + s.offset) = a at hti
  generalize hb : j.toNat % 8 = b at hti
  have hb8 := (translate_bounds hs hti).2
  unfold State.pixelAt
  rw [translate_congr (setPixel_cfg x y v s) (setPixel_offset x y v s), hti]
  simp only
  by_cases hw : s.InWindow x y
  · have ht := translate_of_inWindow hw
    generalize ha' : y.toNat / 8 * s.cfg.iw + (x.toNat + s.offset) = a' at ht
    generalize hb' : y.toNat % 8 = b' at ht
    have hb8' := (translate_bounds hs ht).2
    obtain ⟨byte, hr, e⟩ := setPixel_of_translate hs v ht
    rw [e, withFb_fb]
    by_cases ea : a = a'
    · subst ea
      rw [Memory.read_write_same _ hr, hr]
      simp only [Option.map_some, getLsbD_setBit _ hb8']
      by_cases eb : b = b'
      · subst eb
        have := translate_inj hs hti ht
        simp [this]
      · have : ¬ (i = x ∧ j = y) := by rintro ⟨rfl, rfl⟩; exact eb (hb.symm.trans hb')
        simp [this, eb]
    · have : ¬ (i = x ∧ j = y) := by rintro ⟨rfl, rfl⟩; exact ea (ha.symm.trans ha')
      rw [Memory.read_write_ne _ _ ea, if_neg this]
  · have : ¬ (i = x ∧ j = y) := by rintro ⟨rfl, rfl⟩; exact hw hij
    rw [setPixel_of_not v hw, if_neg this]

/-! ## A sequence of pixel writes -/

/-- The value the last write of `ps` to `(x, y)` leaves, none where no write of `ps` is to `(x, y)`. -/
def lastWrite : List PixelWrite → Int → Int → Option Bool
  | [], _, _ => none
  | p :: ps, x, y => (lastWrite ps x y).or (if x = p.x ∧ y = p.y then some p.v else none)

theorem lastWrite_eq_none {ps : List PixelWrite} {x y : Int} :
    lastWrite ps x y = none ↔ ∀ p ∈ ps, ¬ (x = p.x ∧ y = p.y) := by
  induction ps with
  | nil => simp [lastWrite]
  | cons p ps ih =>
    rw [lastWrite, Option.or_eq_none_iff, ih, List.forall_mem_cons, and_comm]
    by_cases h : x = p.x ∧ y = p.y <;> simp [h]

/-- When all writes to `(x, y)` agree, that value is the last. -/
theorem lastWrite_eq_some {ps : List PixelWrite} {x y : Int} {v : Bool}
    (hex : ∃ p ∈ ps, x = p.x ∧ y = p.y) (hall : ∀ p ∈ ps, x = p.x → y = p.y → p.v = v) :
    lastWrite ps x y = some v := by
  induction ps with
  | nil => simp at hex
  | cons p ps ih =>
    rw [lastWrite]
    by_cases hex' : ∃ p ∈ ps, x = p.x ∧ y = p.y
    · rw [ih hex' fun q hq => hall q (List.mem_cons_of_mem _ hq)]
      rfl
    · obtain ⟨q, hq, hqx, hqy⟩ := hex
      rcases List.mem_cons.1 hq with rfl | hq
      · have hn : lastWrite ps x y = none :=
          lastWrite_eq_none.2 fun r hr h => hex' ⟨r, hr, h⟩
        rw [hn, if_pos ⟨hqx, hqy⟩, hall q List.mem_cons_self hqx hqy]
        rfl
      · exact absurd ⟨q, hq, hqx, hqy⟩ hex'

@[simp] theorem paint_nil (s : State) : paint [] s = s := rfl

theorem paint_cons (p : PixelWrite) (ps : List PixelWrite) (s : State) :
    paint (p :: ps) s = paint ps (setPixel p.x p.y p.v s) := rfl

theorem paint_append (ps qs : List PixelWrite) (s : State) :
    paint (ps ++ qs) s = paint qs (paint ps s) := List.foldl_append ..

/-- Pixel writes change the framebuffer only. -/
theorem paint_eq (ps : List PixelWrite) (s : State) : paint ps s = s.withFb (paint ps s).fb := by
  induction ps generalizing s with
  | nil => rfl
  | cons p ps ih =>
    rw [paint_cons, ih, setPixel_eq]
    rfl

@[simp] theorem paint_keys (ps : List PixelWrite) (s : State) :
    (paint ps s).fb.map Prod.fst = s.fb.map Prod.fst := by
  induction ps generalizing s with
  | nil => rfl
  | cons p ps ih => rw [paint_cons, ih, setPixel_keys]

theorem paint_sound {s : State} (hs : s.FbSound) (ps : List PixelWrite) : (paint ps s).FbSound := by
  induction ps generalizing s with
  | nil => exact hs
  | cons p ps ih => exact ih (setPixel_sound hs p.x p.y p.v)

/-- The pixels after a sequence of pixel writes. -/
theorem pixelAt_paint {s : State} (hs : s.FbSound) (ps : List PixelWrite) {x y : Int}
    (h : s.InWindow x y) :
    (paint ps s).pixelAt x y = (lastWrite ps x y).or (s.pixelAt x y) := by
  induction ps generalizing s with
  | nil => simp [lastWrite]
  | cons p ps ih =>
    have h' : (setPixel p.x p.y p.v s).InWindow x y := by simpa [State.InWindow] using h
    rw [paint_cons, ih (setPixel_sound hs ..) h', pixelAt_setPixel hs _ _ _ h]
    rw [lastWrite]
    cases lastWrite ps x y <;> split <;> simp

/-- A byte that no write of the sequence translates to reads as before. -/
theorem read_paint_ne {s : State} (hs : s.FbSound) (ps : List PixelWrite) {a : Nat}
    (h : ∀ p ∈ ps, ∀ b, s.translate p.x p.y ≠ some (a, b)) :
    Memory.read (paint ps s).fb a = Memory.read s.fb a := by
  induction ps generalizing s with
  | nil => rfl
  | cons p ps ih =>
    rw [paint_cons, ih (setPixel_sound hs ..), read_setPixel_ne hs p.v (h p List.mem_cons_self)]
    intro q hq b
    rw [translate_congr (setPixel_cfg ..) (setPixel_offset ..)]
    exact h q (List.mem_cons_of_mem _ hq) b

@[simp] theorem paint_cfg (ps : List PixelWrite) (s : State) : (paint ps s).cfg = s.cfg := by
  rw [paint_eq]; rfl

@[simp] theorem paint_offset (ps : List PixelWrite) (s : State) : (paint ps s).offset = s.offset := by
  rw [paint_eq]; rfl

@[simp] theorem paint_fbOk (ps : List PixelWrite) (s : State) : (paint ps s).fbOk = s.fbOk := by
  rw [paint_eq]; rfl

/-- Pixel writes read the parameters, `OFFSET` and the framebuffer only. -/
theorem setPixel_fb_congr {s t : State} (hc : t.cfg = s.cfg) (ho : t.offset = s.offset)
    (hf : t.fb = s.fb) (x y : Int) (v : Bool) : (setPixel x y v t).fb = (setPixel x y v s).fb := by
  unfold setPixel
  rw [translate_congr hc ho, hf]
  cases s.translate x y with
  | none => exact hf
  | some ab =>
    simp only
    split
    · exact hf
    · rfl

theorem paint_fb_congr {s t : State} (hc : t.cfg = s.cfg) (ho : t.offset = s.offset)
    (hf : t.fb = s.fb) (ps : List PixelWrite) : (paint ps t).fb = (paint ps s).fb := by
  induction ps generalizing s t with
  | nil => exact hf
  | cons p ps ih =>
    exact ih (by simp [hc]) (by simp [ho]) (setPixel_fb_congr hc ho hf ..)

/-- Two sound framebuffers of one block whose pixels and hidden bytes agree are equal. -/
theorem fb_ext {s t u : State} (hs : s.FbSound) (ht : t = s.withFb t.fb) (hu : u = s.withFb u.fb)
    (hts : Memory.wf s.cfg.fbSize t.fb) (hus : Memory.wf s.cfg.fbSize u.fb)
    (hp : ∀ x y, s.InWindow x y → t.pixelAt x y = u.pixelAt x y)
    (hh : ∀ a, (∀ x y b, s.translate x y ≠ some (a, b)) → Memory.read t.fb a = Memory.read u.fb a) :
    t = u := by
  have hfb : t.fb = u.fb := by
    refine Memory.wf_ext hts hus fun a ha => ?_
    by_cases hx : ∃ x y b, s.translate x y = some (a, b)
    · obtain ⟨x, y, b, hxy⟩ := hx
      obtain ⟨v, hv⟩ := Memory.read_of_lt hts ha
      obtain ⟨w, hw⟩ := Memory.read_of_lt hus ha
      rw [hv, hw]
      congr 1
      apply BitVec.eq_of_getLsbD_eq
      intro k hk
      obtain ⟨⟨hx0, hx1, hy0, hy1⟩, ea, eb⟩ := translate_eq_some.1 hxy
      have g1 := hs.1.1.1
      have hwin : s.InWindow x ((y.toNat / 8 * 8 + k : Nat) : Int) := ⟨hx0, hx1, by omega, by omega⟩
      have htr : s.translate x ((y.toNat / 8 * 8 + k : Nat) : Int) = some (a, k) := by
        rw [translate_eq_some]
        refine ⟨hwin, ?_, by omega⟩
        have : (((y.toNat / 8 * 8 + k : Nat) : Int)).toNat / 8 = y.toNat / 8 := by omega
        rw [this, ea]
      have hpx := hp _ _ hwin
      unfold State.pixelAt at hpx
      have e1 : t.translate x ((y.toNat / 8 * 8 + k : Nat) : Int) = some (a, k) := by
        rw [← htr]; exact translate_congr (by rw [ht]; rfl) (by rw [ht]; rfl) _ _
      have e2 : u.translate x ((y.toNat / 8 * 8 + k : Nat) : Int) = some (a, k) := by
        rw [← htr]; exact translate_congr (by rw [hu]; rfl) (by rw [hu]; rfl) _ _
      rw [e1, e2] at hpx
      simpa [hv, hw] using hpx
    · exact hh a fun x y b hxy => hx ⟨x, y, b, hxy⟩
  rw [ht, hu, hfb]

/-! ## The guards -/

theorem guardFb_absent {s : State} (h : s.fbOk = false) (act : State → State) :
    guardFb s act = .next s := if_pos h

theorem guardFb_ready {s : State} (h : s.fbOk = true) (hs : s.FbSound) (act : State → State) :
    guardFb s act = .next (act s) := by
  simp only [guardFb, h, if_pos hs]
  rfl

theorem guardFb_unsound {s : State} (h : s.fbOk = true) (hs : ¬ s.FbSound) (act : State → State) :
    guardFb s act = .fault .outsideFramebuffer := by
  simp only [guardFb, h, if_neg hs]
  rfl

/-- What a guarded drawing command can answer. -/
theorem guardFb_next {s t : State} {act : State → State} (h : guardFb s act = .next t) :
    (s.fbOk = false ∧ t = s) ∨ (s.fbOk = true ∧ s.FbSound ∧ t = act s) := by
  unfold guardFb at h
  split at h
  · next h0 => exact .inl ⟨h0, by simpa using h.symm⟩
  · next h0 =>
    split at h
    · next h1 => exact .inr ⟨by simpa using h0, h1, by simpa using h.symm⟩
    · simp at h

/-! ## Ranges -/

theorem mem_rangeWithin {lo hi : Int} {bound : Nat} {k : Int} :
    k ∈ rangeWithin lo hi bound ↔ lo ≤ k ∧ k ≤ hi ∧ 0 ≤ k ∧ k < bound := by
  simp only [rangeWithin, List.mem_map, List.mem_range]

  constructor
  · rintro ⟨n, hn, rfl⟩
    omega
  · rintro ⟨h1, h2, h3, h4⟩
    exact ⟨(k - max lo 0).toNat, by omega, by omega⟩

end Sys2Proof.Machine
end

