-- ==== Sys2Proof/Laws/Bus.lean ====
section
/-! SUPPORT. What the bus operations append to `OUT`, said once: a transaction, a command sequence, a flush. -/

namespace Sys2Proof.Machine

/-- The state with events `es` appended to `OUT`. -/
def State.appendOut (s : State) (es : List Event) : State := { s with out := s.out ++ es }

@[simp] theorem appendOut_nil (s : State) : s.appendOut [] = s := by
  simp [State.appendOut]

@[simp] theorem appendOut_append (s : State) (es fs : List Event) :
    (s.appendOut es).appendOut fs = s.appendOut (es ++ fs) := by
  simp [State.appendOut]

theorem txn_eq (dc : DataCommand) (bytes : List Byte) (s : State) :
    txn dc bytes s = s.appendOut [.txn dc s.spiHz bytes] := rfl

/-- A command sequence is one `CMD` transaction a command (R186), all at the same clock. -/
theorem sendCommands_eq (cmds : List (List Byte)) (s : State) :
    sendCommands cmds s = s.appendOut (cmds.map fun bytes => .txn .cmd s.spiHz bytes) := by
  induction cmds generalizing s with
  | nil => simp [sendCommands]
  | cons c cs ih =>
    have : sendCommands (c :: cs) s = sendCommands cs (txn .cmd c s) := rfl
    rw [this, ih, txn_eq]
    simp [State.appendOut]

/-- The events of a flush (R173). -/
def State.flushEvents (s : State) : List Event :=
  (List.range s.cfg.pages).flatMap fun p =>
    [.txn .cmd s.spiHz (s.pageAddress p), .txn .data s.spiHz (s.pageBurst p)]

theorem flushPages_eq (s : State) : flushPages s = s.appendOut s.flushEvents := by
  unfold flushPages State.flushEvents
  generalize List.range s.cfg.pages = ps
  suffices h : ∀ es, List.foldl
      (fun (t : State) p => txn .data (t.pageBurst p) (txn .cmd (t.pageAddress p) t))
      (s.appendOut es) ps =
      s.appendOut (es ++ ps.flatMap fun p =>
        [.txn .cmd s.spiHz (s.pageAddress p), .txn .data s.spiHz (s.pageBurst p)]) by
    simpa using h []
  induction ps with
  | nil => simp
  | cons p ps ih =>
    intro es
    rw [List.foldl_cons, List.flatMap_cons, ← List.append_assoc, ← ih]
    congr 1
    simp [txn_eq, State.appendOut, State.pageAddress, State.pageBurst, State.fbIndex]

theorem pageBurst_length {s : State} (hs : s.FbSound) {p : Nat} (hp : p < s.cfg.pages) :
    (s.pageBurst p).length = s.cfg.w ∧
      ∀ k, k < s.cfg.w →
        (s.pageBurst p)[k]? = Memory.read s.fb (s.fbIndex p (s.offset + k)) := by
  obtain ⟨⟨⟨-, -, -, -, g5, -⟩, -⟩, hwf, ho⟩ := hs
  unfold Config.offsetMax at ho
  have hread : ∀ k, k < s.cfg.w → ∃ v, Memory.read s.fb (s.fbIndex p (s.offset + k)) = some v := by
    intro k hk
    refine Memory.read_of_lt hwf ?_
    unfold State.fbIndex Config.fbSize
    calc p * s.cfg.iw + (s.offset + k) < p * s.cfg.iw + s.cfg.iw := by omega
      _ = (p + 1) * s.cfg.iw := by ring
      _ ≤ s.cfg.pages * s.cfg.iw := Nat.mul_le_mul_right _ hp
      _ = s.cfg.iw * s.cfg.pages := Nat.mul_comm _ _
  unfold State.pageBurst
  generalize s.cfg.w = n at hread
  induction n with
  | zero => simp
  | succ n ih =>
    obtain ⟨ih1, ih2⟩ := ih fun k hk => hread k (by omega)
    obtain ⟨v, hv⟩ := hread n (by omega)
    rw [List.range_succ, List.filterMap_append]
    simp only [List.filterMap_cons, hv, List.filterMap_nil, List.length_append, ih1,
      List.length_singleton, true_and]
    intro k hk
    by_cases e : k = n
    · subst e
      rw [List.getElem?_append_right (by omega), ih1, Nat.sub_self, hv]
      rfl
    · rw [List.getElem?_append_left (by omega), ih2 k (by omega)]

/-! ## The command bytes of R172 -/

theorem segRemapCmd_eq (s : State) : segRemapCmd s = if s.segRemap then 0xA1#8 else 0xA0#8 := by
  unfold segRemapCmd
  cases s.segRemap <;> rfl

theorem ratioCmd_eq (r : Byte) : ratioCmd r = BitVec.ofNat 8 (0x20 + r.toNat % 8) := by
  have h : ∀ n : Fin 256, ratioCmd (BitVec.ofNat 8 n) = BitVec.ofNat 8 (0x20 + n % 8) := by
    decide +kernel
  simpa using h ⟨r.toNat, r.isLt⟩

theorem volumeCmd_eq (v : Byte) : volumeCmd v = [0x81#8, BitVec.ofNat 8 (v.toNat % 64)] := by
  have h : ∀ n : Fin 256, volumeCmd (BitVec.ofNat 8 n) = [0x81#8, BitVec.ofNat 8 (n % 64)] := by
    decide +kernel
  simpa using h ⟨v.toNat, v.isLt⟩

theorem startLineCmd_eq (l : Byte) : startLineCmd l = BitVec.ofNat 8 (0x40 + l.toNat % 64) := by
  have h : ∀ n : Fin 256, startLineCmd (BitVec.ofNat 8 n) = BitVec.ofNat 8 (0x40 + n % 64) := by
    decide +kernel
  simpa using h ⟨l.toNat, l.isLt⟩

/-! ## Flush and gate -/

/-- Page `p` of a flush is its events `2p` and `2p + 1` (R173). -/
theorem flushEvents_getElem? (s : State) {p : Nat} (hp : p < s.cfg.pages) :
    s.flushEvents[2 * p]? = some (.txn .cmd s.spiHz (s.pageAddress p)) ∧
      s.flushEvents[2 * p + 1]? = some (.txn .data s.spiHz (s.pageBurst p)) := by
  unfold State.flushEvents
  generalize s.cfg.pages = n at hp
  generalize hf : (fun p => [Event.txn .cmd s.spiHz (s.pageAddress p),
    Event.txn .data s.spiHz (s.pageBurst p)]) = f
  have hl : ∀ k, (f k).length = 2 := by intro k; rw [← hf]; rfl
  have hlen : ∀ n, ((List.range n).flatMap f).length = 2 * n := by
    intro n
    simp [List.length_flatMap, hl]
    omega
  induction n with
  | zero => omega
  | succ n ih =>
    rw [List.range_succ, List.flatMap_append]
    by_cases e : p = n
    · subst e
      rw [List.getElem?_append_right (by rw [hlen]),
        List.getElem?_append_right (by rw [hlen]; omega), hlen, ← hf]
      simp
    · rw [List.getElem?_append_left (by rw [hlen]; omega),
        List.getElem?_append_left (by rw [hlen]; omega)]
      exact ih (by omega)

@[simp] theorem flushEvents_length (s : State) : s.flushEvents.length = 2 * s.cfg.pages := by
  simp [State.flushEvents, List.length_flatMap]
  omega

/-- What a flush can answer (R171, R173). -/
theorem flush_next {s t : State} (h : flush s = .next t) :
    (s.pstate = .uninit ∧ t = s) ∨
      (s.pstate ≠ .uninit ∧ s.fbOk = true ∧ s.FbSound ∧ t = s.appendOut s.flushEvents) := by
  unfold flush at h
  split at h
  · next h0 => exact .inl ⟨h0, by simpa using h.symm⟩
  · next h0 =>
    split at h
    · next h1 => exact .inr ⟨h0, h1.1, h1.2, by rw [← flushPages_eq]; simpa using h.symm⟩
    · simp at h

theorem flush_uninit {s : State} (h : s.pstate = .uninit) : flush s = .next s := if_pos h

theorem flush_ready {s : State} (h : s.pstate ≠ .uninit) (hf : s.fbOk = true) (hs : s.FbSound) :
    flush s = .next (s.appendOut s.flushEvents) := by
  rw [flush, if_neg h, if_pos ⟨hf, hs⟩, flushPages_eq]

theorem gated_eq (s : State) (act : State → State) :
    gated s act = if s.pstate = .uninit then s else act s := rfl

end Sys2Proof.Machine
end

