-- ==== Sys2Proof/Laws/Decode.lean ====
section
/-! SUPPORT. Laws of the encoding tables and of the fields: what a header, an argument word and packed payload words give
back, and what `decodeCommand` answers on words of a known opcode. -/

namespace Sys2Proof

/-! ## The opcode map -/

@[simp] theorem Op.ofCode_code (op : Op) : Op.ofCode op.code = some op := by
  cases op <;> decide

theorem Op.ofCode_eq_some {c : BitVec 8} {op : Op} : Op.ofCode c = some op ↔ c = op.code := by
  constructor
  · intro h
    have := List.find?_some h
    exact (by simpa using this : op.code = c).symm
  · rintro rfl
    exact Op.ofCode_code op

theorem Op.code_inj {a b : Op} (h : a.code = b.code) : a = b := by
  have := congrArg Op.ofCode h
  simpa using this

/-- The opcode of a word is its top byte (R80). -/
theorem opcodeOf_eq_iff {h : Word} {c : BitVec 8} :
    opcodeOf h = c ↔ ∀ k, k < 8 → h.getLsbD (24 + k) = c.getLsbD k := by
  constructor
  · rintro rfl k hk
    simp [opcodeOf, hk]
  · intro hk
    apply BitVec.eq_of_getLsbD_eq
    intro k h8
    simp [opcodeOf, h8, hk k h8]

/-- `match` has its ones in the opcode byte only (R84). -/
theorem Op.matchWord_getLsbD (op : Op) (k : Nat) :
    op.matchWord.getLsbD k = (decide (24 ≤ k) && op.code.getLsbD (k - 24)) := by
  unfold Op.matchWord
  by_cases h : k < 32
  · by_cases h2 : 24 ≤ k
    · have : ¬ k < 24 := by omega
      simp [h, h2, this]
    · have : k < 24 := by omega
      simp [h, h2, this]
  · have h32 : 32 ≤ k := by omega
    have h8 : 8 ≤ k - 24 := by omega
    rw [BitVec.getLsbD_of_ge _ _ h32, BitVec.getLsbD_of_ge _ _ h8]
    simp

/-- The fields of every format lie below the opcode byte (R81). -/
theorem Format.fields_below (f : Format) : f.fields &&& 0xFF000000#32 = 0 := by
  cases f <;> decide

/-- A header is selected by a row exactly when its opcode is the row's and its reserved bits are 0 (R84, R87). -/
theorem mask_eq_match_iff {h : Word} {op : Op} :
    h &&& op.format.mask = op.matchWord ↔
      Op.ofCode (opcodeOf h) = some op ∧ reservedSet op h = false := by
  constructor
  · intro he
    refine ⟨?_, by simp [reservedSet, he]⟩
    rw [Op.ofCode_eq_some, opcodeOf_eq_iff]
    intro k hk
    have h1 := congrArg (fun w : Word => w.getLsbD (24 + k)) he
    have h2 : op.format.mask.getLsbD (24 + k) = true := by
      have h3 := congrArg (fun w : Word => w.getLsbD (24 + k)) (Format.fields_below op.format)
      have h4 : (0xFF000000#32).getLsbD (24 + k) = true := by
        have : ∀ j : Fin 8, (0xFF000000#32).getLsbD (24 + j) = true := by decide
        exact this ⟨k, hk⟩
      have h5 : 24 + k < 32 := by omega
      simp only [BitVec.getLsbD_and, h4, Bool.and_true] at h3
      have h0 : (0 : Word).getLsbD (24 + k) = false := BitVec.getLsbD_zero
      rw [h0] at h3
      rw [Format.mask, BitVec.getLsbD_not, h3]
      simp [h5]
    simp only [BitVec.getLsbD_and, h2, Bool.and_true, Op.matchWord_getLsbD] at h1
    rw [h1]
    simp
  · rintro ⟨-, hr⟩
    simpa [reservedSet] using hr

/-! ## Headers -/

theorem getLsbD_ffff (k : Nat) : (0x0000FFFF#32).getLsbD k = decide (k < 16) := by
  by_cases h : k < 32
  · have : ∀ j : Fin 32, (0x0000FFFF#32).getLsbD j = decide (j.val < 16) := by decide
    exact this ⟨k, h⟩
  · rw [BitVec.getLsbD_of_ge _ _ (by omega)]
    simp
    omega

theorem getLsbD_ff (k : Nat) : (0x000000FF#32).getLsbD k = decide (k < 8) := by
  by_cases h : k < 32
  · have : ∀ j : Fin 32, (0x000000FF#32).getLsbD j = decide (j.val < 8) := by decide
    exact this ⟨k, h⟩
  · rw [BitVec.getLsbD_of_ge _ _ (by omega)]
    simp
    omega

theorem field16_below (v : BitVec 16) : v.setWidth 32 &&& ~~~0x0000FFFF#32 = 0 := by
  apply BitVec.eq_of_getLsbD_eq
  intro k hk
  rw [BitVec.getLsbD_and, BitVec.getLsbD_not, getLsbD_ffff, BitVec.getLsbD_setWidth]
  by_cases h : k < 16
  · simp [h]
  · simp [h, BitVec.getLsbD_of_ge v k (by omega)]

theorem field8_below (v : BitVec 8) : v.setWidth 32 &&& ~~~0x000000FF#32 = 0 := by
  apply BitVec.eq_of_getLsbD_eq
  intro k hk
  rw [BitVec.getLsbD_and, BitVec.getLsbD_not, getLsbD_ff, BitVec.getLsbD_setWidth]
  by_cases h : k < 8
  · simp [h]
  · simp [h, BitVec.getLsbD_of_ge v k (by omega)]

theorem fieldRV_below (r v : BitVec 8) :
    (r.setWidth 32 ||| v.setWidth 32 <<< 8) &&& ~~~0x0000FFFF#32 = 0 := by
  apply BitVec.eq_of_getLsbD_eq
  intro k hk
  rw [BitVec.getLsbD_and, BitVec.getLsbD_not, getLsbD_ffff]
  by_cases h : k < 16
  · simp [h]
  · simp [BitVec.getLsbD_of_ge r k (by omega), BitVec.getLsbD_of_ge v (k - 8) (by omega)]

theorem bitField_below (v : Bool) : bitField v &&& ~~~0x00000001#32 = 0 := by
  cases v <;> decide

theorem fieldF3_below (a b c : Bool) :
    (bitField a ||| bitField b <<< 1 ||| bitField c <<< 2) &&& ~~~0x00000007#32 = 0 := by
  cases a <;> cases b <;> cases c <;> decide

/-- The operand fields of a command lie in the bits its format names (R81). -/
theorem Instr.headerFields_below (i : Instr) : i.headerFields &&& i.op.format.mask = 0 := by
  cases i <;> first
    | rfl
    | exact bitField_below _
    | exact field16_below _
    | exact field8_below _
    | exact fieldRV_below _ _
    | exact fieldF3_below _ _ _
    | exact BitVec.zero_and

theorem Instr.header_mask (i : Instr) : i.header &&& i.op.format.mask = i.op.matchWord := by
  have hm : i.op.matchWord &&& i.op.format.mask = i.op.matchWord := by
    generalize i.op = op
    cases op <;> decide
  apply BitVec.eq_of_getLsbD_eq
  intro k hk
  have h1 := congrArg (fun w : Word => w.getLsbD k) hm
  have h2 := congrArg (fun w : Word => w.getLsbD k) i.headerFields_below
  simp only [BitVec.getLsbD_and] at h1 h2
  have h0 : (0 : Word).getLsbD k = false := BitVec.getLsbD_zero
  rw [h0] at h2
  rw [BitVec.getLsbD_and, Instr.header, BitVec.getLsbD_or, Bool.and_or_distrib_right, h1, h2,
    Bool.or_false]

/-- The header of a command carries its opcode and no reserved bit (R84, R85). -/
theorem Instr.ofCode_header (i : Instr) : Op.ofCode (opcodeOf i.header) = some i.op :=
  (mask_eq_match_iff.1 i.header_mask).1

theorem Instr.reservedSet_header (i : Instr) : reservedSet i.op i.header = false :=
  (mask_eq_match_iff.1 i.header_mask).2

theorem Instr.header_getLsbD (i : Instr) {k : Nat} (hk : k < 24) :
    i.header.getLsbD k = i.headerFields.getLsbD k := by
  have : ¬ 24 ≤ k := by omega
  rw [Instr.header, BitVec.getLsbD_or, Op.matchWord_getLsbD]
  simp [this]

/-- A selected header is its opcode and its fields. -/
theorem header_of_mask {h f : Word} {op : Op} (hm : h &&& op.format.mask = op.matchWord)
    (hf : h &&& op.format.fields = f) : h = op.matchWord ||| f := by
  apply BitVec.eq_of_getLsbD_eq
  intro k hk
  rw [← hm, ← hf, Format.mask]
  simp only [BitVec.getLsbD_or, BitVec.getLsbD_and, BitVec.getLsbD_not, hk, decide_true,
    Bool.true_and]
  cases h.getLsbD k <;> cases op.format.fields.getLsbD k <;> rfl

/-! ## Argument words -/

theorem toInt_field16 {v : Int} (h : Fits16 v) : (field16 v).toInt = v := by
  rw [field16, BitVec.toInt_ofInt]
  exact Int.bmod_eq_of_le (by have := h.1; omega) (by have := h.2; omega)

@[simp] theorem field16_toInt (v : BitVec 16) : field16 v.toInt = v := BitVec.ofInt_toInt

theorem pairWord_getLsbD (lo hi : Int) (k : Nat) :
    (pairWord lo hi).getLsbD k =
      if k < 16 then (field16 lo).getLsbD k else (field16 hi).getLsbD (k - 16) := by
  exact BitVec.getLsbD_append

theorem loSigned_pairWord {lo hi : Int} (h : Fits16 lo) : loSigned (pairWord lo hi) = lo := by
  have : (pairWord lo hi).extractLsb' 0 16 = field16 lo := by
    apply BitVec.eq_of_getLsbD_eq
    intro k hk
    rw [BitVec.getLsbD_extractLsb', pairWord_getLsbD]
    simp [hk]
  rw [loSigned, this, toInt_field16 h]

theorem hiSigned_pairWord {lo hi : Int} (h : Fits16 hi) : hiSigned (pairWord lo hi) = hi := by
  have : (pairWord lo hi).extractLsb' 16 16 = field16 hi := by
    apply BitVec.eq_of_getLsbD_eq
    intro k hk
    rw [BitVec.getLsbD_extractLsb', pairWord_getLsbD]
    simp [hk]
  rw [hiSigned, this, toInt_field16 h]

theorem fits16_toInt (v : BitVec 16) : Fits16 v.toInt := by
  have h1 := BitVec.le_toInt v
  have h2 := BitVec.toInt_lt (x := v)
  constructor <;> simp at h1 h2 <;> omega

theorem fits16_loSigned (a : Word) : Fits16 (loSigned a) := fits16_toInt _
theorem fits16_hiSigned (a : Word) : Fits16 (hiSigned a) := fits16_toInt _

theorem pairWord_signed (a : Word) : pairWord (loSigned a) (hiSigned a) = a := by
  apply BitVec.eq_of_getLsbD_eq
  intro k hk
  rw [pairWord_getLsbD, loSigned, hiSigned, field16_toInt, field16_toInt]
  by_cases h : k < 16
  · simp [h]
  · have h1 : k - 16 < 16 := by omega
    have h2 : 16 + (k - 16) = k := by omega
    simp [h, h1, h2]

theorem imm16_lt (h : Word) : imm16 h < 65536 := (h.extractLsb' 0 16).isLt

/-! ## Payload -/

theorem packBytes_length (bytes : List Byte) : (packBytes bytes).length = payloadWords bytes.length := by
  induction bytes using packBytes.induct <;> simp_all [packBytes, payloadWords] <;> omega

theorem packWord_getLsbD (a b c d : Byte) (k : Nat) :
    (packWord a b c d).getLsbD k =
      if k < 8 then a.getLsbD k
      else if k - 8 < 8 then b.getLsbD (k - 8)
      else if k - 8 - 8 < 8 then c.getLsbD (k - 8 - 8) else d.getLsbD (k - 8 - 8 - 8) := by
  have h1 : (packWord a b c d).getLsbD k =
      if k < 8 then a.getLsbD k else (d ++ c ++ b).getLsbD (k - 8) := by
    exact BitVec.getLsbD_append
  have h2 : ∀ j, (d ++ c ++ b).getLsbD j =
      if j < 8 then b.getLsbD j else (d ++ c).getLsbD (j - 8) := fun j => by
    exact BitVec.getLsbD_append
  have h3 : ∀ j, (d ++ c).getLsbD j =
      if j < 8 then c.getLsbD j else d.getLsbD (j - 8) := fun j => by
    exact BitVec.getLsbD_append
  rw [h1, h2, h3]

theorem wordBytes_packWord (a b c d : Byte) : wordBytes (packWord a b c d) = [a, b, c, d] := by
  have h0 : (packWord a b c d).extractLsb' 0 8 = a := by
    apply BitVec.eq_of_getLsbD_eq
    intro k hk
    rw [BitVec.getLsbD_extractLsb', packWord_getLsbD]
    simp [hk]
  have h1 : (packWord a b c d).extractLsb' 8 8 = b := by
    apply BitVec.eq_of_getLsbD_eq
    intro k hk
    rw [BitVec.getLsbD_extractLsb', packWord_getLsbD]
    simp [hk]
  have h2 : (packWord a b c d).extractLsb' 16 8 = c := by
    apply BitVec.eq_of_getLsbD_eq
    intro k hk
    have e1 : ¬ 16 + k < 8 := by omega
    have e2 : ¬ 16 + k - 8 < 8 := by omega
    have e3 : 16 + k - 8 - 8 = k := by omega
    rw [BitVec.getLsbD_extractLsb', packWord_getLsbD]
    simp [hk, e1, e2, e3]
  have h3 : (packWord a b c d).extractLsb' 24 8 = d := by
    apply BitVec.eq_of_getLsbD_eq
    intro k hk
    have e1 : ¬ 24 + k < 8 := by omega
    have e2 : ¬ 24 + k - 8 < 8 := by omega
    have e3 : ¬ 24 + k - 8 - 8 < 8 := by omega
    have e4 : 24 + k - 8 - 8 - 8 = k := by omega
    rw [BitVec.getLsbD_extractLsb', packWord_getLsbD]
    simp [hk, e1, e2, e3, e4]
  rw [wordBytes, h0, h1, h2, h3]

/-- Unpacking packed bytes gives them back (R65). -/
theorem payloadBytes_packBytes (bytes : List Byte) :
    payloadBytes bytes.length (packBytes bytes) = bytes := by
  induction bytes using packBytes.induct <;>
    simp_all [packBytes, payloadBytes, wordBytes_packWord]

theorem payloadBytes_length {n : Nat} {ws : List Word} (h : payloadWords n ≤ ws.length) :
    (payloadBytes n ws).length = n := by
  have : ∀ ws : List Word, (ws.flatMap wordBytes).length = 4 * ws.length := by
    intro ws
    induction ws with
    | nil => rfl
    | cons w ws ih => simp [List.flatMap_cons, wordBytes, ih] ; omega
  rw [payloadBytes, List.length_take, this]
  unfold payloadWords at h
  omega

/-- Payload byte `k` is byte `k mod 4` of payload word `k div 4` (R65). -/
theorem payloadBytes_getElem? {n : Nat} (ws : List Word) {k : Nat} (hk : k < n) :
    (payloadBytes n ws)[k]? =
      (ws[k / 4]?).map fun v => v.extractLsb' (8 * (k % 4)) 8 := by
  rw [payloadBytes, List.getElem?_take_of_lt hk]
  clear hk
  induction ws generalizing k with
  | nil => simp
  | cons w ws ih =>
    rw [List.flatMap_cons]
    by_cases h : k < 4
    · have h4 : k / 4 = 0 := by omega
      have hm : k % 4 = k := by omega
      rw [h4, hm, List.getElem?_append_left (by simpa [wordBytes] using h)]
      have : k = 0 ∨ k = 1 ∨ k = 2 ∨ k = 3 := by omega
      rcases this with rfl | rfl | rfl | rfl <;> rfl
    · have h4 : k / 4 = (k - 4) / 4 + 1 := by omega
      have hm : k % 4 = (k - 4) % 4 := by omega
      rw [h4, hm, List.getElem?_append_right (by simpa [wordBytes] using h)]
      simpa [wordBytes] using ih (k := k - 4)

/-! ## `decodeCommand` -/

theorem args_lt_commandLength (f : Format) (h a : Word) : f.args < commandLength f h a := by
  cases f <;> simp [Format.args, commandLength] <;> omega

/-- The inversion of the decoder, for a command. -/
theorem decodeCommand_command {ws : List Word} {i : Instr} {n : Nat}
    (h : decodeCommand ws = .command i n) :
    ∃ hd rest op, ws = hd :: rest ∧ Op.ofCode (opcodeOf hd) = some op ∧
      hd &&& op.format.mask = op.matchWord ∧ op.format.args ≤ rest.length ∧
      n = commandLength op.format hd (rest.getD 1 0) ∧ n ≤ ws.length ∧
      i = assembleOperands op hd (rest.take (n - 1)) := by
  unfold decodeCommand at h
  split at h
  · simp at h
  · next hd rest =>
    split at h
    · simp at h
    · next op hop =>
      simp only at h
      split at h
      · simp at h
      · next h1 =>
        split at h
        · simp at h
        · next h2 =>
          split at h
          · simp at h
          · next h3 =>
            simp only [Fetched.command.injEq] at h
            obtain ⟨rfl, rfl⟩ := h
            refine ⟨hd, rest, op, rfl, hop, mask_eq_match_iff.2 ⟨hop, by simpa using h3⟩, by omega,
              rfl, by omega, rfl⟩

/-- The inversion of the decoder, for `PRINT`. -/
theorem decodeCommand_print {ws : List Word} {text : List Byte} {n : Nat}
    (h : decodeCommand ws = .command (.print text) n) :
    ∃ hd rest, ws = hd :: rest ∧ n = 1 + payloadWords (imm16 hd) ∧ n ≤ ws.length ∧
      text = payloadBytes (imm16 hd) (rest.take (n - 1)) := by
  obtain ⟨hd, rest, op, hws, -, -, -, hn, hle, hi⟩ := decodeCommand_command h
  cases op <;> simp only [assembleOperands, reduceCtorEq, Instr.print.injEq] at hi
  exact ⟨hd, rest, hws, hn, hle, hi⟩

/-- The inversion of the decoder, for `DRAW_XBM`. -/
theorem decodeCommand_drawXbm {ws : List Word} {x y w h : Int} {bytes : List Byte} {n : Nat}
    (hd : decodeCommand ws = .command (.drawXbm x y w h bytes) n) :
    ∃ hdr a1 a2 rest, ws = hdr :: a1 :: a2 :: rest ∧ n = 3 + payloadWords (xbmBytes w h) ∧
      n ≤ ws.length ∧ (x, y, w, h) = (loSigned a1, hiSigned a1, loSigned a2, hiSigned a2) ∧
      bytes = payloadBytes (xbmBytes w h) (rest.take (n - 3)) := by
  obtain ⟨hdr, rest, op, hws, -, -, ha, hn, hle, hi⟩ := decodeCommand_command hd
  cases op <;> simp only [assembleOperands, reduceCtorEq, Instr.drawXbm.injEq] at hi
  match rest, ha with
  | a1 :: a2 :: rest, _ =>
    have e : n - 1 = n - 3 + 2 := by
      have : n = 3 + payloadWords (xbmBytes (loSigned a2) (hiSigned a2)) := hn
      omega
    rw [e] at hi
    obtain ⟨rfl, rfl, rfl, rfl, hb⟩ := hi
    exact ⟨hdr, a1, a2, rest, hws, hn, hle, rfl, hb⟩

/-- The decoder on the words of a command that are all there. -/
theorem decodeCommand_of {hd : Word} {rest : List Word} {op : Op}
    (hm : hd &&& op.format.mask = op.matchWord) (ha : op.format.args ≤ rest.length)
    (hl : commandLength op.format hd (rest.getD 1 0) ≤ rest.length + 1) :
    decodeCommand (hd :: rest) =
      .command (assembleOperands op hd
          (rest.take (commandLength op.format hd (rest.getD 1 0) - 1)))
        (commandLength op.format hd (rest.getD 1 0)) := by
  obtain ⟨h1, h2⟩ := mask_eq_match_iff.1 hm
  have e1 : ¬ rest.length < op.format.args := by omega
  have e2 : ¬ (hd :: rest).length < commandLength op.format hd (rest.getD 1 0) := by
    simpa using hl
  simp only [decodeCommand, h1, e1, e2, h2, if_false]
  rfl

/-! ## What the operand fields of an encoded header read as -/

theorem imm16_header {i : Instr} {v : BitVec 16} (h : i.headerFields = v.setWidth 32) :
    imm16 i.header = v.toNat := by
  unfold imm16
  congr 1
  apply BitVec.eq_of_getLsbD_eq
  intro k hk
  have h32 : k < 32 := by omega
  rw [BitVec.getLsbD_extractLsb', Nat.zero_add, i.header_getLsbD (by omega), h]
  simp [hk, h32]

theorem loSigned_header {i : Instr} {v : Int} (hv : Fits16 v)
    (h : i.headerFields = (field16 v).setWidth 32) : loSigned i.header = v := by
  have : i.header.extractLsb' 0 16 = field16 v := by
    apply BitVec.eq_of_getLsbD_eq
    intro k hk
    have h32 : k < 32 := by omega
    rw [BitVec.getLsbD_extractLsb', Nat.zero_add, i.header_getLsbD (by omega), h]
    simp [hk, h32]
  rw [loSigned, this, toInt_field16 hv]

theorem byte_header {i : Instr} {v : Byte} (h : i.headerFields = v.setWidth 32) :
    i.header.extractLsb' 0 8 = v := by
  apply BitVec.eq_of_getLsbD_eq
  intro k hk
  have h32 : k < 32 := by omega
  rw [BitVec.getLsbD_extractLsb', Nat.zero_add, i.header_getLsbD (by omega), h]
  simp [hk, h32]

theorem bit_header {i : Instr} {v : Bool} (h : i.headerFields = bitField v) :
    i.header.getLsbD 0 = v := by
  rw [i.header_getLsbD (by omega), h]
  cases v <;> rfl

/-- The decoder on an encoded command whose operand words read back, whatever follows them. -/
theorem decodeCommand_encode {i : Instr} {rest : List Word}
    (ha : i.op.format.args ≤ (i.operandWords ++ rest).length)
    (hl : commandLength i.op.format i.header ((i.operandWords ++ rest).getD 1 0) =
      1 + i.operandWords.length)
    (hi : assembleOperands i.op i.header i.operandWords = i) :
    decodeCommand (encode i ++ rest) = .command i (encode i).length := by
  have e : 1 + i.operandWords.length - 1 = i.operandWords.length := by omega
  rw [encode, List.cons_append, decodeCommand_of i.header_mask ha (by rw [hl]; simp; omega), hl, e,
    List.take_left' rfl, hi, List.length_cons, Nat.add_comm]

end Sys2Proof
end

