-- ==== Sys2Proof/Laws/Draw.lean ====
section
/-! SUPPORT. Which pixels the drawing commands write and with which value: the one spec lemma of a painted pixel list, and
the membership lemma of each command's list. -/

namespace Sys2Proof.Machine

/-- A pixel list that writes exactly the in-window pixels of `P`, each with the value `v` gives it, in full. -/
theorem paint_spec {s : State} (hs : s.FbSound) {ps : List PixelWrite} {P : Int → Int → Prop}
    {v : Int → Int → Bool}
    (hP : ∀ x y, s.InWindow x y → (P x y ↔ ∃ p ∈ ps, x = p.x ∧ y = p.y))
    (hv : ∀ p ∈ ps, s.InWindow p.x p.y → p.v = v p.x p.y) :
    paint ps s = { s with fb := (paint ps s).fb } ∧ Memory.wf s.cfg.fbSize (paint ps s).fb ∧
    (∀ x y, s.InWindow x y →
      (P x y → (paint ps s).pixelAt x y = some (v x y)) ∧
      (¬ P x y → (paint ps s).pixelAt x y = s.pixelAt x y)) ∧
    (∀ a, (∀ x y b, P x y → s.translate x y ≠ some (a, b)) →
      Memory.read (paint ps s).fb a = Memory.read s.fb a) := by
  refine ⟨paint_eq ps s, ?_, ?_, ?_⟩
  · have := (paint_sound hs ps).2.1
    rwa [paint_cfg] at this
  · intro x y hw
    rw [pixelAt_paint hs ps hw]
    constructor
    · intro h
      rw [lastWrite_eq_some ((hP x y hw).1 h) (v := v x y)]
      · rfl
      · rintro p hp rfl rfl
        exact hv p hp hw
    · intro h
      rw [lastWrite_eq_none.2]
      · rfl
      · intro p hp hxy
        exact h ((hP x y hw).2 ⟨p, hp, hxy⟩)
  · intro a ha
    refine read_paint_ne hs ps fun p hp b hb => ?_
    exact ha p.x p.y b ((hP _ _ (translate_eq_some.1 hb).1).2 ⟨p, hp, rfl, rfl⟩) hb

/-- Two pixel lists that write the same pixels with the same values paint the same state. -/
theorem paint_congr {s : State} (hs : s.FbSound) {ps qs : List PixelWrite}
    (h : ∀ x y, s.InWindow x y → lastWrite ps x y = lastWrite qs x y) :
    paint ps s = paint qs s := by
  have hp := (paint_sound hs ps).2.1
  have hq := (paint_sound hs qs).2.1
  rw [paint_cfg] at hp hq
  refine fb_ext hs (paint_eq ps s) (paint_eq qs s) hp hq ?_ ?_
  · intro x y hw
    rw [pixelAt_paint hs ps hw, pixelAt_paint hs qs hw, h x y hw]
  · intro a ha
    rw [read_paint_ne hs ps fun p _ b => ha p.x p.y b, read_paint_ne hs qs fun p _ b => ha p.x p.y b]

/-- Lists of one colour paint the same when they write the same in-window pixels. -/
theorem paint_congr_color {s : State} (hs : s.FbSound) {ps qs : List PixelWrite} {v : Bool}
    (hp : ∀ p ∈ ps, p.v = v) (hq : ∀ q ∈ qs, q.v = v)
    (h : ∀ x y, s.InWindow x y →
      ((∃ p ∈ ps, x = p.x ∧ y = p.y) ↔ ∃ q ∈ qs, x = q.x ∧ y = q.y)) :
    paint ps s = paint qs s := by
  refine paint_congr hs fun x y hw => ?_
  by_cases hx : ∃ p ∈ ps, x = p.x ∧ y = p.y
  · rw [lastWrite_eq_some hx fun p hp' _ _ => hp p hp',
      lastWrite_eq_some ((h x y hw).1 hx) fun q hq' _ _ => hq q hq']
  · rw [lastWrite_eq_none.2 fun p hp' e => hx ⟨p, hp', e⟩,
      lastWrite_eq_none.2 fun q hq' e => hx ((h x y hw).2 ⟨q, hq', e⟩)]

/-! ## Rectangles -/

theorem mem_rectPixels {s : State} {x y w h : Int} {p : PixelWrite} :
    p ∈ s.rectPixels x y w h ↔
      0 < w ∧ 0 < h ∧ p.v = s.color ∧ s.InWindow p.x p.y ∧
        x ≤ p.x ∧ p.x < x + w ∧ y ≤ p.y ∧ p.y < y + h := by
  obtain ⟨px, py, pv⟩ := p
  unfold State.rectPixels State.InWindow
  split
  · simp only [List.not_mem_nil, false_iff]
    omega
  · simp only [List.mem_flatMap, List.mem_map, mem_rangeWithin, PixelWrite.mk.injEq]
    constructor
    · rintro ⟨j, hj, i, hi, rfl, rfl, rfl⟩
      refine ⟨?_, ?_, rfl, ⟨?_, ?_, ?_, ?_⟩, ?_, ?_, ?_, ?_⟩ <;> omega
    · rintro ⟨hw, hh, rfl, ⟨h1, h2, h3, h4⟩, h5, h6, h7, h8⟩
      exact ⟨py, ⟨h7, by omega, h3, h4⟩, px, ⟨h5, by omega, h1, h2⟩, rfl, rfl, rfl⟩

/-- The in-window pixels of `DRAW_RECT` (R107). -/
theorem mem_borderPixels {s : State} {x y w h i j : Int} (hw : s.InWindow i j) :
    (∃ p ∈ s.borderPixels x y w h, i = p.x ∧ j = p.y) ↔
      (x ≤ i ∧ i < x + w ∧ y ≤ j ∧ j < y + h) ∧
        (i = x ∨ i = x + w - 1 ∨ j = y ∨ j = y + h - 1) := by
  obtain ⟨h1, h2, h3, h4⟩ := hw
  unfold State.borderPixels
  split
  · simp only [List.not_mem_nil, false_and, exists_false, false_iff]
    omega
  · simp only [List.mem_append, List.mem_flatMap, mem_rangeWithin, List.mem_cons,
      List.not_mem_nil, or_false]
    constructor
    · rintro ⟨p, (⟨k, hk, (rfl | rfl)⟩ | ⟨k, hk, (rfl | rfl)⟩), hi, hj⟩ <;>
        simp only at hi hj <;> omega
    · rintro ⟨⟨h5, h6, h7, h8⟩, (e | e | e | e)⟩
      · exact ⟨⟨x, j, s.color⟩, .inr ⟨j, by omega, .inl rfl⟩, e, rfl⟩
      · exact ⟨⟨x + w - 1, j, s.color⟩, .inr ⟨j, by omega, .inr rfl⟩, e, rfl⟩
      · exact ⟨⟨i, y, s.color⟩, .inl ⟨i, by omega, .inl rfl⟩, rfl, e⟩
      · exact ⟨⟨i, y + h - 1, s.color⟩, .inl ⟨i, by omega, .inr rfl⟩, rfl, e⟩

theorem borderPixels_color {s : State} {x y w h : Int} :
    ∀ p ∈ s.borderPixels x y w h, p.v = s.color := by
  unfold State.borderPixels
  split
  · simp
  · simp only [List.mem_append, List.mem_flatMap, List.mem_cons, List.not_mem_nil, or_false]
    rintro p (⟨k, -, (rfl | rfl)⟩ | ⟨k, -, (rfl | rfl)⟩) <;> rfl

/-! ## Glyph cells -/

/-- The pixel writes of a cell, in coordinates (R131). -/
theorem mem_glyphPixels {s : State} {x y : Int} {c : Byte} {p : PixelWrite} :
    p ∈ s.glyphPixels x y c ↔
      (∃ k i : Nat, k < 5 ∧ i < 8 ∧ p.x = x + k ∧
        p.y = (if s.lsbAtTop then y + i else y + 7 - i) ∧
        p.v = if (s.fontColumn (glyphIndex c) k).getLsbD i then s.color else !s.color) ∨
      (∃ i : Nat, i < 8 ∧ p.x = x + 5 ∧ p.y = y + i ∧ p.v = !s.color) := by
  obtain ⟨px, py, pv⟩ := p
  simp only [State.glyphPixels, List.mem_append, List.mem_flatMap, List.mem_map, List.mem_range,
    Config.glyphW, PixelWrite.mk.injEq]
  refine or_congr ⟨?_, ?_⟩ ⟨?_, ?_⟩
  · rintro ⟨k, hk, i, hi, rfl, rfl, rfl⟩; exact ⟨k, i, hk, hi, rfl, rfl, rfl⟩
  · rintro ⟨k, i, hk, hi, rfl, rfl, rfl⟩; exact ⟨k, hk, i, hi, rfl, rfl, rfl⟩
  · rintro ⟨i, hi, rfl, rfl, rfl⟩; exact ⟨i, hi, rfl, rfl, rfl⟩
  · rintro ⟨i, hi, rfl, rfl, rfl⟩; exact ⟨i, hi, rfl, rfl, rfl⟩

/-! ## Bitmaps -/

theorem xbmSource_eq_true {s : State} {w : Int} {bytes : List Byte} {c r : Nat} :
    s.xbmSource w bytes c r = true ↔
      ∃ v, bytes[r * xbmStride w + c / 8]? = some v ∧ v.getLsbD (s.xbmBit c) = true := by
  unfold State.xbmSource
  split
  · next v hv => simp [hv]
  · next hv => simp [hv]

theorem mem_xbmPixels {s : State} {x y w h : Int} {bytes : List Byte} {p : PixelWrite} :
    p ∈ s.xbmPixels x y w h bytes ↔
      ∃ c r : Nat, (c : Int) < w ∧ (r : Int) < h ∧ s.xbmSource w bytes c r = true ∧
        p.x = x + s.xbmDx w c ∧ p.y = y + s.xbmDy h r ∧ p.v = s.color := by
  obtain ⟨px, py, pv⟩ := p
  unfold State.xbmPixels
  split
  · simp only [List.not_mem_nil, false_iff]
    rintro ⟨c, r, hc, hr, -⟩
    omega
  · simp only [List.mem_flatMap, List.mem_filterMap, List.mem_range]
    constructor
    · rintro ⟨r, hr, c, hc, h⟩
      split at h
      · next hs =>
        simp only [Option.some.injEq, PixelWrite.mk.injEq] at h
        exact ⟨c, r, by omega, by omega, hs, h.1.symm, h.2.1.symm, h.2.2.symm⟩
      · simp at h
    · rintro ⟨c, r, hc, hr, hs, e1, e2, e3⟩
      refine ⟨r, by omega, c, by omega, ?_⟩
      rw [if_pos hs]
      exact congrArg some (by rw [PixelWrite.mk.injEq]; exact ⟨e1.symm, e2.symm, e3.symm⟩)

end Sys2Proof.Machine
end

