-- ==== Sys2Proof/Laws/Print.lean ====
section
/-! SUPPORT. The loop of `PRINT` (R134): what it changes, and what one round does. -/

namespace Sys2Proof.Machine

/-- A 32-bit register holds every cursor value a rule writes (R34). -/
theorem toInt_ofInt32 {v : Int} (h1 : -2147483648 ≤ v) (h2 : v < 2147483648) :
    (BitVec.ofInt 32 v).toInt = v := by
  rw [BitVec.toInt_ofInt]
  exact Int.bmod_eq_of_le (by omega) (by omega)

@[simp] theorem ofInt_toInt32 (v : BitVec 32) : BitVec.ofInt 32 v.toInt = v := BitVec.ofInt_toInt

/-- Writing back the cursor's own coordinates changes nothing. -/
@[simp] theorem setCursor_self (s : State) : s.setCursor s.cursorX.toInt s.cursorY.toInt = s := by
  simp [State.setCursor]

theorem drawGlyph_eq (x y : Int) (c : Byte) (s : State) :
    drawGlyph x y c s = s.withFb (drawGlyph x y c s).fb := paint_eq _ _

theorem drawGlyph_sound {s : State} (hs : s.FbSound) (x y : Int) (c : Byte) :
    (drawGlyph x y c s).FbSound := paint_sound hs _

/-- The wrap changes the cursor only. -/
theorem wrapCursor_eq (s : State) :
    wrapCursor s = { s with
      cursorX := (wrapCursor s).cursorX
      cursorY := (wrapCursor s).cursorY } := by
  unfold wrapCursor
  split <;> rfl

theorem wrapCursor_sound {s : State} (hs : s.FbSound) : (wrapCursor s).FbSound := by
  rw [wrapCursor_eq]; exact hs

theorem drawAtCursor_eq (c : Byte) (s : State) :
    drawAtCursor c s = { s with
      fb := (drawGlyph s.cursorX.toInt s.cursorY.toInt c s).fb
      cursorX := BitVec.ofInt 32 (s.cursorX.toInt + 6)
      cursorY := s.cursorY } := by
  unfold drawAtCursor
  rw [drawGlyph_eq]
  simp [State.advance, State.setCursor, State.withFb, Config.charAdvance]

theorem drawAtCursor_sound {s : State} (hs : s.FbSound) (c : Byte) : (drawAtCursor c s).FbSound := by
  have h := drawGlyph_sound hs s.cursorX.toInt s.cursorY.toInt c
  rw [drawGlyph_eq] at h
  rw [drawAtCursor_eq]
  exact h

/-- `PRINT` changes the framebuffer and the cursor only. -/
theorem printText_eq (text : List Byte) (s : State) :
    printText text s = { s with
      fb := (printText text s).fb
      cursorX := (printText text s).cursorX
      cursorY := (printText text s).cursorY } := by
  induction text generalizing s with
  | nil => rfl
  | cons c cs ih =>
    rw [printText]
    split
    · rw [wrapCursor_eq]
    · rw [ih, drawAtCursor_eq, wrapCursor_eq]

theorem printText_sound {s : State} (hs : s.FbSound) (text : List Byte) :
    (printText text s).FbSound := by
  induction text generalizing s with
  | nil => exact hs
  | cons c cs ih =>
    rw [printText]
    split
    · exact wrapCursor_sound hs
    · exact ih (drawAtCursor_sound (wrapCursor_sound hs) c)

/-- A byte no coordinate of the window translates to is not written by `PRINT` (R63). -/
theorem read_printText_hidden {s : State} (hs : s.FbSound) (text : List Byte) {a : Nat}
    (h : ∀ x y b, s.translate x y ≠ some (a, b)) :
    Memory.read (printText text s).fb a = Memory.read s.fb a := by
  induction text generalizing s with
  | nil => rfl
  | cons c cs ih =>
    rw [printText]
    split
    · rw [wrapCursor_eq]
    · have hw := wrapCursor_sound hs
      have hcfg : (wrapCursor s).cfg = s.cfg := by rw [wrapCursor_eq]
      have hoff : (wrapCursor s).offset = s.offset := by rw [wrapCursor_eq]
      have hfb : (wrapCursor s).fb = s.fb := by rw [wrapCursor_eq]
      rw [ih (drawAtCursor_sound hw c)]
      · rw [drawAtCursor_eq]
        show Memory.read (paint _ _).fb a = _
        rw [read_paint_ne hw, hfb]
        intro p _ b
        rw [translate_congr hcfg hoff]
        exact h _ _ b
      · intro x y b
        rw [translate_congr (s := s) (by rw [drawAtCursor_eq]; exact hcfg)
          (by rw [drawAtCursor_eq]; exact hoff)]
        exact h x y b

/-- After a wrap the next character fits the line (R7, R134). -/
theorem wrapCursor_fits {s : State} (hc : s.cfg.Valid) :
    (wrapCursor s).cursorX.toInt + 6 ≤ s.cfg.w := by
  have h6 := hc.1.2.2.2.1
  unfold wrapCursor State.advance
  simp only [textScale_eq, Config.charAdvance, Nat.cast_ofNat, Nat.cast_one, mul_one]
  split
  · have : (State.setCursor s 0 (s.cursorY.toInt + (Config.lineAdvance : Int))).cursorX.toInt = 0 := by
      simp
    rw [this]
    omega
  · omega

theorem wrapCursor_of_fits {s : State} (h : s.cursorX.toInt + 6 ≤ s.cfg.w) : wrapCursor s = s := by
  unfold wrapCursor State.advance
  rw [if_neg]
  simp only [textScale_eq, Config.charAdvance]
  omega

/-- The wrap test with its numbers: a character cell is 6 wide, a line 8 high (R6, R134). -/
theorem wrapCursor_of_overflow {s : State} (h : s.cursorX.toInt + 6 > s.cfg.w) :
    wrapCursor s = { s with cursorX := 0, cursorY := BitVec.ofInt 32 (s.cursorY.toInt + 8) } := by
  unfold wrapCursor
  rw [if_pos]
  · rfl
  · show s.cursorX.toInt + (Config.charAdvance : Int) * (1 : Nat) > _
    simp only [Config.charAdvance]
    omega

/-- The bottom test with its numbers (R134). -/
theorem lineOverflows_iff {s : State} : s.LineOverflows ↔ s.cursorY.toInt + 8 > s.cfg.h := Iff.rfl

/-- The glyph blit reads the parameters, `OFFSET`, `FB`, `COLOR` and `LSB_AT_TOP` only (R131). -/
theorem drawGlyph_fb_congr {s t : State} (hc : t.cfg = s.cfg) (ho : t.offset = s.offset)
    (hf : t.fb = s.fb) (hcol : t.color = s.color) (hl : t.lsbAtTop = s.lsbAtTop)
    (x y : Int) (c : Byte) : (drawGlyph x y c t).fb = (drawGlyph x y c s).fb := by
  have : t.glyphPixels x y c = s.glyphPixels x y c := by
    simp [State.glyphPixels, State.fontColumn, hc, hcol, hl]
  unfold drawGlyph
  rw [this]
  exact paint_fb_congr hc ho hf _

/-- One round of `PRINT` that stops at the bottom of the window (R134). -/
theorem printText_cons_stop {s : State} {c : Byte} {cs : List Byte}
    (h : (wrapCursor s).LineOverflows) : printText (c :: cs) s = wrapCursor s := if_pos h

/-- One round of `PRINT` that draws (R134). -/
theorem printText_cons_draw {s : State} {c : Byte} {cs : List Byte}
    (h : ¬ (wrapCursor s).LineOverflows) :
    printText (c :: cs) s = printText cs (drawAtCursor c (wrapCursor s)) := if_neg h

/-- Printing in two pieces, across wraps and after a truncation (R134). -/
theorem printText_append {s : State} (hc : s.cfg.Valid) (a b : List Byte) :
    printText (a ++ b) s = printText b (printText a s) := by
  induction a generalizing s with
  | nil => rfl
  | cons c cs ih =>
    have hcfg : (wrapCursor s).cfg = s.cfg := by rw [wrapCursor_eq]
    rw [List.cons_append, printText, printText]
    split
    · next h =>
      cases b with
      | nil => rfl
      | cons d ds =>
        have hw : wrapCursor (wrapCursor s) = wrapCursor s :=
          wrapCursor_of_fits (by rw [hcfg]; exact wrapCursor_fits hc)
        rw [printText, hw, if_pos h]
    · refine ih ?_
      rw [drawAtCursor_eq]
      exact hcfg ▸ hc

end Sys2Proof.Machine
end

