-- ==== Sys2Proof/Laws/Exec.lean ====
section
/-! SUPPORT. What each command can do, said once: `exec_effect` is the inversion of `exec` that whole-machine lemmas case on,
and `step_cases` the inversion of `step`. -/

namespace Sys2Proof.Machine

/-- A drawing command through `SetPixel`: nothing, or a sequence of pixel writes on a sound framebuffer. -/
def Drawn (s t : State) : Prop :=
  (s.fbOk = false ∧ t = s) ∨ (s.fbOk = true ∧ s.FbSound ∧ ∃ ps, t = paint ps s)

/-- A whole-buffer fill with the drawing state reset (R104, R105). -/
def Filled (v : Byte) (s t : State) : Prop :=
  (s.fbOk = false ∧ t = s) ∨
    (s.fbOk = true ∧ t = { s with
      fb := Memory.filled s.cfg.fbSize v, cursorX := 0, cursorY := 0, color := true })

/-- Events appended behind the gate of R171, with the protocol state `p` after them. -/
def Gated (p : PState) (es : List Event) (s t : State) : Prop :=
  (s.pstate = .uninit ∧ t = s) ∨
    (s.pstate ≠ .uninit ∧ t = { s with pstate := p, out := s.out ++ es })

/-- A flush (R173). -/
def Flushed (s t : State) : Prop :=
  (s.pstate = .uninit ∧ t = s) ∨
    (s.pstate ≠ .uninit ∧ s.fbOk = true ∧ s.FbSound ∧ t = s.appendOut s.flushEvents)

/-- The events of `BEGIN` (R174). -/
def State.beginEvents (s : State) : List Event :=
  [.resetLine false, .wait 2, .resetLine true, .wait 10] ++
    (initCommands s).map fun bytes => .txn .cmd s.spiHz bytes

/-- What a command leaves when it answers a next state. -/
def Effect (s t : State) : Instr → Prop
  | .nop => t = s
  | .setPixel _ _ _ => Drawn s t
  | .clear => Filled 0x00#8 s t
  | .startFrame bg => Filled (if bg then 0xFF#8 else 0x00#8) s t
  | .fillRect _ _ _ _ => Drawn s t
  | .drawRect _ _ _ _ => Drawn s t
  | .setCursor x y => t = s.setCursor x y
  | .setColor v => t = s.setColor v
  | .readFb index =>
    (∃ r, t = s.setResult r) ∨ t = raiseIllegal .fbIndexRange (Instr.readFb index).header s
  | .setTextSize _ => t = s
  | .print text =>
    (s.fbOk = false ∧ t = s) ∨ (s.fbOk = true ∧ s.FbSound ∧ t = printText text s)
  | .getTextWidth _ => ∃ r, t = s.setResult r
  | .drawChar _ _ _ => Drawn s t
  | .drawXbm _ _ _ _ _ => Drawn s t
  | .setBitmapMsbLeft v => t = s.setBmpMsbLeft v
  | .setBitmapFlipH v => t = s.setBmpFlipH v
  | .setBitmapFlipV v => t = s.setBmpFlipV v
  | .beginInit =>
    (s.fbOk = false ∧ t = s.setResult 0) ∨
      (s.fbOk = true ∧ t = { s with
        pstate := .on, result := 1, rstLine := true, out := s.out ++ s.beginEvents })
  | .turnOn => Gated .on [.txn .cmd s.spiHz [0xAF#8]] s t
  | .turnOff => Gated .off [.txn .cmd s.spiHz [0xAE#8]] s t
  | .isOn => ∃ r, t = s.setResult r
  | .endFrame => Flushed s t
  | .setOffset ox => Flushed (s.setOffset (s.clampOffset ox)) t
  | .configureOrientation a b c =>
    Gated s.pstate
      [.txn .cmd s.spiHz [segRemapCmd (s.setOrientation a b c)],
        .txn .cmd s.spiHz [rowDirectionCmd (s.setOrientation a b c)]] (s.setOrientation a b c) t
  | .setContrast ratio volume =>
    Gated s.pstate [.txn .cmd s.spiHz [ratioCmd ratio], .txn .cmd s.spiHz (volumeCmd volume)] s t
  | .setInverse v => Gated s.pstate [.txn .cmd s.spiHz [invertCmd v]] s t
  | .setSpiFrequency hz => t = s.setSpiHz hz

theorem drawn_of_guardFb {s t : State} {ps : State → List PixelWrite}
    (h : guardFb s (fun s => paint (ps s) s) = .next t) : Drawn s t := by
  rcases guardFb_next h with h | ⟨h1, h2, h3⟩
  · exact .inl h
  · exact .inr ⟨h1, h2, _, h3⟩

theorem setPixel_eq_paint (x y : Int) (v : Bool) (s : State) :
    setPixel x y v s = paint [⟨x, y, v⟩] s := rfl

theorem gated_of {p : PState} {es : List Event} {s t : State} {act : State → State}
    (ha : act s = { s with pstate := p, out := s.out ++ es })
    (h : Host.Outcome.next (φ := Fault) (ρ := Refusal) (gated s act) = .next t) :
    Gated p es s t := by
  have h' : gated s act = t := by simpa using h
  rw [gated_eq] at h'
  by_cases hu : s.pstate = .uninit
  · rw [if_pos hu] at h'
    exact .inl ⟨hu, h'.symm⟩
  · rw [if_neg hu, ha] at h'
    exact .inr ⟨hu, h'.symm⟩

theorem filled_of {v : Byte} {s t : State}
    (h : (if s.fbOk = false then Host.Outcome.next (φ := Fault) (ρ := Refusal) s
      else .next (resetDrawing (fill v s))) = .next t) : Filled v s t := by
  split at h
  · next h0 => exact .inl ⟨h0, by simpa using h.symm⟩
  · next h0 =>
    refine .inr ⟨by simpa using h0, ?_⟩
    have h' : resetDrawing (fill v s) = t := by simpa using h
    rw [← h']
    rfl

theorem begin_effect {s t : State} (h : execBeginInit s = .next t) : Effect s t .beginInit := by
  unfold execBeginInit at h
  split at h
  · next h0 => exact .inl ⟨h0, by simpa using h.symm⟩
  · next h0 =>
    refine .inr ⟨by simpa using h0, ?_⟩
    simp only [Host.Outcome.next.injEq] at h
    rw [← h, sendCommands_eq]
    simp [State.appendOut, resetPulse, driveReset, State.emit, State.setPState, State.setResult,
      State.beginEvents, initCommands, segRemapCmd, rowDirectionCmd, Config.resetHoldMs,
      Config.resetBootMs]

theorem readFb_effect {index : Nat} {s t : State} (h : execReadFb index s = .next t) :
    Effect s t (.readFb index) := by
  unfold execReadFb at h
  split at h
  · exact .inl ⟨0, by simpa using h.symm⟩
  · split at h
    · exact .inr (by simpa using h.symm)
    · split at h
      · exact .inl ⟨_, by simpa using h.symm⟩
      · simp at h

/-- The inversion of `exec`. -/
theorem exec_effect {i : Instr} {s t : State} (h : exec i s = .next t) : Effect s t i := by
  cases i with
  | nop => exact (Host.Outcome.next.inj h).symm
  | setPixel x y v => exact drawn_of_guardFb (ps := fun _ => [⟨x, y, v⟩]) h
  | clear => exact filled_of h
  | startFrame bg => exact filled_of h
  | fillRect x y w hh => exact drawn_of_guardFb (ps := fun s => s.rectPixels x y w hh) h
  | drawRect x y w hh => exact drawn_of_guardFb (ps := fun s => s.borderPixels x y w hh) h
  | setCursor x y => exact (Host.Outcome.next.inj h).symm
  | setColor v => exact (Host.Outcome.next.inj h).symm
  | readFb index => exact readFb_effect h
  | setTextSize n => exact (Host.Outcome.next.inj h).symm
  | print text => exact guardFb_next h
  | getTextWidth len => exact ⟨_, (Host.Outcome.next.inj h).symm⟩
  | drawChar x y c => exact drawn_of_guardFb (ps := fun s => s.glyphPixels x y c) h
  | drawXbm x y w hh bytes => exact drawn_of_guardFb (ps := fun s => s.xbmPixels x y w hh bytes) h
  | setBitmapMsbLeft v => exact (Host.Outcome.next.inj h).symm
  | setBitmapFlipH v => exact (Host.Outcome.next.inj h).symm
  | setBitmapFlipV v => exact (Host.Outcome.next.inj h).symm
  | beginInit => exact begin_effect h
  | turnOn => exact gated_of rfl h
  | turnOff => exact gated_of rfl h
  | isOn => exact ⟨_, (Host.Outcome.next.inj h).symm⟩
  | endFrame => exact flush_next h
  | setOffset ox => exact flush_next h
  | configureOrientation a b c => exact gated_of (by rw [sendCommands_eq]; rfl) h
  | setContrast ratio volume => exact gated_of (by rw [sendCommands_eq]; rfl) h
  | setInverse v => exact gated_of rfl h
  | setSpiFrequency hz => exact (Host.Outcome.next.inj h).symm

/-- No command touches the parameters, the words or their count: those are the sequencer's (R32, R33, R53). -/
theorem exec_keeps {i : Instr} {s t : State} (h : exec i s = .next t) :
    t.cfg = s.cfg ∧ t.cab = s.cab ∧ t.csp = s.csp ∧ t.stream = s.stream := by
  have e := exec_effect h
  have hd : ∀ ps, (paint ps s).cfg = s.cfg ∧ (paint ps s).cab = s.cab ∧
      (paint ps s).csp = s.csp ∧ (paint ps s).stream = s.stream := by
    intro ps; rw [paint_eq]; exact ⟨rfl, rfl, rfl, rfl⟩
  cases i <;> simp only [Effect, Drawn, Filled, Gated, Flushed] at e
  case print text =>
    rcases e with ⟨_, rfl⟩ | ⟨_, _, rfl⟩
    · exact ⟨rfl, rfl, rfl, rfl⟩
    · rw [printText_eq]; exact ⟨rfl, rfl, rfl, rfl⟩
  case readFb index =>
    rcases e with ⟨_, rfl⟩ | rfl
    · exact ⟨rfl, rfl, rfl, rfl⟩
    · unfold raiseIllegal; split <;> exact ⟨rfl, rfl, rfl, rfl⟩
  all_goals first
    | (subst e; exact ⟨rfl, rfl, rfl, rfl⟩)
    | (rcases e with ⟨_, rfl⟩ | ⟨_, rfl⟩ <;> exact ⟨rfl, rfl, rfl, rfl⟩)
    | (rcases e with ⟨_, rfl⟩ | ⟨_, _, ps, rfl⟩
       · exact ⟨rfl, rfl, rfl, rfl⟩
       · exact hd ps)
    | (rcases e with ⟨_, rfl⟩ | ⟨_, _, _, rfl⟩ <;> exact ⟨rfl, rfl, rfl, rfl⟩)
    | (obtain ⟨_, rfl⟩ := e; exact ⟨rfl, rfl, rfl, rfl⟩)

/-- The inversion of `step` (R211). -/
theorem step_cases {s t : State} (h : step s = .next t) :
    s.cfg.Valid ∧
      ((decodeCommand s.pending = .incomplete ∧ s.stream ≠ [] ∧ t = receiveWords s) ∨
        (∃ kind w n, decodeCommand s.pending = .illegal kind w n ∧
          t = retire n (raiseIllegal (causeOf kind) w s)) ∨
        ∃ i n u, decodeCommand s.pending = .command i n ∧ exec i s = .next u ∧ t = retire n u) := by
  unfold step at h
  split at h
  · next hv =>
    refine ⟨hv, ?_⟩
    split at h
    · next hd =>
      unfold holdForWords at h
      split at h
      · simp at h
      · next hs => exact .inl ⟨hd, hs, by simpa using h.symm⟩
    · next kind w n hd => exact .inr (.inl ⟨kind, w, n, hd, by simpa using h.symm⟩)
    · next i n hd =>
      refine .inr (.inr ⟨i, n, ?_⟩)
      cases he : exec i s with
      | next u => exact ⟨u, hd, rfl, by rw [he] at h; exact (Host.Outcome.next.inj h).symm⟩
      | fault r => rw [he] at h; simp [retireOutcome] at h
      | refused r => rw [he] at h; simp [retireOutcome] at h
  · simp at h

end Sys2Proof.Machine
end

