-- ==== Sys2Proof/Laws/PerInstr.lean ====
section
/-! SUPPORT. Statements made of every instruction as syntax, one lemma a constructor. -/

namespace Sys2Proof.Laws

/-- A well-formed command is encoded in as many words as R83 gives its format, header and second argument word. -/
def EncodeLength.Statement (i : Instr) : Prop :=
  i.WellFormed →
    (encode i).length = commandLength i.op.format i.header (i.operandWords.getD 1 0)

/-- The header of a command carries the opcode of its row and no reserved bit (R84, R85). -/
def OpcodeByte.Statement (i : Instr) : Prop :=
  opcodeOf i.header = i.op.code ∧ i.header &&& i.op.format.mask = i.op.matchWord

theorem opcodeByte (i : Instr) : OpcodeByte.Statement i :=
  ⟨Op.ofCode_eq_some.1 i.ofCode_header, i.header_mask⟩

theorem EncodeLength.nop : EncodeLength.Statement (.nop) := fun _ => rfl

theorem EncodeLength.setPixel (x : Int) (y : Int) (v : Bool) : EncodeLength.Statement (.setPixel x y v) := fun _ => rfl

theorem EncodeLength.clear : EncodeLength.Statement (.clear) := fun _ => rfl

theorem EncodeLength.startFrame (bg : Bool) : EncodeLength.Statement (.startFrame bg) := fun _ => rfl

theorem EncodeLength.fillRect (x : Int) (y : Int) (w : Int) (h : Int) : EncodeLength.Statement (.fillRect x y w h) := fun _ => rfl

theorem EncodeLength.drawRect (x : Int) (y : Int) (w : Int) (h : Int) : EncodeLength.Statement (.drawRect x y w h) := fun _ => rfl

theorem EncodeLength.setCursor (x : Int) (y : Int) : EncodeLength.Statement (.setCursor x y) := fun _ => rfl

theorem EncodeLength.setColor (v : Bool) : EncodeLength.Statement (.setColor v) := fun _ => rfl

theorem EncodeLength.readFb (index : Nat) : EncodeLength.Statement (.readFb index) := fun _ => rfl

theorem EncodeLength.setTextSize (n : Byte) : EncodeLength.Statement (.setTextSize n) := fun _ => rfl

theorem EncodeLength.print (text : List Byte) : EncodeLength.Statement (.print text) := by
  intro hw
  simp only [Instr.WellFormed, Instr.wf, decide_eq_true_eq] at hw
  have e : imm16 (Instr.print text).header = text.length := by
    rw [imm16_header (v := BitVec.ofNat 16 text.length) rfl, BitVec.toNat_ofNat]
    exact Nat.mod_eq_of_lt hw
  simp only [encode, List.length_cons, Instr.operandWords, packBytes_length, Instr.op, Op.format,
    commandLength, e]
  omega

theorem EncodeLength.getTextWidth (len : Nat) : EncodeLength.Statement (.getTextWidth len) := fun _ => rfl

theorem EncodeLength.drawChar (x : Int) (y : Int) (c : Byte) : EncodeLength.Statement (.drawChar x y c) := fun _ => rfl

theorem EncodeLength.drawXbm (x : Int) (y : Int) (w : Int) (h : Int) (bytes : List Byte) : EncodeLength.Statement (.drawXbm x y w h bytes) := by
  intro hw
  simp only [Instr.WellFormed, Instr.wf, decide_eq_true_eq] at hw
  obtain ⟨-, -, hfw, hfh, hlen⟩ := hw
  simp only [encode, List.length_cons, Instr.operandWords, packBytes_length, Instr.op, Op.format,
    commandLength, List.getD_cons_succ, List.getD_cons_zero, loSigned_pairWord hfw,
    hiSigned_pairWord hfh, hlen]
  omega

theorem EncodeLength.setBitmapMsbLeft (v : Bool) : EncodeLength.Statement (.setBitmapMsbLeft v) := fun _ => rfl

theorem EncodeLength.setBitmapFlipH (v : Bool) : EncodeLength.Statement (.setBitmapFlipH v) := fun _ => rfl

theorem EncodeLength.setBitmapFlipV (v : Bool) : EncodeLength.Statement (.setBitmapFlipV v) := fun _ => rfl

theorem EncodeLength.beginInit : EncodeLength.Statement (.beginInit) := fun _ => rfl

theorem EncodeLength.turnOn : EncodeLength.Statement (.turnOn) := fun _ => rfl

theorem EncodeLength.turnOff : EncodeLength.Statement (.turnOff) := fun _ => rfl

theorem EncodeLength.isOn : EncodeLength.Statement (.isOn) := fun _ => rfl

theorem EncodeLength.endFrame : EncodeLength.Statement (.endFrame) := fun _ => rfl

theorem EncodeLength.setOffset (ox : Int) : EncodeLength.Statement (.setOffset ox) := fun _ => rfl

theorem EncodeLength.configureOrientation (segRemap : Bool) (comReverse : Bool) (lsbAtTop : Bool) : EncodeLength.Statement (.configureOrientation segRemap comReverse lsbAtTop) := fun _ => rfl

theorem EncodeLength.setContrast (ratio : Byte) (volume : Byte) : EncodeLength.Statement (.setContrast ratio volume) := fun _ => rfl

theorem EncodeLength.setInverse (v : Bool) : EncodeLength.Statement (.setInverse v) := fun _ => rfl

theorem EncodeLength.setSpiFrequency (hz : Word) : EncodeLength.Statement (.setSpiFrequency hz) := fun _ => rfl

theorem OpcodeByte.nop :
    OpcodeByte.Statement (.nop) := opcodeByte _

theorem OpcodeByte.setPixel (x : Int) (y : Int) (v : Bool) :
    OpcodeByte.Statement (.setPixel x y v) := opcodeByte _

theorem OpcodeByte.clear :
    OpcodeByte.Statement (.clear) := opcodeByte _

theorem OpcodeByte.startFrame (bg : Bool) :
    OpcodeByte.Statement (.startFrame bg) := opcodeByte _

theorem OpcodeByte.fillRect (x : Int) (y : Int) (w : Int) (h : Int) :
    OpcodeByte.Statement (.fillRect x y w h) := opcodeByte _

theorem OpcodeByte.drawRect (x : Int) (y : Int) (w : Int) (h : Int) :
    OpcodeByte.Statement (.drawRect x y w h) := opcodeByte _

theorem OpcodeByte.setCursor (x : Int) (y : Int) :
    OpcodeByte.Statement (.setCursor x y) := opcodeByte _

theorem OpcodeByte.setColor (v : Bool) :
    OpcodeByte.Statement (.setColor v) := opcodeByte _

theorem OpcodeByte.readFb (index : Nat) :
    OpcodeByte.Statement (.readFb index) := opcodeByte _

theorem OpcodeByte.setTextSize (n : Byte) :
    OpcodeByte.Statement (.setTextSize n) := opcodeByte _

theorem OpcodeByte.print (text : List Byte) :
    OpcodeByte.Statement (.print text) := opcodeByte _

theorem OpcodeByte.getTextWidth (len : Nat) :
    OpcodeByte.Statement (.getTextWidth len) := opcodeByte _

theorem OpcodeByte.drawChar (x : Int) (y : Int) (c : Byte) :
    OpcodeByte.Statement (.drawChar x y c) := opcodeByte _

theorem OpcodeByte.drawXbm (x : Int) (y : Int) (w : Int) (h : Int) (bytes : List Byte) :
    OpcodeByte.Statement (.drawXbm x y w h bytes) := opcodeByte _

theorem OpcodeByte.setBitmapMsbLeft (v : Bool) :
    OpcodeByte.Statement (.setBitmapMsbLeft v) := opcodeByte _

theorem OpcodeByte.setBitmapFlipH (v : Bool) :
    OpcodeByte.Statement (.setBitmapFlipH v) := opcodeByte _

theorem OpcodeByte.setBitmapFlipV (v : Bool) :
    OpcodeByte.Statement (.setBitmapFlipV v) := opcodeByte _

theorem OpcodeByte.beginInit :
    OpcodeByte.Statement (.beginInit) := opcodeByte _

theorem OpcodeByte.turnOn :
    OpcodeByte.Statement (.turnOn) := opcodeByte _

theorem OpcodeByte.turnOff :
    OpcodeByte.Statement (.turnOff) := opcodeByte _

theorem OpcodeByte.isOn :
    OpcodeByte.Statement (.isOn) := opcodeByte _

theorem OpcodeByte.endFrame :
    OpcodeByte.Statement (.endFrame) := opcodeByte _

theorem OpcodeByte.setOffset (ox : Int) :
    OpcodeByte.Statement (.setOffset ox) := opcodeByte _

theorem OpcodeByte.configureOrientation (segRemap : Bool) (comReverse : Bool) (lsbAtTop : Bool) :
    OpcodeByte.Statement (.configureOrientation segRemap comReverse lsbAtTop) := opcodeByte _

theorem OpcodeByte.setContrast (ratio : Byte) (volume : Byte) :
    OpcodeByte.Statement (.setContrast ratio volume) := opcodeByte _

theorem OpcodeByte.setInverse (v : Bool) :
    OpcodeByte.Statement (.setInverse v) := opcodeByte _

theorem OpcodeByte.setSpiFrequency (hz : Word) :
    OpcodeByte.Statement (.setSpiFrequency hz) := opcodeByte _

end Sys2Proof.Laws
end

