-- ==== Sys2Proof/Tests/Slice0.lean ====
section
/-! SUPPORT. The model's own tests: ill-formed commands refused, words written out from the encoding tables decoded, single
steps with results taken from 95_test_vectors.md, and a witness for the hypotheses of every obligation that has any. -/

namespace Sys2Proof.Tests

open Sys2Proof.Machine Sys2Proof.Claims

/- One theorem after the other: each kernel evaluation waits for the earlier ones, and a thread for each is too many. -/
set_option Elab.async false

/-! ## States -/

/-- The illustrative glyphs of R130 (`?`, `H`, `i`), every other glyph blank. -/
def glyphs : List Byte :=
  (List.range 475).map fun k =>
    if k / 5 = 0x1F then [0x02#8, 0x01#8, 0x51#8, 0x09#8, 0x06#8].getD (k % 5) 0
    else if k / 5 = 0x28 then [0x7F#8, 0x08#8, 0x08#8, 0x08#8, 0x7F#8].getD (k % 5) 0
    else if k / 5 = 0x49 then [0x00#8, 0x44#8, 0x7D#8, 0x40#8, 0x00#8].getD (k % 5) 0
    else 0

/-- The parameters of program P2 of 95_test_vectors.md, with the 128 × 16 window of P5. -/
def config : Config where
  w := 128
  h := 16
  iw := 132
  fbAvailable := true
  font := glyphs
  spiHzReset := 1000000#32
  initRatio := 5#3
  initVolume := 0x20#6
  biasCmd := 0xA2#8
  powerCmd := 0x2F#8
  startLine := 0#6

/-- The smallest block: a 6 × 8 window on 8 columns. -/
def tinyConfig : Config := { config with w := 6, h := 8, iw := 8 }

/-- Block reset with every framebuffer byte `v` and the reset line low. -/
def start (c : Config) (v : Byte) : State :=
  { State.resetWith c with rstLine := false, fb := Memory.filled c.fbSize v }

/-- The window of P5, all bytes 0. -/
def screen : State := start config 0x00#8

/-- The same, initialised. -/
def lit : State := { screen with pstate := .on }

/-- The small block, all bytes 0. -/
def tiny : State := start tinyConfig 0x00#8

/-- The small block, initialised. -/
def tinyLit : State := { tiny with pstate := .on }

/-- A block without a framebuffer. -/
def absent : State := { tiny with cfg := { tinyConfig with fbAvailable := false }, fb := [] }

/-- The next state, where there is one. -/
def nextOf : Host.Outcome State Fault Refusal → Option State
  | .next s => some s
  | .fault _ => none
  | .refused _ => none

/-- Framebuffer bytes `lo .. lo + n - 1`. -/
def bytesAt (lo n : Nat) (s : State) : List (Option Byte) :=
  (List.range n).map fun k => Memory.read s.fb (lo + k)

theorem next_of_isSome {o : Host.Outcome State Fault Refusal} (h : (nextOf o).isSome = true) :
    ∃ t, o = .next t := by
  cases o with
  | next s => exact ⟨s, rfl⟩
  | fault r => simp [nextOf] at h
  | refused r => simp [nextOf] at h

/-! ## Ill-formed commands are refused -/

theorem test_wf_setPixel_x : (Instr.setPixel 32768 0 true).wf = false := by decide
theorem test_wf_setPixel_y : (Instr.setPixel 0 (-32769) true).wf = false := by decide
theorem test_wf_fillRect_w : (Instr.fillRect 0 0 32768 1).wf = false := by decide
theorem test_wf_fillRect_h : (Instr.fillRect 0 0 1 (-32769)).wf = false := by decide
theorem test_wf_drawRect_w : (Instr.drawRect 0 0 (-40000) 1).wf = false := by decide
theorem test_wf_drawRect_y : (Instr.drawRect 0 32768 1 1).wf = false := by decide
theorem test_wf_setCursor : (Instr.setCursor (-32769) 0).wf = false := by decide
theorem test_wf_readFb : (Instr.readFb 65536).wf = false := by decide
theorem test_wf_print (text : List Byte) (h : text.length = 65536) : (Instr.print text).wf = false := by
  simp [Instr.wf, FitsU16, h]
theorem test_wf_getTextWidth : (Instr.getTextWidth 65536).wf = false := by decide
theorem test_wf_drawChar : (Instr.drawChar 0 32768 0x41).wf = false := by decide
theorem test_wf_drawXbm_size : (Instr.drawXbm 0 0 40000 0 []).wf = false := by decide
/-- A `DRAW_XBM` byte list whose length is not `N` (R89). -/
theorem test_wf_drawXbm_bytes : (Instr.drawXbm 0 0 9 2 [1, 2, 3]).wf = false := by decide
theorem test_wf_setOffset : (Instr.setOffset 32768).wf = false := by decide

/-! ## Words written out from R81 and R84 -/

theorem test_decode_nop : decodeCommand [0b00000000000000000000000000000000#32] = .command .nop 1 := by
  decide
theorem test_decode_setPixel :
    decodeCommand [0b00010000000000000000000000000001#32, 0b00000000000010100000000000000011#32] =
      .command (.setPixel 3 10 true) 2 := by decide
theorem test_decode_clear : decodeCommand [0b00010001000000000000000000000000#32] = .command .clear 1 := by
  decide
theorem test_decode_startFrame :
    decodeCommand [0b00010010000000000000000000000001#32] = .command (.startFrame true) 1 := by decide
theorem test_decode_fillRect :
    decodeCommand [0b00010011000000000000000000000000#32, 0b11111111111111011111111111111110#32,
      0b00000000000001100000000000000101#32] = .command (.fillRect (-2) (-3) 5 6) 3 := by decide
theorem test_decode_drawRect :
    decodeCommand [0b00010100000000000000000000000000#32, 0b10000000000000000111111111111111#32,
      0b00000000000000010000000000000010#32] = .command (.drawRect 32767 (-32768) 2 1) 3 := by decide
theorem test_decode_setCursor :
    decodeCommand [0b00010101000000000000000000000000#32, 0b00000000001111001111111111111101#32] =
      .command (.setCursor (-3) 60) 2 := by decide
theorem test_decode_setColor :
    decodeCommand [0b00010110000000000000000000000001#32] = .command (.setColor true) 1 := by decide
theorem test_decode_readFb :
    decodeCommand [0b00010111000000000000010000100000#32] = .command (.readFb 1056) 1 := by decide
theorem test_decode_setTextSize :
    decodeCommand [0b00100000000000000000000010000001#32] = .command (.setTextSize 0x81) 1 := by decide
/-- `PRINT` of five bytes; the three pad bytes are ignored (R65). -/
theorem test_decode_print :
    decodeCommand [0b00100001000000000000000000000101#32, 0x6C6C6548#32, 0xFFFFFF6F#32] =
      .command (.print [0x48, 0x65, 0x6C, 0x6C, 0x6F]) 3 := by decide
theorem test_decode_getTextWidth :
    decodeCommand [0b00100010000000001111111111111111#32] = .command (.getTextWidth 65535) 1 := by decide
theorem test_decode_drawChar :
    decodeCommand [0b00100011000000000000000001001000#32, 0b00000000000001000000000000000001#32] =
      .command (.drawChar 1 4 0x48) 2 := by decide
theorem test_decode_drawXbm :
    decodeCommand [0b00110000000000000000000000000000#32, 0b00000000000010001111111111111111#32,
      0b00000000000000100000000000001001#32, 0x00010100#32] =
      .command (.drawXbm (-1) 8 9 2 [0x00, 0x01, 0x01, 0x00]) 4 := by decide
theorem test_decode_drawXbm_empty :
    decodeCommand [0x30000000#32, 0x00000000#32, 0x0005FFFF#32] = .command (.drawXbm 0 0 (-1) 5 []) 3 := by
  decide
theorem test_decode_setBitmapMsbLeft :
    decodeCommand [0b00110001000000000000000000000001#32] = .command (.setBitmapMsbLeft true) 1 := by decide
theorem test_decode_setBitmapFlipH :
    decodeCommand [0b00110010000000000000000000000001#32] = .command (.setBitmapFlipH true) 1 := by decide
theorem test_decode_setBitmapFlipV :
    decodeCommand [0b00110011000000000000000000000000#32] = .command (.setBitmapFlipV false) 1 := by decide
theorem test_decode_begin : decodeCommand [0b01000000000000000000000000000000#32] = .command .beginInit 1 := by
  decide
theorem test_decode_turnOn : decodeCommand [0b01000001000000000000000000000000#32] = .command .turnOn 1 := by
  decide
theorem test_decode_turnOff : decodeCommand [0b01000010000000000000000000000000#32] = .command .turnOff 1 := by
  decide
theorem test_decode_isOn : decodeCommand [0b01000011000000000000000000000000#32] = .command .isOn 1 := by
  decide
theorem test_decode_endFrame : decodeCommand [0b01000100000000000000000000000000#32] = .command .endFrame 1 := by
  decide
theorem test_decode_setOffset :
    decodeCommand [0b01000101000000001111111111111011#32] = .command (.setOffset (-5)) 1 := by decide
theorem test_decode_configureOrientation :
    decodeCommand [0b01000110000000000000000000000101#32] =
      .command (.configureOrientation true false true) 1 := by decide
theorem test_decode_setContrast :
    decodeCommand [0b01000111000000000100011100001001#32] = .command (.setContrast 9 0x47) 1 := by decide
theorem test_decode_setInverse :
    decodeCommand [0b01001000000000000000000000000001#32] = .command (.setInverse true) 1 := by decide
theorem test_decode_setSpiFrequency :
    decodeCommand [0b01001001000000000000000000000000#32, 0b00000000001111010000100100000000#32] =
      .command (.setSpiFrequency 4000000) 2 := by decide

/-- Illegal headers of 95_test_vectors.md section 2.1. -/
theorem test_decode_unknown :
    decodeCommand [0x4A000000#32] = .illegal .unknownOpcode 0x4A000000#32 1 ∧
      decodeCommand [0x10000002#32, 0x000A0003#32] = .illegal .reservedBits 0x10000002#32 2 ∧
      decodeCommand [0x21010002#32, 0x00006948#32] = .illegal .reservedBits 0x21010002#32 2 ∧
      decodeCommand [0x47010000#32] = .illegal .reservedBits 0x47010000#32 1 := by decide
theorem test_decode_incomplete :
    decodeCommand [0x13000000#32, 0x00000000#32] = .incomplete ∧
      decodeCommand [0x21000005#32, 0x6C6C6548#32] = .incomplete := by decide

/-! ## One step, results from 95_test_vectors.md section 2 and the examples of the rules -/

theorem test_setPixel :
    (nextOf (exec (.setPixel 3 10 true) screen)).map (bytesAt 134 3) =
      some [some 0x00, some 0x04, some 0x00] := by decide +kernel
theorem test_setPixel_clears :
    (nextOf (exec (.setPixel 5 9 false) (start config 0xFF))).map (bytesAt 136 3) =
      some [some 0xFF, some 0xFD, some 0xFF] := by decide +kernel
theorem test_clear :
    (nextOf (exec .clear { start config 0xFF with color := false, cursorX := 7 })).map
      (fun t => (bytesAt 263 2 t, t.color, t.cursorX)) =
      some ([some 0x00, none], true, 0) := by decide +kernel
theorem test_startFrame :
    (nextOf (exec (.startFrame true) screen)).map (bytesAt 131 1) = some [some 0xFF] := by decide +kernel
theorem test_fillRect_clips :
    (nextOf (exec (.fillRect (-2) (-3) 5 6) screen)).map (bytesAt 0 4) =
      some [some 0x07, some 0x07, some 0x07, some 0x00] := by decide +kernel
theorem test_fillRect_pages :
    (nextOf (exec (.fillRect 0 4 1 8) screen)).map (fun t => bytesAt 0 1 t ++ bytesAt 132 1 t) =
      some [some 0xF0, some 0x0F] := by decide +kernel
theorem test_drawRect :
    (nextOf (exec (.drawRect 0 0 4 10) screen)).map (fun t => bytesAt 0 4 t ++ bytesAt 132 4 t) =
      some [some 0xFF, some 0x01, some 0x01, some 0xFF, some 0x03, some 0x02, some 0x02, some 0x03] := by
  decide +kernel
theorem test_drawRect_clips :
    (nextOf (exec (.drawRect (-1) (-1) 3 3) screen)).map (bytesAt 0 3) =
      some [some 0x02, some 0x03, some 0x00] := by decide +kernel
theorem test_setCursor :
    (nextOf (exec (.setCursor (-3) 60) tiny)).map (fun t => (t.cursorX.toInt, t.cursorY.toInt)) =
      some (-3, 60) := by decide +kernel
theorem test_setColor : (nextOf (exec (.setColor false) tiny)).map (·.color) = some false := by
  decide +kernel
theorem test_readFb :
    (nextOf (exec (.readFb 263) (start config 0xF3))).map (·.result) = some 0x000000F3#32 := by
  decide +kernel
theorem test_readFb_outside :
    (nextOf (exec (.readFb 264) screen)).map (fun t => (t.ill, t.cause, t.faultWord)) =
      some (true, .fbIndexRange, 0x17000108#32) := by decide +kernel
theorem test_setTextSize : (nextOf (exec (.setTextSize 3) tiny)).map (· == tiny) = some true := by
  decide +kernel
theorem test_print :
    (nextOf (exec (.print [0x48, 0x69]) screen)).map
      (fun t => (bytesAt 0 13 t, t.cursorX.toInt, t.cursorY.toInt)) =
      some ([some 0x7F, some 0x08, some 0x08, some 0x08, some 0x7F, some 0x00,
        some 0x00, some 0x44, some 0x7D, some 0x40, some 0x00, some 0x00, some 0x00], 12, 0) := by
  decide +kernel
/-- `SET_CURSOR 123, 0; PRINT` wraps; the line after the last is not drawn. -/
theorem test_print_wraps :
    (nextOf (exec (.print [0x48]) { screen with cursorX := 123 })).map
        (fun t => (bytesAt 132 1 t, t.cursorX.toInt, t.cursorY.toInt)) = some ([some 0x7F], 6, 8) ∧
      (nextOf (exec (.print [0x48]) { screen with cursorX := 126, cursorY := 8 })).map
        (fun t => (t.fb == screen.fb, t.cursorX.toInt, t.cursorY.toInt)) = some (true, 0, 16) := by
  decide +kernel
theorem test_getTextWidth : (nextOf (exec (.getTextWidth 5) tiny)).map (·.result) = some 30#32 := by
  decide +kernel
theorem test_drawChar_rows :
    (nextOf (exec (.drawChar 0 4 0x48) (start config 0xFF))).map
      (fun t => bytesAt 0 6 t ++ bytesAt 132 6 t) =
      some [some 0xFF, some 0x8F, some 0x8F, some 0x8F, some 0xFF, some 0x0F,
        some 0xF7, some 0xF0, some 0xF0, some 0xF0, some 0xF7, some 0xF0] := by decide +kernel
theorem test_drawChar_bottom_first :
    (nextOf (exec (.drawChar 0 0 0x48) { screen with lsbAtTop := false })).map (bytesAt 0 6) =
      some [some 0xFE, some 0x10, some 0x10, some 0x10, some 0xFE, some 0x00] := by decide +kernel
theorem test_drawXbm_stride :
    (nextOf (exec (.drawXbm 0 0 9 2 [0x00, 0x01, 0x01, 0x00]) screen)).map
      (fun t => bytesAt 0 2 t ++ bytesAt 8 2 t) =
      some [some 0x02, some 0x00, some 0x01, some 0x00] := by decide +kernel
theorem test_drawXbm_flips :
    (nextOf (exec (.drawXbm 0 0 2 2 [0x01, 0x00])
      { screen with bmpFlipH := true, bmpFlipV := true })).map (bytesAt 0 2) =
      some [some 0x00, some 0x02] := by decide +kernel
theorem test_setBitmapMsbLeft :
    (nextOf (exec (.setBitmapMsbLeft true) tiny)).map (·.bmpMsbLeft) = some true := by decide +kernel
theorem test_setBitmapFlipH :
    (nextOf (exec (.setBitmapFlipH true) tiny)).map (·.bmpFlipH) = some true := by decide +kernel
theorem test_setBitmapFlipV :
    (nextOf (exec (.setBitmapFlipV true) tiny)).map (·.bmpFlipV) = some true := by decide +kernel
/-- The init sequence of program P2, at its bus clock. -/
theorem test_begin :
    (nextOf (exec .beginInit { tiny with spiHz := 4000000#32 })).map
      (fun t => (t.out, t.pstate, t.result)) =
      some ([.resetLine false, .wait 2, .resetLine true, .wait 10,
        .txn .cmd 4000000#32 [0xE2], .txn .cmd 4000000#32 [0xA0], .txn .cmd 4000000#32 [0xC0],
        .txn .cmd 4000000#32 [0xA2], .txn .cmd 4000000#32 [0x2F], .txn .cmd 4000000#32 [0x25],
        .txn .cmd 4000000#32 [0x81, 0x20], .txn .cmd 4000000#32 [0x40], .txn .cmd 4000000#32 [0xAF]],
        .on, 1) := by decide +kernel
theorem test_begin_absent :
    (nextOf (exec .beginInit absent)).map (fun t => (t.out, t.pstate, t.result, t.status)) =
      some ([], .uninit, 0, 0) := by decide +kernel
theorem test_turnOn :
    (nextOf (exec .turnOn { tinyLit with pstate := .off })).map (fun t => (t.out, t.status)) =
      some ([.txn .cmd 1000000#32 [0xAF]], 0x00000005#32) := by decide +kernel
theorem test_turnOff :
    (nextOf (exec .turnOff tinyLit)).map (fun t => (t.out, t.status)) =
      some ([.txn .cmd 1000000#32 [0xAE]], 0x00000007#32) := by decide +kernel
theorem test_isOn :
    (nextOf (exec .isOn { tiny with result := 9 })).map (·.result) = some 0 ∧
      (nextOf (exec .isOn tinyLit)).map (·.result) = some 1 := by decide +kernel
theorem test_endFrame :
    (nextOf (exec .endFrame { tinyLit with offset := 2 })).map (·.out) =
      some [.txn .cmd 1000000#32 [0xB0, 0x10, 0x02],
        .txn .data 1000000#32 [0x00, 0x00, 0x00, 0x00, 0x00, 0x00]] := by decide +kernel
/-- The corner configuration of section 2.5: `W = 6`, `IW = 256`, `SET_OFFSET 1000`. -/
theorem test_setOffset :
    (nextOf (exec (.setOffset 1000)
      { start { tinyConfig with iw := 256 } 0xFF with pstate := .on })).map
      (fun t => (t.offset, t.out)) =
      some (250, [.txn .cmd 1000000#32 [0xB0, 0x1F, 0x0A],
        .txn .data 1000000#32 [0xFF, 0xFF, 0xFF, 0xFF, 0xFF, 0xFF]]) := by decide +kernel
theorem test_setOffset_uninit :
    (nextOf (exec (.setOffset 3) screen)).map (fun t => (t.offset, t.out)) = some (3, []) := by
  decide +kernel
theorem test_configureOrientation :
    (nextOf (exec (.configureOrientation true true false) tinyLit)).map
      (fun t => (t.segRemap, t.comReverse, t.lsbAtTop, t.out)) =
      some (true, true, false, [.txn .cmd 1000000#32 [0xA1], .txn .cmd 1000000#32 [0xC8]]) := by
  decide +kernel
theorem test_setContrast :
    (nextOf (exec (.setContrast 0xFF 0x40) tinyLit)).map (·.out) =
      some [.txn .cmd 1000000#32 [0x27], .txn .cmd 1000000#32 [0x81, 0x00]] := by decide +kernel
theorem test_setInverse :
    (nextOf (exec (.setInverse false) tinyLit)).map (·.out) = some [.txn .cmd 1000000#32 [0xA6]] := by
  decide +kernel
theorem test_setSpiFrequency :
    (nextOf (exec (.setSpiFrequency 50000) tiny)).map (·.spiHz) = some 100000#32 ∧
      (nextOf (exec (.setSpiFrequency 0xFFFFFFFF) tiny)).map (·.spiHz) = some 8000000#32 := by
  decide +kernel
theorem test_nop :
    (nextOf (step { tiny with stream := [0x00000000#32] })).map (fun t => (t.csp, t.stream)) =
      some (1, []) := by decide +kernel
/-- An unknown opcode; `STATUS` of section 2.6. -/
theorem test_step_unknown :
    (nextOf (step { tiny with stream := [0xFF000000#32] })).map (fun t => (t.status, t.faultWord, t.csp)) =
      some (0x00000029#32, 0xFF000000#32, 1) := by decide +kernel
/-- A stream that ends inside a command: `STATUS` of section 2.6. -/
theorem test_step_holds :
    (nextOf (step { tiny with stream := [0x13000000#32, 0x00000000#32] })).map
      (fun t => (t.status, t.csp)) = some (0x00000011#32, 0) := by decide +kernel
theorem test_withFetchWord :
    (nextOf (step (tiny.withFetchWord 32 0x16000000))).map (fun t => (t.color, t.csp)) =
      some (false, 1) := by decide +kernel
theorem test_decodeTableWord : decodeTableWord 32 0x45000000 = some (.setOffset 0) := by decide

/-! ## Witnesses: for each obligation with hypotheses, a state and operands that meet them, clause by clause -/

theorem tiny_ready : Ready tiny := by decide +kernel
theorem lit_ready : Ready lit := by decide +kernel
theorem tinyLit_ready : Ready tinyLit := by decide +kernel

theorem witness_OpcodeMapMatchesTable :
    ∃ (h : Word) (r q : Op × Word × Word), r ∈ opcodeRows ∧ q ∈ opcodeRows ∧
      h &&& r.2.2 = r.2.1 ∧ h &&& q.2.2 = q.2.1 :=
  ⟨0x49000000#32, (.setSpiFrequency, 0x49000000#32, 0xFFFFFFFF#32),
    (.setSpiFrequency, 0x49000000#32, 0xFFFFFFFF#32), by decide⟩
theorem witness_DecodeOfEncode :
    (Instr.fillRect (-32768) 32767 (-32768) 32767).WellFormed ∧
      (Instr.drawXbm 0 0 9 2 [1, 2, 3, 4]).WellFormed := by decide
theorem witness_EncodeOfDecode :
    decodeCommand [0x21000001#32, 0xFFFFFF48#32, 0x00000000#32] = .command (.print [0x48]) 2 := by decide
theorem witness_HeadersDecodeOrAreIllegal :
    Op.ofCode (opcodeOf 0x01000000#32) = none ∧ Op.ofCode (opcodeOf 0xFF000000#32) = none ∧
    (Op.ofCode (opcodeOf 0x46000008#32) = some .configureOrientation ∧
      commandLength Op.configureOrientation.format 0x46000008#32 0 ≤ 0 + 1 ∧
      0x46000008#32 &&& Op.configureOrientation.format.mask ≠ Op.configureOrientation.matchWord) ∧
    (Op.ofCode (opcodeOf 0x46000007#32) = some .configureOrientation ∧
      0x46000007#32 &&& Op.configureOrientation.format.mask = Op.configureOrientation.matchWord) := by
  decide
theorem witness_CommandLengthByFormat :
    decodeCommand [0x30000000#32, 0x00000000#32, 0x00010001#32, 0x00000001#32] =
      .command (.drawXbm 0 0 1 1 [1]) 4 := by decide
/-- Five bytes in two words, and an empty and a two-byte bitmap: the last word's other bytes are padding. -/
theorem witness_PayloadBytesLittleEndian :
    (decodeCommand [0x21000005#32, 0x6C6C6548#32, 0x0000006F#32] =
      .command (.print [0x48, 0x65, 0x6C, 0x6C, 0x6F]) 3 ∧ 4 < 5) ∧
    decodeCommand [0x30000000#32, 0x00000000#32, 0x0005FFFF#32] = .command (.drawXbm 0 0 (-1) 5 []) 3 ∧
    (decodeCommand [0x30000000#32, 0x00000000#32, 0x0001000A#32, 0x00000201#32] =
      .command (.drawXbm 0 0 10 1 [1, 2]) 4 ∧ 1 < 2) := by decide
theorem exists_text (n : Nat) : ∃ text : List Byte, text.length = n :=
  ⟨List.replicate n 0, List.length_replicate⟩
theorem witness_PseudoCommandsExpand :
    ([] : List Byte).length < 65536 ∧ ∃ text : List Byte, text.length = 65535 :=
  ⟨by simp, exists_text 65535⟩
theorem setPixel_faults {s : State} (h : s.fbOk = true) (hs : ¬ s.FbSound) :
    exec (.setPixel 0 0 true) s = .fault .outsideFramebuffer := guardFb_unsound h hs _
/-- A command that completes, and one that stops on a state no run reaches. -/
theorem witness_StepRunsDecodedCommand :
    (tiny.cfg.Valid ∧ decodeCommand [0x43000000#32] = .command .isOn 1) ∧
    (∃ t, exec .isOn { tiny with stream := [0x43000000#32] } = .next t) ∧
    (decodeCommand [0x10000001#32, 0x00000000#32] = .command (.setPixel 0 0 true) 2 ∧
      ∃ r, exec (.setPixel 0 0 true) { tiny with fb := [], stream := [0x10000001#32, 0] } = .fault r) :=
  ⟨by decide +kernel, next_of_isSome (by decide +kernel), by decide, .outsideFramebuffer,
    setPixel_faults (by decide +kernel) (by decide +kernel)⟩
theorem witness_CommandFaultsRecord :
    (∃ t, step { tiny with
      ill := true, cause := .unknownOpcode, faultWord := 0xFF000000#32, stream := [0x17000420#32] } =
        .next t) ∧
    tiny.cfg.Valid ∧
    decodeCommand [0xFF000000#32] = .illegal .unknownOpcode 0xFF000000#32 1 ∧
    decodeCommand [0x10000002#32, 0x000A0003#32] = .illegal .reservedBits 0x10000002#32 2 ∧
    (decodeCommand [0x17000008#32] = .command (.readFb 8) 1 ∧ tiny.fbOk = true ∧ tiny.cfg.fbSize ≤ 8) :=
  ⟨next_of_isSome (by decide +kernel), by decide +kernel⟩
theorem witness_StepHoldsForMissingWords :
    tiny.cfg.Valid ∧ decodeCommand ([0x13000000#32] ++ []) = .incomplete ∧
      decodeCommand ([] ++ [0x13000000#32]) = .incomplete := by decide +kernel
theorem witness_WordsConsumedInOrder :
    ∃ t, step { tiny with cab := [0x15000000#32], stream := [0x00000000#32, 0x43000000#32] } = .next t :=
  next_of_isSome (by decide +kernel)
theorem witness_BadGeometryRefused :
    ¬ ((12 : Nat) % 8 = 0 ∧ (8 ≤ 12 ∧ 12 ≤ 128) ∧ (6 ≤ 6 ∧ 6 ≤ 8 ∧ 8 ≤ 256)) ∧
      step { tiny with cfg := { tinyConfig with h := 12 } } = .refused .badConfiguration :=
  ⟨by decide, rfl⟩
theorem witness_NopOnlyAdvances :
    (State.cfg { tiny with stream := [0x00000000#32] }).Valid ∧ tiny.cab = [] ∧
      (opcodeOf 0x00000001#32 = 0x00#8 ∧ 0x00000001#32 ≠ 0) := by decide +kernel
/-- The corners of the window, and a coordinate outside each of its sides. -/
theorem witness_SetPixelWritesOneBit :
    Ready tiny ∧ tiny.InWindow 0 0 ∧ tiny.InWindow 5 7 ∧ ¬ tiny.InWindow (-1) 0 ∧ ¬ tiny.InWindow 6 0 ∧
      ¬ tiny.InWindow 0 (-1) ∧ ¬ tiny.InWindow 0 8 := by decide +kernel
theorem witness_SetPixelReadsBack : Ready tiny ∧ tiny.InWindow 5 7 := by decide +kernel
theorem witness_FillsWriteEveryByte : tiny.fbOk = true := by decide
theorem witness_ClearForgetsDrawing :
    tiny.fbOk = true ∧
      ∃ u, execAll [.startFrame false, .fillRect 0 0 2 2, .setColor false] tiny = .next u :=
  ⟨by decide, next_of_isSome (by decide +kernel)⟩
theorem witness_FillRectPaintsRectangle : Ready tiny := tiny_ready
theorem witness_FillRectIsLiteralLoop : Ready tiny := tiny_ready
theorem witness_DrawRectPaintsBorder : Ready tiny := tiny_ready
theorem witness_ThinRectanglesAreFilled : Ready tiny ∧ ((2 : Int) ≤ 2 ∨ (5 : Int) ≤ 2) := by
  decide +kernel
theorem witness_EmptySizesDrawNothing :
    (absent.fbOk = false ∧ ((0 : Int) ≤ 0 ∨ (5 : Int) ≤ 0)) ∧
      (tiny.FbSound ∧ ((5 : Int) ≤ 0 ∨ (-1 : Int) ≤ 0)) := by decide +kernel
theorem witness_CursorAndColorStored : Fits16 (-32768) ∧ Fits16 32767 := by decide
theorem witness_ReadFbReturnsByte :
    absent.fbOk = false ∧ (Ready tiny ∧ 7 < tiny.cfg.fbSize) ∧
      (tiny.fbOk = true ∧ tiny.cfg.fbSize ≤ 8 ∧ 8 < 65536) := by decide +kernel
theorem witness_AbsentFramebufferIsNoOp :
    absent.fbOk = false ∧ isDrawing (.print []) = true ∧ absent.cfg.Valid ∧
      decodeCommand [0x21000000#32] = .command (.print []) 1 := by decide +kernel
theorem witness_TextSizeAndWidth : 65535 < 65536 := by decide
theorem witness_DrawCharPaintsCell : Ready tiny := tiny_ready
theorem witness_AlignedCellHoldsGlyphBytes :
    Ready screen ∧ screen.color = true ∧ 8 % 8 = 0 ∧ 8 + 8 ≤ screen.cfg.h ∧ 122 + 5 < screen.cfg.w ∧
      0x20 ≤ (0x7E : Byte).toNat ∧ (0x7E : Byte).toNat ≤ 0x7E := by decide +kernel
/-- A character that fits its line, one that wraps to the next, and one that wraps below the last line. -/
theorem witness_PrintNextCharacter :
    (Ready screen ∧ screen.CursorInRange ∧ ((0, 0) : Int × Int) =
      (if screen.cursorX.toInt + 6 > screen.cfg.w then (0, screen.cursorY.toInt + 8)
        else (screen.cursorX.toInt, screen.cursorY.toInt)) ∧ (0 : Int) + 8 ≤ screen.cfg.h) ∧
    (let s := { screen with cursorX := 123 }
     Ready s ∧ s.CursorInRange ∧ ((0, 8) : Int × Int) =
      (if s.cursorX.toInt + 6 > s.cfg.w then (0, s.cursorY.toInt + 8)
        else (s.cursorX.toInt, s.cursorY.toInt)) ∧ (8 : Int) + 8 ≤ s.cfg.h) ∧
    (let s := { screen with cursorX := 123, cursorY := 8 }
     Ready s ∧ s.CursorInRange ∧ ((0, 16) : Int × Int) =
      (if s.cursorX.toInt + 6 > s.cfg.w then (0, s.cursorY.toInt + 8)
        else (s.cursorX.toInt, s.cursorY.toInt)) ∧ (16 : Int) + 8 > s.cfg.h) := by decide +kernel
theorem witness_PrintChangesFbAndCursorOnly :
    Ready tiny ∧ ∀ x y b, tiny.translate x y ≠ some (7, b) := by
  refine ⟨tiny_ready, fun x y b h => ?_⟩
  obtain ⟨hw, ha, -⟩ := translate_eq_some.1 h
  have h1 : x < 6 := hw.2.1
  have h2 : y < 8 := hw.2.2.2
  have h3 : (7 : Nat) = y.toNat / 8 * 8 + (x.toNat + 0) := ha
  omega
theorem witness_PrintInPieces : Ready tiny := tiny_ready
theorem witness_PrintCapacity : Ready screen ∧ screen.cursorX = 0 ∧ screen.cursorY = 0 := by decide +kernel
theorem witness_DrawXbmPaintsSetBits : Ready tiny := tiny_ready
theorem witness_WideBitmapIgnoresFlipH : Ready tiny ∧ (100 : Int) ≤ 100 := by decide +kernel
theorem witness_NarrowBitmapMirrored :
    Ready tiny ∧ (0 : Int) < 2 ∧ (2 : Int) < 100 ∧ (0 : Int) ≤ 4 ∧ (4 : Int) + 2 ≤ tiny.cfg.w ∧
      (0 : Int) ≤ 7 ∧ (7 : Int) + 1 ≤ tiny.cfg.h ∧
      ∀ i j, InRect 4 7 2 1 i j → tiny.pixelAt i j = some false := by
  refine ⟨tiny_ready, by decide, by decide, by decide, by decide, by decide, by decide, ?_⟩
  rintro i j ⟨h1, h2, h3, h4⟩
  have hj : j = 7 := by omega
  have hi : i = 4 ∨ i = 5 := by omega
  rcases hi with rfl | rfl <;> subst hj <;> decide +kernel
theorem witness_BeginSequence : tiny.fbOk = true ∧ absent.fbOk = false := by decide
theorem witness_DisplayOnOff : tiny.pstate = .uninit ∧ tinyLit.pstate ≠ .uninit := by decide
theorem witness_EndFrameFlushes :
    tiny.pstate = .uninit ∧ tinyLit.pstate ≠ .uninit ∧ Ready tinyLit := by decide +kernel
theorem witness_SetOffsetClampsAndFlushes :
    (tiny.cfg.Valid ∧ ((0 : Nat) : Int) = min (max (-5) 0) (tiny.cfg.iw - tiny.cfg.w : Int) ∧
      tiny.pstate = .uninit) ∧
    (tinyLit.cfg.Valid ∧ ((2 : Nat) : Int) = min (max 32767 0) (tinyLit.cfg.iw - tinyLit.cfg.w : Int) ∧
      tinyLit.pstate ≠ .uninit ∧ Ready tinyLit) := by decide +kernel
theorem witness_OffsetClampLaw :
    tiny.cfg.w ≤ tiny.cfg.iw ∧ (0 : Int) ≤ 0 ∧ (tiny.cfg.iw : Int) - tiny.cfg.w ≤ 2 := by decide
theorem witness_OffsetMovesNoByte :
    Ready tinyLit ∧ (∃ t, exec (.setOffset 1) tinyLit = .next t) ∧ tinyLit.InWindow 5 7 :=
  ⟨tinyLit_ready, next_of_isSome (by decide +kernel), by decide⟩
theorem witness_SpiFrequencyClamped : tinyLit.pstate ≠ .uninit := by decide
theorem witness_WireOrder :
    ([0xB0#8, 0x10#8] : List Byte)[1]? = some 0x10#8 ∧ 0 < 8 ∧ 7 < 8 := by decide
theorem witness_UninitEmitsNothing :
    tiny.pstate = .uninit ∧ Instr.setOffset 1 ≠ .beginInit ∧ ∃ t, exec (.setOffset 1) tiny = .next t :=
  ⟨by decide, by decide, next_of_isSome (by decide +kernel)⟩
theorem witness_ProtocolStateTransitions :
    (∃ t, exec .beginInit tiny = .next t) ∧ (∃ t, exec .turnOff tinyLit = .next t) ∧
      ∃ t, exec .endFrame tinyLit = .next t :=
  ⟨next_of_isSome (by decide +kernel), next_of_isSome (by decide +kernel),
    next_of_isSome (by decide +kernel)⟩
/-- A step that emits a `DATA` transaction. -/
theorem witness_OnlyFlushesSendData :
    (∃ t, step { tinyLit with stream := [0x44000000#32] } = .next t) ∧
      (nextOf (step { tinyLit with stream := [0x44000000#32] })).map
        (·.out.contains (.txn .data 1000000#32 [0, 0, 0, 0, 0, 0])) = some true :=
  ⟨next_of_isSome (by decide +kernel), by decide +kernel⟩
theorem witness_TransactionsUseCurrentClock : ∃ t, exec .turnOn tinyLit = .next t :=
  next_of_isSome (by decide +kernel)
theorem witness_CommandBytesFromTable :
    (∃ t, exec (.setContrast 0xFF 0xFF) tinyLit = .next t) ∧ tinyLit.cfg.Valid ∧
      tinyLit.offset ≤ tinyLit.cfg.offsetMax :=
  ⟨next_of_isSome (by decide +kernel), by decide +kernel⟩
theorem witness_EveryCommandCompletes :
    Ready tiny ∧ absent.fbOk = false ∧ absent.pstate = .uninit := by decide +kernel
/-- One command of each clause changes its register. -/
theorem witness_RegistersKeepTheirWriters :
    (nextOf (exec (.setCursor 1 1) tiny)).map (·.cursorX != tiny.cursorX) = some true ∧
    (nextOf (exec (.setColor false) tiny)).map (·.color != tiny.color) = some true ∧
    (nextOf (exec (.setOffset 1) tiny)).map (·.offset != tiny.offset) = some true ∧
    (nextOf (exec (.configureOrientation true true false) tiny)).map (·.segRemap != tiny.segRemap) =
      some true ∧
    (nextOf (exec (.setSpiFrequency 0) tiny)).map (·.spiHz != tiny.spiHz) = some true ∧
    (nextOf (exec (.setBitmapMsbLeft true) tiny)).map (·.bmpMsbLeft != tiny.bmpMsbLeft) = some true ∧
    (nextOf (exec (.setBitmapFlipH true) tiny)).map (·.bmpFlipH != tiny.bmpFlipH) = some true ∧
    (nextOf (exec (.setBitmapFlipV true) tiny)).map (·.bmpFlipV != tiny.bmpFlipV) = some true ∧
    (nextOf (exec .turnOff tinyLit)).map (·.pstate != tinyLit.pstate) = some true ∧
    (nextOf (exec (.getTextWidth 1) tiny)).map (·.result != tiny.result) = some true ∧
    (nextOf (exec .beginInit tiny)).map (·.rstLine != tiny.rstLine) = some true ∧
    (nextOf (exec (.readFb 8) tiny)).map (·.ill != tiny.ill) = some true ∧
    (nextOf (exec (.setPixel 0 0 true) tiny)).map (·.fb != tiny.fb) = some true := by decide +kernel
theorem witness_HiddenColumnsKept :
    (∃ t, exec (.fillRect 0 0 6 8) tiny = .next t) ∧ Instr.fillRect 0 0 6 8 ≠ .clear ∧
      (∀ bg, Instr.fillRect 0 0 6 8 ≠ .startFrame bg) ∧ ∀ x y b, tiny.translate x y ≠ some (7, b) :=
  ⟨next_of_isSome (by decide +kernel), by decide, by decide, witness_PrintChangesFbAndCursorOnly.2⟩
theorem witness_ResetMeetsInv : tinyConfig.Valid := by decide +kernel
theorem tiny_inv : tiny.Inv where
  config := by decide +kernel
  fbShape := by decide +kernel
  offset := by decide +kernel
  cursor := by decide +kernel
  spi := by decide +kernel
  notInitializing := by decide +kernel
  absentUninit := by decide +kernel
  faultRecord := by decide +kernel
  cab := by decide +kernel
theorem witness_StepKeepsInv :
    (tiny.deliver [0x00000000#32]).Inv ∧ ∃ t, step (tiny.deliver [0x00000000#32]) = .next t :=
  ⟨{ config := tiny_inv.config, fbShape := tiny_inv.fbShape, offset := tiny_inv.offset,
     cursor := tiny_inv.cursor, spi := tiny_inv.spi, notInitializing := tiny_inv.notInitializing,
     absentUninit := tiny_inv.absentUninit, faultRecord := tiny_inv.faultRecord, cab := tiny_inv.cab },
    next_of_isSome (by decide +kernel)⟩
/-- A state of the invariant whose step is the refusal to go on without words. -/
theorem witness_StepNeverStopsWithWords : tiny.Inv ∧ step tiny = .refused .awaitingWords :=
  ⟨tiny_inv, by rw [step, if_pos tiny_inv.config]; rfl⟩

end Sys2Proof.Tests
end

section
/-! The refusal of configurations outside R7 (00_scope.md). -/

namespace Sys2Proof.Proofs
open Sys2Proof.Machine Sys2Proof.Claims

/-- A step from a configuration that is not valid is the refusal of R7. -/
theorem step_of_not_valid {s : State} (h : ¬ s.cfg.Valid) : step s = .refused .badConfiguration :=
  if_neg h

/-- Settles O13: a configuration whose geometry violates R7 is not valid, and `step` refuses it. -/
theorem badGeometryRefused : Obligations.BadGeometryRefused := by
  intro s hbad
  refine step_of_not_valid fun hvalid => hbad ?_
  obtain ⟨⟨hrows, hmin, hmax, hwidth⟩, -⟩ := hvalid
  exact ⟨hrows, ⟨hmin, hmax⟩, hwidth⟩

end Sys2Proof.Proofs
end

section
/-! Payload packing in decoded commands (20_memory.md, R65). -/

namespace Sys2Proof.Proofs

/-- The payload words in the stream after a command's argument words hold exactly `n` bytes. -/
theorem payloadBytes_take_length {n : Nat} {ws : List Word} (h : payloadWords n ≤ ws.length) :
    (payloadBytes n (ws.take (payloadWords n))).length = n :=
  payloadBytes_length (List.length_take_of_le h).ge

/-- Payload byte `k` read from the stream: the word `k div 4` is one of the `ceil(n / 4)` payload words. -/
theorem payloadBytes_take_getElem? {n k : Nat} {ws : List Word} (h : payloadWords n ≤ ws.length)
    (hk : k < n) :
    ∃ v, ws[k / 4]? = some v ∧
      (payloadBytes n (ws.take (payloadWords n)))[k]? = some (v.extractLsb' (8 * (k % 4)) 8) := by
  have hword : k / 4 < payloadWords n := by unfold payloadWords; omega
  have hget : ws[k / 4]? = some ws[k / 4] := List.getElem?_eq_getElem (by omega)
  refine ⟨ws[k / 4], hget, ?_⟩
  rw [payloadBytes_getElem? _ hk, List.getElem?_take_of_lt hword, hget, Option.map_some]

/-- Settles O7: a decoded command's payload is `payloadBytes` of the words after its header and argument words, of which
the decoder has checked that there are `ceil(N / 4)`. -/
theorem payloadBytesLittleEndian : Obligations.PayloadBytesLittleEndian := by
  constructor
  · intro ws text n hdec
    obtain ⟨hd, rest, rfl, rfl, hle, rfl⟩ := decodeCommand_print hdec
    have hwords : payloadWords (imm16 hd) ≤ rest.length := by
      rw [List.length_cons] at hle; omega
    rw [Nat.add_sub_cancel_left, payloadBytes_take_length hwords]
    refine ⟨⟨hd, rfl, rfl⟩, rfl, fun k hk => ?_⟩
    rw [Nat.add_comm 1, List.getElem?_cons_succ]
    exact payloadBytes_take_getElem? hwords hk
  · intro ws x y w h bytes n hdec
    obtain ⟨hd, a1, a2, rest, rfl, rfl, hle, -, rfl⟩ := decodeCommand_drawXbm hdec
    have hwords : payloadWords (xbmBytes w h) ≤ rest.length := by
      simp only [List.length_cons] at hle; omega
    rw [Nat.add_sub_cancel_left, payloadBytes_take_length hwords]
    refine ⟨rfl, rfl, fun k hk => ?_⟩
    rw [Nat.add_comm 3]
    exact payloadBytes_take_getElem? hwords hk

end Sys2Proof.Proofs
end

section
/-! The framebuffer unit: one pixel write, the whole-buffer fills, and the framebuffer-absent guard
(40_framebuffer.md, R100 to R105). -/

namespace Sys2Proof.Proofs
open Sys2Proof.Machine Sys2Proof.Claims

/-! ## One pixel write (R100, R103) -/

/-- On a sound framebuffer `SET_PIXEL` is `SetPixel` with the operand's value. -/
theorem exec_setPixel_of_ready {s : State} (hs : Ready s) (x y : Int) (v : Bool) :
    exec (.setPixel x y v) s = .next (setPixel x y v s) :=
  guardFb_ready hs.1 hs.2 _

/-- Settles O15: outside the window there is no translated byte; inside, `SetPixel` is one write of the translated byte,
so it reads back at that index and every other index reads as before. -/
theorem setPixelWritesOneBit : Obligations.SetPixelWritesOneBit := by
  intro s x y v hs
  rw [exec_setPixel_of_ready hs]
  constructor
  · intro hout
    rw [setPixel_of_not v hout]
  · intro hin
    obtain ⟨old, hold, hset⟩ := setPixel_of_translate hs.2 v (translate_of_inWindow hin)
    obtain ⟨-, hwf, -⟩ := hs.2
    exact ⟨old, _, congrArg _ hset, Memory.write_wf hwf _ _, hold, Memory.read_write_same _ hold,
      fun a ha => Memory.read_write_ne _ _ ha⟩

/-! ## The fills (R101, R104, R105) -/

theorem exec_clear_of_fbOk {s : State} (h : s.fbOk = true) :
    exec .clear s = .next (resetDrawing (fill 0x00#8 s)) :=
  if_neg (by simp [h])

theorem exec_startFrame_of_fbOk {s : State} (h : s.fbOk = true) (bg : Bool) :
    exec (.startFrame bg) s = .next (resetDrawing (fill (if bg then 0xFF#8 else 0x00#8) s)) :=
  if_neg (by simp [h])

/-- A fill followed by the reset of the drawing state: every byte of the index space holds `v`, and nothing but the
framebuffer, the cursor and the colour differs. -/
theorem resetDrawing_fill_writes_every_byte (v : Byte) (s : State) :
    ∃ m, resetDrawing (fill v s) = { s with fb := m, cursorX := 0, cursorY := 0, color := true } ∧
      Memory.wf s.cfg.fbSize m ∧ ∀ a, a < s.cfg.fbSize → Memory.read m a = some v := by
  refine ⟨Memory.filled s.cfg.fbSize v, rfl, Memory.filled_wf _ v, fun a ha => ?_⟩
  rw [Memory.read_filled, if_pos ha]

/-- Settles O17: both commands are a fill of the whole index space and the reset of the drawing state. -/
theorem fillsWriteEveryByte : Obligations.FillsWriteEveryByte := by
  intro s h
  constructor
  · rw [exec_clear_of_fbOk h]
    obtain ⟨m, hm, hbytes⟩ := resetDrawing_fill_writes_every_byte 0x00#8 s
    exact ⟨m, congrArg _ hm, hbytes⟩
  · intro bg
    rw [exec_startFrame_of_fbOk h]
    obtain ⟨m, hm, hbytes⟩ := resetDrawing_fill_writes_every_byte (if bg then 0xFF#8 else 0x00#8) s
    exact ⟨m, congrArg _ hm, hbytes⟩

/-! ## The framebuffer-absent guard (R102) -/

/-- Each of the eight drawing commands changes no state when there is no framebuffer. -/
theorem exec_drawing_of_absent {i : Instr} {s : State} (hi : isDrawing i = true) (h : s.fbOk = false) :
    exec i s = .next s := by
  cases i with
  | setPixel x y v => exact guardFb_absent h _
  | clear => exact if_pos h
  | startFrame bg => exact if_pos h
  | fillRect x y w hh => exact guardFb_absent h _
  | drawRect x y w hh => exact guardFb_absent h _
  | drawChar x y c => exact guardFb_absent h _
  | print text => exact guardFb_absent h _
  | drawXbm x y w hh bytes => exact guardFb_absent h _
  | _ => exact nomatch hi

/-- `READ_FB` without a framebuffer writes `RESULT <- 0`, whatever the index. -/
theorem exec_readFb_of_absent {s : State} (h : s.fbOk = false) (index : Nat) :
    exec (.readFb index) s = .next (s.setResult 0) :=
  if_pos h

/-- The step of a whole command at the head of the pending words: its meaning, then its words retired (R211). -/
theorem step_of_command {s : State} {i : Instr} {n : Nat} (hv : s.cfg.Valid)
    (hd : decodeCommand s.pending = .command i n) : step s = retireOutcome n (exec i s) := by
  rw [step, if_pos hv, hd]

/-- Settles O26: the guard answers the state itself, so the step only retires the command's words. -/
theorem absentFramebufferIsNoOp : Obligations.AbsentFramebufferIsNoOp := by
  intro s i h
  constructor
  · intro hi
    have hexec := exec_drawing_of_absent hi h
    refine ⟨hexec, fun n hv hd => ?_⟩
    rw [step_of_command hv hd, hexec]
    rfl
  · exact exec_readFb_of_absent h

end Sys2Proof.Proofs
end

section
/-! The sequencer's `NOP` (44_control.md, R210) and the headers that share its opcode. -/

namespace Sys2Proof.Proofs
open Sys2Proof.Machine Sys2Proof.Claims

/-- The decoder on the words of a known opcode that are all there, with a reserved header bit set (R85): the counterpart
of `decodeCommand_of`. -/
theorem decodeCommand_of_reserved {hd : Word} {rest : List Word} {op : Op}
    (hop : Op.ofCode (opcodeOf hd) = some op) (hr : reservedSet op hd = true)
    (ha : op.format.args ≤ rest.length)
    (hl : commandLength op.format hd (rest.getD 1 0) ≤ (hd :: rest).length) :
    decodeCommand (hd :: rest) =
      .illegal .reservedBits hd (commandLength op.format hd (rest.getD 1 0)) := by
  simp only [decodeCommand, hop, if_neg (Nat.not_lt.2 ha), if_neg (Nat.not_lt.2 hl), if_pos hr]

/-- Format Z names no field, so every header bit of `NOP` is tested: a reserved bit is set in every header but 0. -/
theorem reservedSet_nop_iff {h : Word} : reservedSet .nop h = true ↔ h ≠ 0 := by
  have hmask : Op.nop.format.mask = BitVec.allOnes 32 := by decide
  have hmatch : Op.nop.matchWord = 0 := by decide
  rw [reservedSet, hmask, hmatch, BitVec.and_allOnes, bne_iff_ne]

/-- The zero word is `NOP`, whatever words follow it. -/
theorem decodeCommand_zero (rest : List Word) :
    decodeCommand (0x00000000#32 :: rest) = .command .nop 1 :=
  decodeCommand_of (op := .nop) (by decide) (Nat.zero_le _) (Nat.le_add_left 1 _)

theorem exec_nop (s : State) : exec .nop s = .next s := rfl

/-- Settles O14: a step over the zero header is `NOP`'s empty effect and the retirement of one word; every other header
of opcode 0 has a reserved bit set. -/
theorem nopOnlyAdvances : Obligations.NopOnlyAdvances := by
  refine ⟨exec_nop, fun s rest hvalid hcab hstream => ?_, fun h rest hopc hne => ?_⟩
  · have hpending : s.pending = 0x00000000#32 :: rest := by
      rw [State.pending, hcab, hstream, List.nil_append]
    have hdec : decodeCommand s.pending = .command .nop 1 := by
      rw [hpending, decodeCommand_zero]
    have hretire : retire 1 s = { s with csp := s.csp + 1, stream := rest } := by
      rw [retire, hpending, hcab, List.drop_one, List.tail_cons]
    rw [step_of_command hvalid hdec, exec_nop, retireOutcome, hretire]
  · have hop : Op.ofCode (opcodeOf h) = some .nop := Op.ofCode_eq_some.2 hopc
    exact decodeCommand_of_reserved hop (reservedSet_nop_iff.2 hne) (Nat.zero_le _)
      (Nat.le_add_left 1 _)

end Sys2Proof.Proofs
end

section
/-! Command faults (60_exceptions.md, R221): what `raise ILLEGAL` records, its three causes, and the record once `ILL` is
1. -/

namespace Sys2Proof.Proofs
open Sys2Proof.Machine Sys2Proof.Claims

/-! ## The fault record is kept -/

/-- The fault record of R43, that is `ILL`, `CAUSE` and `FAULT_WORD`, is the same in both states. -/
def SameFaultRecord (s t : State) : Prop :=
  t.ill = s.ill ∧ t.cause = s.cause ∧ t.faultWord = s.faultWord

theorem SameFaultRecord.refl (s : State) : SameFaultRecord s s := ⟨rfl, rfl, rfl⟩

theorem sameFaultRecord_of_drawn {s t : State} (h : Drawn s t) : SameFaultRecord s t := by
  obtain ⟨-, rfl⟩ | ⟨-, -, ps, rfl⟩ := h
  · exact .refl t
  · rw [paint_eq]
    exact ⟨rfl, rfl, rfl⟩

theorem sameFaultRecord_of_filled {v : Byte} {s t : State} (h : Filled v s t) :
    SameFaultRecord s t := by
  obtain ⟨-, rfl⟩ | ⟨-, rfl⟩ := h <;> exact ⟨rfl, rfl, rfl⟩

theorem sameFaultRecord_of_gated {p : PState} {es : List Event} {s t : State} (h : Gated p es s t) :
    SameFaultRecord s t := by
  obtain ⟨-, rfl⟩ | ⟨-, rfl⟩ := h <;> exact ⟨rfl, rfl, rfl⟩

theorem sameFaultRecord_of_flushed {s t : State} (h : Flushed s t) : SameFaultRecord s t := by
  obtain ⟨-, rfl⟩ | ⟨-, -, -, rfl⟩ := h <;> exact ⟨rfl, rfl, rfl⟩

theorem sameFaultRecord_printText (text : List Byte) (s : State) :
    SameFaultRecord s (printText text s) := by
  rw [printText_eq]
  exact ⟨rfl, rfl, rfl⟩

/-- `READ_FB` is the only command whose meaning can raise a fault: every other one keeps the record. -/
theorem exec_sameFaultRecord {i : Instr} {s t : State} (h : exec i s = .next t)
    (hi : ∀ index, i ≠ .readFb index) : SameFaultRecord s t := by
  have heff := exec_effect h
  cases i with
  | readFb index => exact absurd rfl (hi index)
  | setPixel | fillRect | drawRect | drawChar | drawXbm => exact sameFaultRecord_of_drawn heff
  | clear | startFrame => exact sameFaultRecord_of_filled heff
  | turnOn | turnOff | setContrast | setInverse => exact sameFaultRecord_of_gated heff
  | configureOrientation a b c =>
    exact sameFaultRecord_of_gated (s := s.setOrientation a b c) heff
  | endFrame => exact sameFaultRecord_of_flushed heff
  | setOffset ox => exact sameFaultRecord_of_flushed (s := s.setOffset (s.clampOffset ox)) heff
  | print text =>
    obtain ⟨-, rfl⟩ | ⟨-, -, rfl⟩ := heff
    · exact .refl t
    · exact sameFaultRecord_printText text s
  | beginInit => obtain ⟨-, rfl⟩ | ⟨-, rfl⟩ := heff <;> exact ⟨rfl, rfl, rfl⟩
  | getTextWidth | isOn =>
    obtain ⟨r, rfl⟩ := heff
    exact ⟨rfl, rfl, rfl⟩
  | nop | setCursor | setColor | setTextSize | setBitmapMsbLeft | setBitmapFlipH | setBitmapFlipV
  | setSpiFrequency =>
    obtain rfl := heff
    exact ⟨rfl, rfl, rfl⟩

/-- Once `ILL` is 1, raising a fault changes nothing (R221). -/
theorem raiseIllegal_of_ill {s : State} (h : s.ill = true) (c : Cause) (w : Word) :
    raiseIllegal c w s = s :=
  if_pos h

/-- Once `ILL` is 1, no command changes the record: `READ_FB` raises its fault into a record that is kept. -/
theorem exec_sameFaultRecord_of_ill {i : Instr} {s t : State} (h : exec i s = .next t)
    (hill : s.ill = true) : SameFaultRecord s t := by
  by_cases hi : ∃ index, i = .readFb index
  · obtain ⟨index, rfl⟩ := hi
    obtain ⟨r, rfl⟩ | rfl := exec_effect h
    · exact ⟨rfl, rfl, rfl⟩
    · rw [raiseIllegal_of_ill hill]
      exact .refl s
  · exact exec_sameFaultRecord h (not_exists.1 hi)

/-- `ILL` is sticky and the first fault's cause and word are kept, over every kind of step. -/
theorem step_sameFaultRecord_of_ill {s t : State} (h : step s = .next t) (hill : s.ill = true) :
    SameFaultRecord s t := by
  obtain ⟨-, ⟨-, -, rfl⟩ | ⟨kind, w, n, -, rfl⟩ | ⟨i, n, u, -, hexec, rfl⟩⟩ := step_cases h
  · exact ⟨rfl, rfl, rfl⟩
  · rw [raiseIllegal_of_ill hill]
    exact ⟨rfl, rfl, rfl⟩
  · have hkept : SameFaultRecord s u := exec_sameFaultRecord_of_ill hexec hill
    exact hkept

/-! ## The step of a faulting command -/

/-- A faulting command of `n` words: the record is set as R221 says, its words are consumed, nothing else differs. -/
theorem retire_raiseIllegal (n : Nat) (c : Cause) (w : Word) (s : State) :
    retire n (raiseIllegal c w s) =
      { s with
        ill := true
        cause := if s.ill then s.cause else c
        faultWord := if s.ill then s.faultWord else w
        csp := s.csp + n, cab := [], stream := s.pending.drop n } := by
  rw [raiseIllegal_eq]
  rfl

/-- The step of an illegal header at the head of the pending words (R85, R211): the counterpart of `step_of_command`. -/
theorem step_of_illegal {s : State} {kind : HeaderFault} {w : Word} {n : Nat} (hv : s.cfg.Valid)
    (hd : decodeCommand s.pending = .illegal kind w n) :
    step s = .next (retire n (raiseIllegal (causeOf kind) w s)) := by
  rw [step, if_pos hv, hd]

/-- An unknown opcode consumes its header only (R85). -/
theorem length_of_unknownOpcode {ws : List Word} {w : Word} {n : Nat}
    (h : decodeCommand ws = .illegal .unknownOpcode w n) : n = 1 := by
  cases ws with
  | nil => exact nomatch h
  | cons hd rest =>
    cases hop : Op.ofCode (opcodeOf hd) with
    | none =>
      simp only [decodeCommand, hop, Fetched.illegal.injEq] at h
      obtain ⟨-, -, rfl⟩ := h
      rfl
    | some op =>
      simp only [decodeCommand, hop] at h
      split_ifs at h
      exact nomatch h

/-- `READ_FB` is one word and its index is the 16-bit field of its header (R82, R83). -/
theorem decodeCommand_readFb {ws : List Word} {index n : Nat}
    (h : decodeCommand ws = .command (.readFb index) n) : n = 1 ∧ index < 65536 := by
  obtain ⟨hd, rest, op, -, -, -, -, hn, -, hi⟩ := decodeCommand_command h
  cases op <;> simp only [assembleOperands, reduceCtorEq, Instr.readFb.injEq] at hi
  exact ⟨hn, hi ▸ imm16_lt hd⟩

/-- The header `READ_FB` records: its opcode with the index below it, for every index its field can hold. -/
theorem header_readFb {index : Nat} (h : index < 65536) :
    (Instr.readFb index).header = 0x17000000#32 ||| BitVec.ofNat 32 index := by
  have hmatch : Op.readFb.matchWord = 0x17000000#32 := by decide
  have hfield : (BitVec.ofNat 16 index).setWidth 32 = BitVec.ofNat 32 index :=
    BitVec.setWidth_ofNat_of_le_of_lt (by decide) h
  rw [Instr.header, Instr.op, Instr.headerFields, hmatch, hfield]

/-- `READ_FB` of an index outside `FB` raises cause 3 (R110). -/
theorem exec_readFb_out_of_range {s : State} {index : Nat} (hfb : s.fbOk = true)
    (hi : s.cfg.fbSize ≤ index) :
    exec (.readFb index) s =
      .next (raiseIllegal .fbIndexRange (Instr.readFb index).header s) :=
  (if_neg (by simp [hfb])).trans (if_pos hi)

/-- Settles O10: each cause is `raise ILLEGAL` and the retirement of the command's words, and a record whose `ILL` is 1 is
kept by every step. -/
theorem commandFaultsRecord : Obligations.CommandFaultsRecord := by
  refine ⟨⟨rfl, rfl, rfl⟩, fun s t hstep hill => ?_, fun s hv => ⟨?_, ?_, ?_⟩⟩
  · obtain ⟨hIll, hCause, hWord⟩ := step_sameFaultRecord_of_ill hstep hill
    exact ⟨hIll.trans hill, hCause, hWord⟩
  · intro w n hd
    obtain rfl := length_of_unknownOpcode hd
    rw [step_of_illegal hv hd, retire_raiseIllegal]
    exact ⟨rfl, rfl⟩
  · intro w n hd
    rw [step_of_illegal hv hd, retire_raiseIllegal]
    rfl
  · intro index n hd hfb hrange
    obtain ⟨rfl, hindex⟩ := decodeCommand_readFb hd
    rw [step_of_command hv hd, exec_readFb_out_of_range hfb hrange, header_readFb hindex,
      retireOutcome, retire_raiseIllegal]
    exact ⟨rfl, rfl⟩

end Sys2Proof.Proofs
end

section
/-! Block reset (70_reset_and_hazards.md, R250, R252). -/

namespace Sys2Proof.Proofs
open Sys2Proof.Machine Sys2Proof.Claims

/-- The stored bus clock is the clamped request: `SPI_HZ_MAX` fits in a word, so nothing is lost (R10, R39). -/
theorem clampHz_toNat (hz : Word) : (clampHz hz).toNat = min (max hz.toNat 100000) 8000000 :=
  have hfits : min (max hz.toNat 100000) 8000000 < 2 ^ 32 :=
    (Nat.min_le_right _ 8000000).trans_lt (by decide)
  (BitVec.toNat_ofNat _ _).trans (Nat.mod_eq_of_lt hfits)

/-- Settles O57: `resetWith` gives every element its reset value outright; only `SPI_HZ` is computed, by the clamp. -/
theorem resetValues : Obligations.ResetValues := by
  intro c
  have hclock : (State.resetWith c).spiHz.toNat = min (max c.spiHzReset.toNat 100000) 8000000 :=
    clampHz_toNat c.spiHzReset
  exact ⟨rfl, rfl, rfl, rfl, rfl, rfl, rfl, rfl, rfl, hclock,
    rfl, rfl, rfl, rfl, rfl, rfl, rfl, rfl, rfl, rfl, rfl, rfl, rfl⟩

end Sys2Proof.Proofs
end

section
/-! The decoder and the encoder (30_encoding.md): each undoes the other, the opcode map, illegal headers and lengths. -/

namespace Sys2Proof.Proofs
open Sys2Proof.Machine Sys2Proof.Claims

/-! ## Decoding an encoded command (R80 to R83) -/

theorem encodeLength (i : Instr) : Laws.EncodeLength.Statement i := by
  cases i with
  | print text => exact Laws.EncodeLength.print text
  | drawXbm x y w h bytes => exact Laws.EncodeLength.drawXbm x y w h bytes
  | _ => exact fun _ => rfl

/-- The words after a command do not change the length its own words announce. -/
theorem commandLength_operandWords_append (i : Instr) (rest : List Word) :
    commandLength i.op.format i.header ((i.operandWords ++ rest).getD 1 0) =
      commandLength i.op.format i.header (i.operandWords.getD 1 0) := by
  cases i <;> rfl

theorem args_le_operandWords (i : Instr) : i.op.format.args ≤ i.operandWords.length := by
  cases i <;> simp [Instr.op, Op.format, Format.args, Instr.operandWords]

/-- The three flags of format F3 are the header bits 0, 1 and 2 (R81). -/
theorem flags_header {i : Instr} {a b c : Bool}
    (h : i.headerFields = bitField a ||| bitField b <<< 1 ||| bitField c <<< 2) :
    i.header.getLsbD 0 = a ∧ i.header.getLsbD 1 = b ∧ i.header.getLsbD 2 = c := by
  rw [i.header_getLsbD (by decide), i.header_getLsbD (by decide), i.header_getLsbD (by decide), h]
  clear h
  decide +revert

/-- The two bytes of format RV are the header bytes 0 and 1 (R81). -/
theorem bytes_header {i : Instr} {r v : Byte}
    (h : i.headerFields = r.setWidth 32 ||| v.setWidth 32 <<< 8) :
    i.header.extractLsb' 0 8 = r ∧ i.header.extractLsb' 8 8 = v := by
  constructor
  · refine BitVec.eq_of_getLsbD_eq fun k hk => ?_
    have h32 : k < 32 := by omega
    rw [BitVec.getLsbD_extractLsb', i.header_getLsbD (by omega), h]
    simp [hk, h32]
  · refine BitVec.eq_of_getLsbD_eq fun k hk => ?_
    have h32 : 8 + k < 32 := by omega
    have hr : r.getLsbD (8 + k) = false := BitVec.getLsbD_of_ge _ _ (by omega)
    rw [BitVec.getLsbD_extractLsb', i.header_getLsbD (by omega), h, BitVec.getLsbD_or,
      BitVec.getLsbD_setWidth, hr]
    simp [hk, h32]

/-- The length field of `PRINT` holds every length a well-formed text has (R82). -/
theorem imm16_header_ofNat {i : Instr} {n : Nat} (hn : n < 65536)
    (h : i.headerFields = (BitVec.ofNat 16 n).setWidth 32) : imm16 i.header = n := by
  rw [imm16_header h, BitVec.toNat_ofNat, Nat.mod_eq_of_lt hn]

/-- Operand assembly on a command's own words gives its operands back (R82). -/
theorem assembleOperands_encode {i : Instr} (hwf : i.WellFormed) :
    assembleOperands i.op i.header i.operandWords = i := by
  cases i with
  | setPixel x y v =>
    obtain ⟨hx, hy⟩ := of_decide_eq_true hwf
    simp only [assembleOperands, Instr.op, Instr.operandWords, List.getD_cons_zero,
      loSigned_pairWord hx, hiSigned_pairWord hy, bit_header (i := .setPixel x y v) rfl]
  | fillRect x y w h | drawRect x y w h =>
    obtain ⟨hx, hy, hw, hh⟩ := of_decide_eq_true hwf
    simp only [assembleOperands, Instr.op, Instr.operandWords, List.getD_cons_zero,
      List.getD_cons_succ, loSigned_pairWord hx, hiSigned_pairWord hy, loSigned_pairWord hw,
      hiSigned_pairWord hh]
  | setCursor x y =>
    obtain ⟨hx, hy⟩ := of_decide_eq_true hwf
    simp only [assembleOperands, Instr.op, Instr.operandWords, List.getD_cons_zero,
      loSigned_pairWord hx, hiSigned_pairWord hy]
  | drawChar x y c =>
    obtain ⟨hx, hy⟩ := of_decide_eq_true hwf
    simp only [assembleOperands, Instr.op, Instr.operandWords, List.getD_cons_zero,
      loSigned_pairWord hx, hiSigned_pairWord hy, byte_header (i := .drawChar x y c) rfl]
  | drawXbm x y w h bytes =>
    obtain ⟨hx, hy, hw, hh, hbytes⟩ := of_decide_eq_true hwf
    simp only [assembleOperands, Instr.op, Instr.operandWords, List.getD_cons_zero,
      List.getD_cons_succ, List.drop_succ_cons, List.drop_zero, loSigned_pairWord hx,
      hiSigned_pairWord hy, loSigned_pairWord hw, hiSigned_pairWord hh, ← hbytes,
      payloadBytes_packBytes]
  | print text =>
    have hlen := imm16_header_ofNat (i := .print text) (of_decide_eq_true hwf) rfl
    simp only [assembleOperands, Instr.op, Instr.operandWords, hlen, payloadBytes_packBytes]
  | readFb n | getTextWidth n =>
    exact congrArg _ (imm16_header_ofNat (of_decide_eq_true hwf) rfl)
  | setOffset ox => exact congrArg _ (loSigned_header (of_decide_eq_true hwf) rfl)
  | setTextSize n => exact congrArg _ (byte_header rfl)
  | startFrame v | setColor v | setBitmapMsbLeft v | setBitmapFlipH v | setBitmapFlipV v
  | setInverse v => exact congrArg _ (bit_header rfl)
  | configureOrientation a b c =>
    obtain ⟨h0, h1, h2⟩ := flags_header (i := .configureOrientation a b c) rfl
    simp only [assembleOperands, Instr.op, h0, h1, h2]
  | setContrast r v =>
    obtain ⟨h0, h1⟩ := bytes_header (i := .setContrast r v) rfl
    simp only [assembleOperands, Instr.op, h0, h1]
  | _ => rfl

/-- Settles O3: the encoder's header selects its row, its words are as many as the length of that row announces, and each
field reads back as the operand it was built from. -/
theorem decodeOfEncode : Obligations.DecodeOfEncode := by
  intro i rest hwf
  refine decodeCommand_encode ?_ ?_ (assembleOperands_encode hwf)
  · rw [List.length_append]
    exact (args_le_operandWords i).trans (Nat.le_add_right _ _)
  · rw [commandLength_operandWords_append, ← encodeLength i hwf, encode, List.length_cons,
      Nat.add_comm]

/-! ## Encoding a decoded command (R81, R82) -/

theorem op_assembleOperands (op : Op) (h : Word) (rest : List Word) :
    (assembleOperands op h rest).op = op := by
  cases op <;> rfl

/-- The low `n` bits of a header are what a mask of `n` ones keeps of it. -/
theorem setWidth_extractLsb'_low {h m : Word} {n : Nat} (hm : ∀ k, m.getLsbD k = decide (k < n)) :
    (h.extractLsb' 0 n).setWidth 32 = h &&& m := by
  apply BitVec.eq_of_getLsbD_eq
  intro k hk
  rw [BitVec.getLsbD_and, hm, BitVec.getLsbD_setWidth, BitVec.getLsbD_extractLsb', Nat.zero_add,
    decide_eq_true hk, Bool.true_and, Bool.and_comm]

theorem field16_of_header (h : Word) : (h.extractLsb' 0 16).setWidth 32 = h &&& 0x0000FFFF#32 :=
  setWidth_extractLsb'_low getLsbD_ffff

theorem field8_of_header (h : Word) : (h.extractLsb' 0 8).setWidth 32 = h &&& 0x000000FF#32 :=
  setWidth_extractLsb'_low getLsbD_ff

theorem imm16_of_header (h : Word) :
    (BitVec.ofNat 16 (imm16 h)).setWidth 32 = h &&& 0x0000FFFF#32 := by
  rw [imm16, BitVec.ofNat_toNat, BitVec.setWidth_eq, field16_of_header]

theorem bitField_getLsbD (v : Bool) (k : Nat) :
    (bitField v).getLsbD k = (decide (k = 0) && v) := by
  cases v <;> simp [bitField]

theorem bit_of_header (h : Word) : bitField (h.getLsbD 0) = h &&& 0x00000001#32 := by
  apply BitVec.eq_of_getLsbD_eq
  intro k hk
  rw [bitField_getLsbD, BitVec.getLsbD_and]
  by_cases h0 : k = 0 <;> simp [h0]

theorem flags_of_header (h : Word) :
    bitField (h.getLsbD 0) ||| bitField (h.getLsbD 1) <<< 1 ||| bitField (h.getLsbD 2) <<< 2 =
      h &&& 0x00000007#32 := by
  have h7 : ∀ k : Fin 32, (0x00000007#32).getLsbD k = decide (k.val < 3) := by decide
  apply BitVec.eq_of_getLsbD_eq
  intro k hk
  rw [BitVec.getLsbD_and, h7 ⟨k, hk⟩]
  simp only [BitVec.getLsbD_or, BitVec.getLsbD_shiftLeft, bitField_getLsbD, hk]
  match k with
  | 0 | 1 | 2 => simp
  | k + 3 => simp

theorem bytes_of_header (h : Word) :
    (h.extractLsb' 0 8).setWidth 32 ||| (h.extractLsb' 8 8).setWidth 32 <<< 8 =
      h &&& 0x0000FFFF#32 := by
  apply BitVec.eq_of_getLsbD_eq
  intro k hk
  rw [BitVec.getLsbD_and, getLsbD_ffff]
  by_cases h8 : k < 8
  · have h16 : k < 16 := by omega
    simp [hk, h8, h16]
  · have h16 : k - 8 < 8 ↔ k < 16 := by omega
    have hk8 : 8 + (k - 8) = k := by omega
    simp [hk, h8, h16, hk8, Bool.and_comm]

/-- The operand words `ops` are as many as the header and the second argument word announce (R83). -/
def Complete (op : Op) (h : Word) (ops : List Word) : Prop :=
  ops.length + 1 = commandLength op.format h (ops.getD 1 0)

/-- Only format XBM reads the second argument word for its length, and it always has one (R83). -/
theorem commandLength_take (f : Format) (h : Word) (rest : List Word) :
    commandLength f h ((rest.take (commandLength f h (rest.getD 1 0) - 1)).getD 1 0) =
      commandLength f h (rest.getD 1 0) := by
  cases f with
  | xbm =>
    have hlt : 1 < commandLength .xbm h (rest.getD 1 0) - 1 := by
      rw [commandLength]; omega
    rw [List.getD_eq_getElem?_getD, List.getElem?_take_of_lt hlt, ← List.getD_eq_getElem?_getD]
  | _ => rfl

/-- The inversion of the decoder by the command's own words: header, operand words, whatever follows. -/
theorem decodeCommand_complete {ws : List Word} {i : Instr} {n : Nat}
    (h : decodeCommand ws = .command i n) :
    ∃ hd ops tail op, ws = hd :: ops ++ tail ∧ n = ops.length + 1 ∧
      hd &&& op.format.mask = op.matchWord ∧ Complete op hd ops ∧ i = assembleOperands op hd ops := by
  obtain ⟨hd, rest, op, rfl, -, hmask, -, hn, hle, rfl⟩ := decodeCommand_command h
  have hpos := args_lt_commandLength op.format hd (rest.getD 1 0)
  have hlen : (rest.take (n - 1)).length = n - 1 := List.length_take_of_le (by simp at hle; omega)
  refine ⟨hd, rest.take (n - 1), rest.drop (n - 1), op, ?_, by omega, hmask, ?_, rfl⟩
  · rw [List.cons_append, List.take_append_drop]
  · rw [Complete, hlen, hn, commandLength_take]
    omega

/-- The text of an assembled `PRINT` has the length its header announces. -/
theorem Complete.print_length {h : Word} {ops : List Word} (hc : Complete .print h ops) :
    (payloadBytes (imm16 h) ops).length = imm16 h :=
  payloadBytes_length (by simp only [Complete, Op.format, commandLength] at hc; omega)

/-- The words of a complete `DRAW_XBM` after its header: two argument words, then the payload its size announces. -/
theorem Complete.drawXbm_words {h : Word} {ops : List Word} (hc : Complete .drawXbm h ops) :
    ∃ a1 a2 payload, ops = a1 :: a2 :: payload ∧
      (payloadBytes (xbmBytes (loSigned a2) (hiSigned a2)) payload).length =
        xbmBytes (loSigned a2) (hiSigned a2) := by
  simp only [Complete, Op.format, commandLength] at hc
  match ops, hc with
  | a1 :: a2 :: payload, hc =>
    refine ⟨a1, a2, payload, rfl, payloadBytes_length ?_⟩
    simp only [List.length_cons, List.getD_cons_succ, List.getD_cons_zero] at hc
    omega
  | [], hc | [a], hc =>
    simp only [List.length_cons, List.length_nil] at hc
    omega

theorem wellFormed_assembleOperands {op : Op} {h : Word} {ops : List Word}
    (hc : Complete op h ops) : (assembleOperands op h ops).WellFormed := by
  cases op with
  | setPixel | setCursor | drawChar =>
    exact decide_eq_true ⟨fits16_loSigned _, fits16_hiSigned _⟩
  | fillRect | drawRect =>
    exact decide_eq_true
      ⟨fits16_loSigned _, fits16_hiSigned _, fits16_loSigned _, fits16_hiSigned _⟩
  | readFb | getTextWidth => exact decide_eq_true (imm16_lt h)
  | setOffset => exact decide_eq_true (fits16_loSigned h)
  | print => exact decide_eq_true (hc.print_length.trans_lt (imm16_lt h))
  | drawXbm =>
    obtain ⟨a1, a2, payload, rfl, hlen⟩ := hc.drawXbm_words
    exact decide_eq_true ⟨fits16_loSigned _, fits16_hiSigned _, fits16_loSigned _,
      fits16_hiSigned _, hlen⟩
  | _ => rfl

/-- The operand fields of an assembled command are those of the header it was read from (R81, R82). -/
theorem headerFields_assembleOperands {op : Op} {h : Word} {ops : List Word}
    (hc : Complete op h ops) :
    (assembleOperands op h ops).headerFields = h &&& op.format.fields := by
  cases op with
  | print =>
    rw [assembleOperands, Instr.headerFields, hc.print_length]
    exact imm16_of_header h
  | readFb | getTextWidth => exact imm16_of_header h
  | setOffset => exact (congrArg _ (field16_toInt _)).trans (field16_of_header h)
  | setTextSize | drawChar => exact field8_of_header h
  | configureOrientation => exact flags_of_header h
  | setContrast => exact bytes_of_header h
  | setPixel | startFrame | setColor | setBitmapMsbLeft | setBitmapFlipH | setBitmapFlipV
  | setInverse => exact bit_of_header h
  | _ => exact BitVec.and_zero.symm

theorem header_assembleOperands {op : Op} {h : Word} {ops : List Word}
    (hm : h &&& op.format.mask = op.matchWord) (hc : Complete op h ops) :
    (assembleOperands op h ops).header = h := by
  rw [Instr.header, op_assembleOperands, headerFields_assembleOperands hc]
  exact (header_of_mask hm rfl).symm

/-- The argument words of an assembled command are the words it was read from (R81, R82). -/
theorem take_operandWords_assembleOperands {op : Op} {h : Word} {ops : List Word}
    (hc : Complete op h ops) :
    (assembleOperands op h ops).operandWords.take op.format.args = ops.take op.format.args := by
  cases op with
  | setPixel | setCursor | drawChar =>
    obtain ⟨a, rfl⟩ := List.length_eq_one_iff.1 (Nat.succ.inj hc)
    exact congrArg (fun w => [w]) (pairWord_signed a)
  | fillRect | drawRect =>
    obtain ⟨a, b, rfl⟩ := List.length_eq_two.1 (Nat.succ.inj hc)
    exact congrArg₂ (fun v w => [v, w]) (pairWord_signed a) (pairWord_signed b)
  | drawXbm =>
    obtain ⟨a, b, payload, rfl, -⟩ := hc.drawXbm_words
    exact congrArg₂ (fun v w => [v, w]) (pairWord_signed a) (pairWord_signed b)
  | setSpiFrequency =>
    obtain ⟨a, rfl⟩ := List.length_eq_one_iff.1 (Nat.succ.inj hc)
    rfl
  | _ => rfl

/-- An assembled command is encoded in as many words as it was read from. -/
theorem encode_length_assembleOperands {op : Op} {h : Word} {ops : List Word}
    (hm : h &&& op.format.mask = op.matchWord) (hc : Complete op h ops) :
    (encode (assembleOperands op h ops)).length = ops.length + 1 := by
  rw [encodeLength _ (wellFormed_assembleOperands hc), op_assembleOperands,
    header_assembleOperands hm hc, hc]
  cases op with
  | drawXbm =>
    obtain ⟨a, b, payload, rfl, -⟩ := hc.drawXbm_words
    exact congrArg (commandLength .xbm h) (pairWord_signed b)
  | _ => rfl

theorem decodeCommand_wellFormed {ws : List Word} {i : Instr} {n : Nat}
    (h : decodeCommand ws = .command i n) : i.WellFormed := by
  obtain ⟨hd, ops, tail, op, -, -, -, hc, rfl⟩ := decodeCommand_complete h
  exact wellFormed_assembleOperands hc

theorem decodeCommand_length {ws : List Word} {i : Instr} {n : Nat}
    (h : decodeCommand ws = .command i n) : n = (encode i).length := by
  obtain ⟨hd, ops, tail, op, -, rfl, hm, hc, rfl⟩ := decodeCommand_complete h
  exact (encode_length_assembleOperands hm hc).symm

/-- Settles O4: the command is assembled from a header of its row and complete operand words, and each field is encoded as it
was read. -/
theorem encodeOfDecode : Obligations.EncodeOfDecode := by
  intro ws i n h
  have hwf := decodeCommand_wellFormed h
  have hn := decodeCommand_length h
  refine ⟨hwf, ?_, hn, ?_, ?_⟩ 
  · obtain ⟨hd, ops, tail, op, rfl, rfl, -, -, -⟩ := decodeCommand_complete h
    simp
  · obtain ⟨hd, ops, tail, op, rfl, rfl, hm, hc, rfl⟩ := decodeCommand_complete h
    have hargs : op.format.args ≤ ops.length := by
      have := args_lt_commandLength op.format hd (ops.getD 1 0)
      rw [← hc] at this
      omega
    rw [encode, header_assembleOperands hm hc, op_assembleOperands, Nat.add_comm 1, List.cons_append,
      List.take_succ_cons, List.take_succ_cons, take_operandWords_assembleOperands hc,
      List.take_append_of_le_length hargs]
  · rw [hn]
    simpa using decodeOfEncode i [] hwf

/-! ## Lengths (R83) -/

theorem encode_length {i : Instr} (hwf : i.WellFormed) : (encode i).length = lengthOf i := by
  cases i with
  | print text =>
    rw [encode, List.length_cons, Instr.operandWords, packBytes_length, Nat.add_comm]
    rfl
  | drawXbm x y w h bytes =>
    obtain ⟨-, -, -, -, hbytes⟩ := of_decide_eq_true hwf
    rw [encode, Instr.operandWords, List.length_cons, List.length_cons, List.length_cons,
      packBytes_length, hbytes]
    show payloadWords (xbmBytes w h) + 1 + 1 + 1 = 3 + payloadWords (xbmBytes w h)
    omega
  | _ => rfl

/-- Settles O6: the length is that of the encoding, which the operands fix. -/
theorem commandLengthByFormat : Obligations.CommandLengthByFormat := by
  intro ws i n h
  rw [decodeCommand_length h, encode_length (decodeCommand_wellFormed h)]

/-! ## The opcode map (R84, R85, R87) -/

/-- Each row of the table is a row of the model. -/
theorem opcodeRows_eq :
    (opcodeRows.map fun r => (r.1, r.1.matchWord, r.1.format.mask)) = opcodeRows := by
  decide

theorem row_of_mem {r : Op × Word × Word} (h : r ∈ opcodeRows) :
    r = (r.1, r.1.matchWord, r.1.format.mask) :=
  (List.map_inj_left.1 ((List.map_id opcodeRows).trans opcodeRows_eq.symm) r h)

/-- The row a header satisfies is the row of its opcode byte. -/
theorem ofCode_of_row {h : Word} {r : Op × Word × Word} (hr : r ∈ opcodeRows)
    (hm : h &&& r.2.2 = r.2.1) : Op.ofCode (opcodeOf h) = some r.1 := by
  rw [row_of_mem hr] at hm
  exact (mask_eq_match_iff.1 hm).1

/-- Settles O2: the rows by evaluation; two rows that one header satisfies have the header's opcode. -/
theorem opcodeMapMatchesTable : Obligations.OpcodeMapMatchesTable := by
  refine ⟨opcodeRows_eq, fun h op => mask_eq_match_iff, fun h r q hr hq hmr hmq => ?_⟩
  have hop : r.1 = q.1 :=
    Option.some.inj ((ofCode_of_row hr hmr).symm.trans (ofCode_of_row hq hmq))
  rw [row_of_mem hr, row_of_mem hq, hop]

/-- An opcode outside the map is illegal at once (R85). -/
theorem decodeCommand_of_unknown {h : Word} (hop : Op.ofCode (opcodeOf h) = none) (rest : List Word) :
    decodeCommand (h :: rest) = .illegal .unknownOpcode h 1 := by
  simp only [decodeCommand, hop]

/-- Settles O5: the three answers the decoder has for a header whose words are all there. -/
theorem headersDecodeOrAreIllegal : Obligations.HeadersDecodeOrAreIllegal := by
  refine fun h rest => ⟨fun hop => decodeCommand_of_unknown hop rest, fun op hop ha hl => ⟨?_, ?_⟩⟩
  · exact fun hne => decodeCommand_of_reserved hop (bne_iff_ne.2 hne) ha hl
  · exact fun hm => ⟨_, op_assembleOperands op h _, decodeCommand_of hm ha hl⟩

/-! ## Examples and pseudo-commands (R90, R91) -/

/-- A well-formed command is decoded from the words it is encoded in. -/
theorem decodeCommand_of_encode_eq {i : Instr} (ws : List Word) (h : encode i = ws)
    (hwf : i.WellFormed) (rest : List Word) : decodeCommand (ws ++ rest) = .command i ws.length :=
  h ▸ decodeOfEncode i rest hwf

/-- Settles O1: each example is the encoding of its command. -/
theorem specExamplesDecode : Obligations.SpecExamplesDecode := by
  intro rest
  refine ⟨?_, ?_, ?_, ?_, ?_, ?_, ?_, ?_, ?_⟩
  · exact decodeCommand_of_encode_eq [0x10000001#32, 0x000A0003#32] (by decide) rfl rest
  · exact decodeCommand_of_encode_eq [0x15000000#32, 0x00000000#32] (by decide) rfl rest
  · exact decodeCommand_of_encode_eq [0x13000000#32, 0xFFFDFFFE#32, 0x00060005#32] (by decide) rfl
      rest
  · exact decodeCommand_of_encode_eq [0x4500FFFB#32] (by decide) rfl rest
  · exact decodeCommand_of_encode_eq [0x46000005#32] (by decide) rfl rest
  · exact decodeCommand_of_encode_eq [0x47004709#32] (by decide) rfl rest
  · exact decodeCommand_of_encode_eq [0x21000002#32, 0x00006948#32] (by decide) rfl rest
  · exact decodeCommand_of_encode_eq [0x30000000#32, 0x00000000#32, 0x0002000A#32, 0x04030201#32]
      (by decide) rfl rest
  · exact decodeCommand_of_encode_eq [0x49000000#32, 0x003D0900#32] (by decide) rfl rest

/-- One payload byte in its word: the pad bytes are 0 (R65). -/
theorem packWord_single (c : Byte) : packWord c 0 0 0 = c.setWidth 32 := by
  apply BitVec.eq_of_getLsbD_eq
  intro k hk
  rw [packWord_getLsbD, BitVec.getLsbD_setWidth, decide_eq_true hk, Bool.true_and]
  by_cases h8 : k < 8
  · rw [if_pos h8]
  · rw [if_neg h8, BitVec.getLsbD_of_ge c k (by omega)]
    simp

/-- A line of commands that fit their fields assembles to their encodings (R89, R90). -/
theorem words_of_wf {line : AsmLine} (hline : ∀ v, line ≠ .word v)
    (hwf : line.expand.all Instr.wf = true) : line.words = some (line.expand.flatMap encode) := by
  cases line with
  | word v => exact absurd rfl (hline v)
  | _ => rw [AsmLine.words, if_pos hwf]; exact fun _ h => nomatch h

/-- Settles O8: a pseudo-command assembles to the encodings of the commands it expands to. -/
theorem pseudoCommandsExpand : Obligations.PseudoCommandsExpand := by
  refine ⟨by decide, by decide, fun c => ?_, by decide, fun text ht => ?_⟩
  · have hheader : (Instr.print [c]).header = 0x21000001#32 := by
      show Op.print.matchWord ||| (BitVec.ofNat 16 1).setWidth 32 = _
      decide
    rw [words_of_wf (line := .printChar c) (fun _ => nofun) rfl, ← hheader, ← packWord_single]
    rfl
  · have hwf : (AsmLine.getTextWidthOf text).expand.all Instr.wf = true := by
      simpa [AsmLine.expand, Instr.wf] using ht
    rw [words_of_wf (line := .getTextWidthOf text) (fun _ => nofun) hwf]
    exact congrArg some (List.append_nil _)

end Sys2Proof.Proofs
end

section
/-! What every command writes and sends, and what it leaves as it is (10_state.md sections 3 and 4, 43_serializer.md). -/

namespace Sys2Proof.Proofs
open Sys2Proof.Machine Sys2Proof.Claims

/-! ## The registers a command writes -/

/-- `t` is `s` with new values in the registers 10_state.md lets the command write, and in no other. -/
def Writes (s t : State) : Instr → Prop
  | .nop | .setTextSize _ => t = s
  | .setPixel _ _ _ | .fillRect _ _ _ _ | .drawRect _ _ _ _ | .drawChar _ _ _
  | .drawXbm _ _ _ _ _ => ∃ m, t = { s with fb := m }
  | .print _ => ∃ m cx cy, t = { s with fb := m, cursorX := cx, cursorY := cy }
  | .clear | .startFrame _ =>
    ∃ m cx cy v, t = { s with fb := m, cursorX := cx, cursorY := cy, color := v }
  | .setCursor _ _ => ∃ cx cy, t = { s with cursorX := cx, cursorY := cy }
  | .setColor _ => ∃ v, t = { s with color := v }
  | .readFb _ => ∃ r b c w, t = { s with result := r, ill := b, cause := c, faultWord := w }
  | .getTextWidth _ | .isOn => ∃ r, t = { s with result := r }
  | .setBitmapMsbLeft _ => ∃ v, t = { s with bmpMsbLeft := v }
  | .setBitmapFlipH _ => ∃ v, t = { s with bmpFlipH := v }
  | .setBitmapFlipV _ => ∃ v, t = { s with bmpFlipV := v }
  | .beginInit => ∃ p r b es, t = { s with pstate := p, result := r, rstLine := b, out := es }
  | .turnOn | .turnOff => ∃ p es, t = { s with pstate := p, out := es }
  | .endFrame | .setContrast _ _ | .setInverse _ => ∃ es, t = { s with out := es }
  | .setOffset _ => ∃ n es, t = { s with offset := n, out := es }
  | .configureOrientation _ _ _ =>
    ∃ a b c es, t = { s with segRemap := a, comReverse := b, lsbAtTop := c, out := es }
  | .setSpiFrequency _ => ∃ r, t = { s with spiHz := r }

theorem drawn_writes {s t : State} (h : Drawn s t) : ∃ m, t = { s with fb := m } := by
  obtain ⟨-, rfl⟩ | ⟨-, -, ps, rfl⟩ := h
  · exact ⟨t.fb, rfl⟩
  · exact ⟨_, paint_eq ps s⟩

theorem filled_writes {v : Byte} {s t : State} (h : Filled v s t) :
    ∃ m cx cy c, t = { s with fb := m, cursorX := cx, cursorY := cy, color := c } := by
  obtain ⟨-, rfl⟩ | ⟨-, rfl⟩ := h
  · exact ⟨t.fb, t.cursorX, t.cursorY, t.color, rfl⟩
  · exact ⟨_, _, _, _, rfl⟩

theorem gated_writes {p : PState} {es : List Event} {s t : State} (h : Gated p es s t) :
    ∃ q fs, t = { s with pstate := q, out := fs } := by
  obtain ⟨-, rfl⟩ | ⟨-, rfl⟩ := h
  · exact ⟨t.pstate, t.out, rfl⟩
  · exact ⟨_, _, rfl⟩

/-- A gated command that keeps the protocol state writes `OUT` only. -/
theorem gated_self_writes {es : List Event} {s t : State} (h : Gated s.pstate es s t) :
    ∃ fs, t = { s with out := fs } := by
  obtain ⟨-, rfl⟩ | ⟨-, rfl⟩ := h
  · exact ⟨t.out, rfl⟩
  · exact ⟨_, rfl⟩

theorem flushed_writes {s t : State} (h : Flushed s t) : ∃ es, t = { s with out := es } := by
  obtain ⟨-, rfl⟩ | ⟨-, -, -, rfl⟩ := h
  · exact ⟨t.out, rfl⟩
  · exact ⟨_, rfl⟩

theorem exec_writes {i : Instr} {s t : State} (h : exec i s = .next t) : Writes s t i := by
  have heff := exec_effect h
  cases i with
  | nop | setTextSize => exact heff
  | setPixel | fillRect | drawRect | drawChar | drawXbm => exact drawn_writes heff
  | print text =>
    obtain ⟨-, rfl⟩ | ⟨-, -, rfl⟩ := heff
    · exact ⟨t.fb, t.cursorX, t.cursorY, rfl⟩
    · exact ⟨_, _, _, printText_eq text s⟩
  | clear | startFrame => exact filled_writes heff
  | setCursor => exact ⟨_, _, heff⟩
  | setColor | setBitmapMsbLeft | setBitmapFlipH | setBitmapFlipV | setSpiFrequency =>
    exact ⟨_, heff⟩
  | readFb index =>
    obtain ⟨r, rfl⟩ | rfl := heff
    · exact ⟨r, s.ill, s.cause, s.faultWord, rfl⟩
    · exact ⟨s.result, _, _, _, raiseIllegal_eq _ _ s⟩
  | getTextWidth | isOn => exact heff
  | beginInit =>
    obtain ⟨-, rfl⟩ | ⟨-, rfl⟩ := heff
    · exact ⟨s.pstate, 0, s.rstLine, s.out, rfl⟩
    · exact ⟨_, _, _, _, rfl⟩
  | turnOn | turnOff => exact gated_writes heff
  | setContrast | setInverse => exact gated_self_writes heff
  | endFrame => exact flushed_writes heff
  | setOffset ox =>
    obtain ⟨es, he⟩ := flushed_writes (s := s.setOffset (s.clampOffset ox)) heff
    exact ⟨_, es, he⟩
  | configureOrientation a b c =>
    obtain ⟨es, he⟩ := gated_self_writes (s := s.setOrientation a b c) heff
    exact ⟨a, b, c, es, he⟩

/-- Settles O54: for each command, the registers it writes are those it is named a writer of. -/
theorem registersKeepTheirWriters : Obligations.RegistersKeepTheirWriters := by
  intro i s t h
  have hw := exec_writes h
  cases i with
  | nop | setTextSize =>
    obtain rfl := hw
    simp
  | setPixel | fillRect | drawRect | drawChar | drawXbm | setColor | getTextWidth | isOn
  | setBitmapMsbLeft | setBitmapFlipH | setBitmapFlipV | endFrame | setContrast | setInverse
  | setSpiFrequency =>
    obtain ⟨_, rfl⟩ := hw
    simp [isDrawing]
  | setCursor | turnOn | turnOff | setOffset =>
    obtain ⟨_, _, rfl⟩ := hw
    simp
  | print =>
    obtain ⟨_, _, _, rfl⟩ := hw
    simp [isDrawing]
  | clear | startFrame | readFb | beginInit | configureOrientation =>
    obtain ⟨_, _, _, _, rfl⟩ := hw
    simp [isDrawing]

/-- Only the three commands of R184 write `PSTATE`. -/
theorem pstate_kept {i : Instr} {s t : State} (h : exec i s = .next t) (h1 : i ≠ .beginInit)
    (h2 : i ≠ .turnOn) (h3 : i ≠ .turnOff) : t.pstate = s.pstate := by
  obtain ⟨-, -, -, -, -, -, -, -, hp, -⟩ := registersKeepTheirWriters i s t h
  by_contra hne
  obtain rfl | rfl | rfl := hp hne <;> contradiction

theorem gated_pstate {p : PState} {es : List Event} {s t : State} (h : Gated p es s t) :
    t.pstate = if s.pstate = .uninit then .uninit else p := by
  obtain ⟨hu, rfl⟩ | ⟨hu, rfl⟩ := h
  · rw [if_pos hu, hu]
  · rw [if_neg hu]

/-- Settles O49: the three named commands by their effect, every other one by the registers it writes. -/
theorem protocolStateTransitions : Obligations.ProtocolStateTransitions := by
  intro i s t h
  by_cases h1 : i = .beginInit
  · subst h1
    rw [if_pos rfl]
    obtain ⟨hfb, rfl⟩ | ⟨hfb, rfl⟩ := exec_effect h <;> rw [hfb] <;> rfl
  by_cases h2 : i = .turnOn
  · subst h2
    exact gated_pstate (exec_effect h)
  by_cases h3 : i = .turnOff
  · subst h3
    exact gated_pstate (exec_effect h)
  rw [if_neg h1, if_neg h2, if_neg h3, pstate_kept h h1 h2 h3]

theorem read_drawn_hidden {s t : State} (h : Drawn s t) {a : Nat}
    (ha : ∀ x y b, s.translate x y ≠ some (a, b)) : Memory.read t.fb a = Memory.read s.fb a := by
  obtain ⟨-, rfl⟩ | ⟨-, hs, ps, rfl⟩ := h
  · rfl
  · exact read_paint_ne hs ps fun p _ b => ha p.x p.y b

/-- Settles O55: a drawing command other than the fills writes through `SetPixel`; no other command writes `FB`. -/
theorem hiddenColumnsKept : Obligations.HiddenColumnsKept := by
  intro i s t h hclear hstart a ha
  have heff := exec_effect h
  cases i with
  | setPixel | fillRect | drawRect | drawChar | drawXbm => exact read_drawn_hidden heff ha
  | print text =>
    obtain ⟨-, rfl⟩ | ⟨-, hs, rfl⟩ := heff
    · rfl
    · exact read_printText_hidden hs text ha
  | clear => exact absurd rfl hclear
  | startFrame bg => exact absurd rfl (hstart bg)
  | _ =>
    obtain ⟨-, -, -, -, -, -, -, -, -, -, -, -, hfb, -⟩ := registersKeepTheirWriters _ s t h
    rw [not_not.1 fun hne => Bool.false_ne_true (hfb hne)]

/-! ## The events a command sends -/

/-- The events command `i` may append to `OUT` from `s`: none, those of `BEGIN`, `CMD` transactions of the table behind the
gate of R171, or a flush of a sound framebuffer at some offset. -/
inductive Emits (i : Instr) (s : State) : List Event → Prop
  | nothing : Emits i s []
  | init : i = .beginInit → Emits i s s.beginEvents
  | commands (cmds : List (List Byte)) : s.pstate ≠ .uninit → (∀ c ∈ cmds, TableCommand s c) →
      Emits i s (cmds.map fun bytes => .txn .cmd s.spiHz bytes)
  | flush (n : Nat) : isFlushing i = true → s.pstate ≠ .uninit → (s.setOffset n).FbSound →
      Emits i s (s.setOffset n).flushEvents

/-- `t` has events appended that command `i` may send from `s`. -/
def Sends (i : Instr) (s t : State) : Prop := ∃ es, t.out = s.out ++ es ∧ Emits i s es

theorem sends_of_out_eq {i : Instr} {s t : State} (h : t.out = s.out) : Sends i s t :=
  ⟨[], by rw [h, List.append_nil], .nothing⟩

theorem sends_of_gated {i : Instr} {p : PState} {s u t : State} (cmds : List (List Byte))
    (h : Gated p (cmds.map fun bytes => .txn .cmd s.spiHz bytes) u t) (hout : u.out = s.out)
    (hp : u.pstate = s.pstate) (hc : ∀ c ∈ cmds, TableCommand s c) : Sends i s t := by
  obtain ⟨-, rfl⟩ | ⟨hu, rfl⟩ := h
  · exact sends_of_out_eq hout
  · exact ⟨_, congrArg (· ++ _) hout, .commands cmds (hp ▸ hu) hc⟩

theorem sends_of_flushed {i : Instr} {s t : State} (n : Nat) (hi : isFlushing i = true)
    (h : Flushed (s.setOffset n) t) : Sends i s t := by
  obtain ⟨-, rfl⟩ | ⟨hu, -, hs, rfl⟩ := h
  · exact sends_of_out_eq rfl
  · exact ⟨_, rfl, .flush n hi hu hs⟩

theorem tableCommand_segRemap (s u : State) : TableCommand s [segRemapCmd u] := by
  rw [segRemapCmd_eq]
  cases u.segRemap <;> simp [TableCommand]

theorem tableCommand_rowDirection (s u : State) : TableCommand s [rowDirectionCmd u] := by
  unfold rowDirectionCmd
  cases u.comReverse <;> simp [TableCommand]

theorem tableCommand_ratio (s : State) (r : Byte) : TableCommand s [ratioCmd r] := by
  rw [ratioCmd_eq]
  iterate 7 right
  exact .inl ⟨_, Nat.mod_lt _ (by decide), rfl⟩

theorem tableCommand_volume (s : State) (v : Byte) : TableCommand s (volumeCmd v) := by
  rw [volumeCmd_eq]
  iterate 8 right
  exact .inl ⟨_, Nat.mod_lt _ (by decide), rfl⟩

theorem tableCommand_startLine (s : State) (l : Byte) : TableCommand s [startLineCmd l] := by
  rw [startLineCmd_eq]
  iterate 9 right
  exact .inl ⟨_, Nat.mod_lt _ (by decide), rfl⟩

theorem tableCommand_display (s : State) (on : Bool) : TableCommand s [displayCmd on] := by
  unfold displayCmd
  cases on <;> simp [TableCommand]

theorem tableCommand_invert (s : State) (v : Bool) : TableCommand s [invertCmd v] := by
  unfold invertCmd
  cases v <;> simp [TableCommand]

theorem tableCommand_initCommands (s : State) : ∀ c ∈ initCommands s, TableCommand s c := by
  simp only [initCommands, List.forall_mem_cons, List.not_mem_nil, false_imp_iff, implies_true,
    and_true]
  exact ⟨.inl rfl, tableCommand_segRemap s s, tableCommand_rowDirection s s,
    by simp [TableCommand], by simp [TableCommand], tableCommand_ratio s _, tableCommand_volume s _,
    tableCommand_startLine s _, tableCommand_display s true⟩

theorem exec_sends {i : Instr} {s t : State} (h : exec i s = .next t) : Sends i s t := by
  have heff := exec_effect h
  cases i with
  | beginInit =>
    obtain ⟨-, rfl⟩ | ⟨-, rfl⟩ := heff
    · exact sends_of_out_eq rfl
    · exact ⟨_, rfl, .init rfl⟩
  | turnOn =>
    exact sends_of_gated [[displayCmd true]] heff rfl rfl (by simpa using tableCommand_display s true)
  | turnOff =>
    exact sends_of_gated [[displayCmd false]] heff rfl rfl
      (by simpa using tableCommand_display s false)
  | setInverse v =>
    exact sends_of_gated [[invertCmd v]] heff rfl rfl (by simpa using tableCommand_invert s v)
  | setContrast r v =>
    exact sends_of_gated [[ratioCmd r], volumeCmd v] heff rfl rfl
      (by simpa using ⟨tableCommand_ratio s r, tableCommand_volume s v⟩)
  | configureOrientation a b c =>
    exact sends_of_gated [[segRemapCmd (s.setOrientation a b c)],
      [rowDirectionCmd (s.setOrientation a b c)]] heff rfl rfl
      (by simpa using ⟨tableCommand_segRemap s _, tableCommand_rowDirection s _⟩)
  | endFrame => exact sends_of_flushed s.offset rfl heff
  | setOffset ox => exact sends_of_flushed _ rfl heff
  | setPixel | fillRect | drawRect | drawChar | drawXbm | setColor | getTextWidth | isOn
  | setBitmapMsbLeft | setBitmapFlipH | setBitmapFlipV | setSpiFrequency =>
    obtain ⟨_, rfl⟩ := exec_writes h
    exact sends_of_out_eq rfl
  | setCursor =>
    obtain ⟨_, _, rfl⟩ := exec_writes h
    exact sends_of_out_eq rfl
  | print =>
    obtain ⟨_, _, _, rfl⟩ := exec_writes h
    exact sends_of_out_eq rfl
  | clear | startFrame | readFb =>
    obtain ⟨_, _, _, _, rfl⟩ := exec_writes h
    exact sends_of_out_eq rfl
  | nop | setTextSize =>
    obtain rfl := heff
    exact sends_of_out_eq rfl

/-- The transactions of `BEGIN` are its init commands (R174). -/
theorem mem_beginEvents {s : State} {dc : DataCommand} {hz : Word} {bytes : List Byte}
    (h : Event.txn dc hz bytes ∈ s.beginEvents) :
    dc = .cmd ∧ hz = s.spiHz ∧ bytes ∈ initCommands s := by
  simp only [State.beginEvents, List.mem_append, List.mem_cons, List.not_mem_nil, or_false,
    reduceCtorEq, false_or, List.mem_map] at h
  obtain ⟨c, hc, he⟩ := h
  cases he
  exact ⟨rfl, rfl, hc⟩

/-- The transactions of a flush are, for each page, its addressing command and its burst (R173). -/
theorem mem_flushEvents {s : State} {dc : DataCommand} {hz : Word} {bytes : List Byte}
    (h : Event.txn dc hz bytes ∈ s.flushEvents) :
    hz = s.spiHz ∧ ∃ p < s.cfg.pages,
      (dc = .cmd ∧ bytes = s.pageAddress p) ∨ (dc = .data ∧ bytes = s.pageBurst p) := by
  simp only [State.flushEvents, List.mem_flatMap, List.mem_range, List.mem_cons, List.not_mem_nil,
    or_false] at h
  obtain ⟨p, hp, he | he⟩ := h <;> cases he
  · exact ⟨rfl, p, hp, .inl ⟨rfl, rfl⟩⟩
  · exact ⟨rfl, p, hp, .inr ⟨rfl, rfl⟩⟩

/-- Settles O48: every event but those of `BEGIN` is sent behind the gate of R171. -/
theorem uninitEmitsNothing : Obligations.UninitEmitsNothing := by
  intro i s t hu hi h
  obtain ⟨es, hout, hes⟩ := exec_sends h
  cases hes with
  | nothing => rw [hout, List.append_nil]
  | init hb => exact absurd hb hi
  | commands cmds hp => exact absurd hu hp
  | flush n hf hp => exact absurd hu hp

theorem isFlushing_of_data {i : Instr} {s : State} {es : List Event} (h : Emits i s es) {hz : Word}
    {bytes : List Byte} (hmem : Event.txn .data hz bytes ∈ es) : isFlushing i = true := by
  cases h with
  | nothing => exact absurd hmem List.not_mem_nil
  | init => exact nomatch (mem_beginEvents hmem).1
  | commands cmds =>
    obtain ⟨c, -, he⟩ := List.mem_map.1 hmem
    exact nomatch he
  | flush n hf => exact hf

/-- Settles O50: a step over a command appends what the command sends, every other step appends nothing. -/
theorem onlyFlushesSendData : Obligations.OnlyFlushesSendData := by
  intro s t h
  obtain ⟨-, ⟨-, -, rfl⟩ | ⟨kind, w, n, -, rfl⟩ | ⟨i, n, u, hdec, hexec, rfl⟩⟩ := step_cases h
  · exact ⟨[], (List.append_nil _).symm, by simp⟩
  · refine ⟨[], ?_, by simp⟩
    rw [raiseIllegal_eq, List.append_nil]
    rfl
  · obtain ⟨es, hout, hes⟩ := exec_sends hexec
    exact ⟨es, hout, fun ⟨hz, bytes, hmem⟩ => ⟨i, n, hdec, isFlushing_of_data hes hmem⟩⟩

theorem ne_nil_of_tableCommand {s : State} {bytes : List Byte} (h : TableCommand s bytes) :
    bytes ≠ [] := by
  rintro rfl
  simp [TableCommand] at h

/-- A page burst is not empty: a valid window has columns (R7, R257). -/
theorem pageBurst_ne_nil {s : State} (hs : s.FbSound) {p : Nat} (hp : p < s.cfg.pages) :
    s.pageBurst p ≠ [] := by
  obtain ⟨hlen, -⟩ := pageBurst_length hs hp
  obtain ⟨⟨⟨-, -, -, hw, -⟩, -⟩, -⟩ := hs
  intro hnil
  rw [hnil, List.length_nil] at hlen
  omega

/-- Settles O51: the clock does not change while a command sends, and no transaction is empty. -/
theorem transactionsUseCurrentClock : Obligations.TransactionsUseCurrentClock := by
  intro i s t h
  obtain ⟨es, hout, hes⟩ := exec_sends h
  refine ⟨es, hout, fun dc hz bytes hmem => ?_⟩
  cases hes with
  | nothing => exact absurd hmem List.not_mem_nil
  | init =>
    obtain ⟨-, hhz, hc⟩ := mem_beginEvents hmem
    exact ⟨hhz, ne_nil_of_tableCommand (tableCommand_initCommands s _ hc)⟩
  | commands cmds _ hc =>
    obtain ⟨c, hmem, he⟩ := List.mem_map.1 hmem
    cases he
    exact ⟨rfl, ne_nil_of_tableCommand (hc _ hmem)⟩
  | flush n _ _ hs =>
    obtain ⟨hhz, p, hp, ⟨-, rfl⟩ | ⟨-, rfl⟩⟩ := mem_flushEvents hmem
    · exact ⟨hhz, List.cons_ne_nil _ _⟩
    · exact ⟨hhz, pageBurst_ne_nil hs hp⟩

/-- A field below the bits of a command byte is added to it. -/
theorem command_or_field (f : Fin 16) :
    0xB0#8 ||| BitVec.ofNat 8 f = BitVec.ofNat 8 (0xB0 + f) ∧
      0x10#8 ||| BitVec.ofNat 8 f = BitVec.ofNat 8 (0x10 + f) ∧
      0x00#8 ||| BitVec.ofNat 8 f = BitVec.ofNat 8 f := by
  decide +revert

/-- The addressing bytes of a page: its number and the two nibbles of the column are below 16 (R7, R36, R172). -/
theorem tableCommand_pageAddress {s u : State} (hs : u.FbSound) {p : Nat} (hp : p < u.cfg.pages) :
    TableCommand s (u.pageAddress p) := by
  obtain ⟨⟨⟨-, -, hh, hw, -, hiw⟩, -⟩, -, ho⟩ := hs
  have hp16 : p < 16 := by unfold Config.pages at hp; omega
  have hhi : u.offset >>> 4 < 16 := by
    unfold Config.offsetMax at ho
    rw [Nat.shiftRight_eq_div_pow]
    omega
  have hlo : u.offset &&& 0x0F < 16 := Nat.and_lt_two_pow (n := 4) _ (by decide)
  obtain ⟨hpage, -, -⟩ := command_or_field ⟨p, hp16⟩
  obtain ⟨-, hhigh, -⟩ := command_or_field ⟨u.offset >>> 4, hhi⟩
  obtain ⟨-, -, hlow⟩ := command_or_field ⟨u.offset &&& 0x0F, hlo⟩
  rw [State.pageAddress, hpage, hhigh, hlow]
  iterate 14 right
  exact ⟨_, _, _, hp16, hhi, hlo, rfl⟩

/-- Settles O52: the `CMD` transactions of every command, those of a flush by the bounds of its page and column. -/
theorem commandBytesFromTable : Obligations.CommandBytesFromTable := by
  intro i s t h _ _
  obtain ⟨es, hout, hes⟩ := exec_sends h
  refine ⟨es, hout, fun hz bytes hmem => ?_⟩
  cases hes with
  | nothing => exact absurd hmem List.not_mem_nil
  | init =>
    obtain ⟨-, -, hc⟩ := mem_beginEvents hmem
    exact tableCommand_initCommands s _ hc
  | commands cmds _ hc =>
    obtain ⟨c, hmem, he⟩ := List.mem_map.1 hmem
    cases he
    exact hc _ hmem
  | flush n _ _ hs =>
    obtain ⟨-, p, hp, ⟨-, rfl⟩ | ⟨hdc, -⟩⟩ := mem_flushEvents hmem
    · exact tableCommand_pageAddress hs hp
    · exact nomatch hdc

end Sys2Proof.Proofs
end

section
/-! The step: what it consumes, what it keeps, and when it stops (44_control.md, 60_exceptions.md, 10_state.md). -/

namespace Sys2Proof.Proofs
open Sys2Proof.Machine Sys2Proof.Claims

/-! ## Completion (R86, R102, R171, R212) -/

/-- The states every command completes from: a sound framebuffer, or none and the bus not initialised. -/
abbrev CanExecute (s : State) : Prop := Ready s ∨ (s.fbOk = false ∧ s.pstate = .uninit)

theorem guardFb_completes {s : State} (h : CanExecute s) (act : State → State) :
    ∃ t, guardFb s act = .next t := by
  obtain ⟨hfb, hs⟩ | ⟨hfb, -⟩ := h
  · exact ⟨_, guardFb_ready hfb hs act⟩
  · exact ⟨_, guardFb_absent hfb act⟩

theorem flush_completes {s : State} (h : CanExecute s) : ∃ t, flush s = .next t := by
  by_cases hu : s.pstate = .uninit
  · exact ⟨s, flush_uninit hu⟩
  · obtain ⟨hfb, hs⟩ := h.resolve_right fun h => hu h.2
    exact ⟨_, flush_ready hu hfb hs⟩

theorem clampOffset_le (s : State) (ox : Int) : s.clampOffset ox ≤ s.cfg.offsetMax :=
  Nat.min_le_right _ _

theorem canExecute_setOffset {s : State} (h : CanExecute s) {n : Nat} (hn : n ≤ s.cfg.offsetMax) :
    CanExecute (s.setOffset n) :=
  h.imp_left fun ⟨hfb, hv, hwf, _⟩ => ⟨hfb, hv, hwf, hn⟩

/-- `READ_FB` of an index inside a sound framebuffer answers its byte (R110). -/
theorem exec_readFb_in_range {s : State} (hs : Ready s) {index : Nat} (hi : index < s.cfg.fbSize) :
    ∃ byte, Memory.read s.fb index = some byte ∧
      exec (.readFb index) s = .next (s.setResult (byte.setWidth 32)) := by
  obtain ⟨hfb, -, hwf, -⟩ := hs
  obtain ⟨byte, hbyte⟩ := Memory.read_of_lt hwf hi
  refine ⟨byte, hbyte, ?_⟩
  show execReadFb index s = _
  rw [execReadFb, if_neg (by simp [hfb]), if_neg (Nat.not_le.2 hi), hbyte]

/-- Settles O53: only the guards of the framebuffer and of the flush can stop a command, and both pass. -/
theorem everyCommandCompletes : Obligations.EveryCommandCompletes := by
  intro i s h
  cases i with
  | setPixel | fillRect | drawRect | drawChar | drawXbm | print => exact guardFb_completes h _
  | clear | startFrame =>
    obtain ⟨hfb, -⟩ | ⟨hfb, -⟩ := h
    · exact ⟨_, if_neg (by simp [hfb])⟩
    · exact ⟨_, if_pos hfb⟩
  | readFb index =>
    obtain hs | ⟨hfb, -⟩ := h
    · by_cases hi : s.cfg.fbSize ≤ index
      · exact ⟨_, exec_readFb_out_of_range hs.1 hi⟩
      · obtain ⟨byte, -, hexec⟩ := exec_readFb_in_range hs (Nat.not_le.1 hi)
        exact ⟨_, hexec⟩
    · exact ⟨_, exec_readFb_of_absent hfb index⟩
  | beginInit =>
    by_cases hfb : s.fbOk = false
    · exact ⟨_, if_pos hfb⟩
    · exact ⟨_, if_neg hfb⟩
  | endFrame => exact flush_completes h
  | setOffset ox => exact flush_completes (canExecute_setOffset h (clampOffset_le s ox))
  | _ => exact ⟨_, rfl⟩

/-! ## One step (R211) -/

/-- A choice between two next states is no refusal. -/
theorem ite_next_ne_refused {p : Prop} [Decidable p] (s t : State) (r : Refusal) :
    (if p then Host.Outcome.next (φ := Fault) s else .next t) ≠ .refused r := by
  split_ifs <;> exact nofun

theorem guardFb_ne_refused (s : State) (act : State → State) (r : Refusal) :
    guardFb s act ≠ .refused r := by
  unfold guardFb
  split_ifs <;> exact nofun

theorem flush_ne_refused (s : State) (r : Refusal) : flush s ≠ .refused r := by
  unfold flush
  split_ifs <;> exact nofun

theorem execReadFb_ne_refused (index : Nat) (s : State) (r : Refusal) :
    execReadFb index s ≠ .refused r := by
  unfold execReadFb
  split_ifs
  · exact nofun
  · exact nofun
  · split <;> exact nofun

/-- Every command has a meaning: no arm of `exec` is a refusal. -/
theorem exec_ne_refused (i : Instr) (s : State) (r : Refusal) : exec i s ≠ .refused r := by
  cases i with
  | setPixel | fillRect | drawRect | drawChar | drawXbm | print => exact guardFb_ne_refused s _ r
  | endFrame => exact flush_ne_refused s r
  | setOffset ox => exact flush_ne_refused _ r
  | readFb index => exact execReadFb_ne_refused index s r
  | clear | startFrame | beginInit => exact ite_next_ne_refused _ _ r
  | _ => exact nofun

theorem holdForWords_nil {s : State} (h : s.stream = []) : holdForWords s = .refused .awaitingWords :=
  if_pos h

theorem holdForWords_of_ne {s : State} (h : s.stream ≠ []) :
    holdForWords s = .next (receiveWords s) :=
  if_neg h

/-- The step of an incomplete command at the head of the pending words (R211): the counterpart of `step_of_command`. -/
theorem step_of_incomplete {s : State} (hv : s.cfg.Valid)
    (hd : decodeCommand s.pending = .incomplete) : step s = holdForWords s := by
  rw [step, if_pos hv, hd]

/-- Settles O9: the step retires the words of what `exec` answers, and a fault of `exec` is its own. -/
theorem stepRunsDecodedCommand : Obligations.StepRunsDecodedCommand := by
  intro s i n hv hd
  rw [step_of_command hv hd]
  refine ⟨fun t ht => ?_, fun r hr => ?_, exec_ne_refused i s⟩
  · rw [ht]; rfl
  · rw [hr]; rfl

/-- The fields of `STATUS` do not overlap (R45): each reads back as what was put in it. -/
theorem status_fields (fb ill busy : Bool) (p : PState) (c : Cause) :
    let w := bitField fb ||| p.code <<< 1 ||| bitField ill <<< 3 ||| bitField busy <<< 4 |||
      c.code <<< 5
    w.getLsbD 0 = fb ∧ w.extractLsb' 1 2 = p.code.setWidth 2 ∧ w.getLsbD 3 = ill ∧
      w.getLsbD 4 = busy ∧ w.extractLsb' 5 2 = c.code.setWidth 2 ∧ w >>> 7 = 0 := by
  cases p <;> cases c <;> decide +revert

theorem busy_iff (s : State) : s.busy = true ↔ s.cab ≠ [] := by
  simp [State.busy]

theorem status_busy (s : State) : s.status.getLsbD 4 = s.busy := by
  obtain ⟨-, -, -, hbusy, -⟩ := status_fields s.fbOk s.ill s.busy s.pstate s.cause
  exact hbusy

/-- Settles O56: the fields of `STATUS` read back, with the codes of R41 and R43. -/
theorem statusLayout : Obligations.StatusLayout := by
  intro s
  obtain ⟨hfb, hp, hill, hbusy, hc, hz⟩ := status_fields s.fbOk s.ill s.busy s.pstate s.cause
  refine ⟨hfb, ?_, hill, ?_, ?_, hz, rfl, rfl⟩
  · refine (congrArg BitVec.toNat hp).trans ?_
    cases s.pstate <;> rfl
  · exact (congrArg (· = true) hbusy).to_iff.trans (busy_iff s)
  · refine (congrArg BitVec.toNat hc).trans ?_
    cases s.cause <;> rfl

/-- Settles O11: with no delivered word the hold is the refusal, else it moves the words, which leaves `CAB` not empty. -/
theorem stepHoldsForMissingWords : Obligations.StepHoldsForMissingWords := by
  intro s hv hd
  rw [step_of_incomplete hv hd]
  refine ⟨holdForWords_nil, fun hne => ?_⟩
  rw [holdForWords_of_ne hne]
  refine ⟨rfl, fun t ht => ?_⟩
  cases ht
  rw [status_busy]
  simp [State.busy, State.pending, hne]

theorem decodeCommand_illegal_le {ws : List Word} {kind : HeaderFault} {w : Word} {n : Nat}
    (h : decodeCommand ws = .illegal kind w n) : n ≤ ws.length := by
  cases ws with
  | nil => exact nomatch h
  | cons hd rest =>
    cases hop : Op.ofCode (opcodeOf hd) with
    | none =>
      simp only [decodeCommand, hop, Fetched.illegal.injEq] at h
      obtain ⟨-, -, rfl⟩ := h
      exact Nat.le_add_left 1 _
    | some op =>
      simp only [decodeCommand, hop] at h
      split_ifs at h with h1 h2 h3
      simp only [Fetched.illegal.injEq] at h
      obtain ⟨-, -, rfl⟩ := h
      exact Nat.not_lt.1 h2

/-- Retiring `n` of the pending words takes them from the head and counts them. -/
theorem retire_consumes {s u : State} {n : Nat} (hcab : u.cab = s.cab) (hstream : u.stream = s.stream)
    (hcsp : u.csp = s.csp) (hn : n ≤ s.pending.length) :
    ∃ taken, s.pending = taken ++ (retire n u).pending ∧ (retire n u).csp = s.csp + taken.length ∧
      (taken = [] ∨ (retire n u).cab = []) := by
  have hpending : u.pending = s.pending := by rw [State.pending, hcab, hstream, State.pending]
  refine ⟨s.pending.take n, ?_, ?_, .inr rfl⟩
  · show s.pending = s.pending.take n ++ ([] ++ u.pending.drop n)
    rw [hpending, List.nil_append, List.take_append_drop]
  · rw [retire_csp, hcsp, List.length_take_of_le hn]

/-- Settles O12: a step over a command or an illegal header retires words that are there; a hold takes none. -/
theorem wordsConsumedInOrder : Obligations.WordsConsumedInOrder := by
  intro s t h
  obtain ⟨-, ⟨-, -, rfl⟩ | ⟨kind, w, n, hd, rfl⟩ | ⟨i, n, u, hd, hexec, rfl⟩⟩ := step_cases h
  · exact ⟨[], (List.append_nil _).symm, rfl, .inl rfl⟩
  · have hkept := raiseIllegal_eq (causeOf kind) w s
    exact retire_consumes (by rw [hkept]) (by rw [hkept]) (by rw [hkept])
      (decodeCommand_illegal_le hd)
  · obtain ⟨-, hcab, hcsp, hstream⟩ := exec_keeps hexec
    obtain ⟨-, -, -, -, -, -, -, -, hle, -⟩ := decodeCommand_command hd
    exact retire_consumes hcab hstream hcsp hle

/-! ## The invariant -/

theorem clampHz_inRange (hz : Word) :
    Config.spiHzMin ≤ (clampHz hz).toNat ∧ (clampHz hz).toNat ≤ Config.spiHzMax := by
  rw [clampHz_toNat]
  unfold Config.spiHzMin Config.spiHzMax
  omega

/-- Settles O58: each clause holds of the reset values. -/
theorem resetMeetsInv : Obligations.ResetMeetsInv := by
  have hreset : ∀ c : Config, c.Valid → (State.resetWith c).Inv := fun c hc =>
    { config := hc
      fbShape := resetWith_fb_wf c
      offset := Nat.zero_le _
      cursor := by simp [State.CursorInRange, State.resetWith]
      spi := clampHz_inRange _
      notInitializing := nofun
      absentUninit := fun _ => rfl
      faultRecord := ⟨fun _ => ⟨rfl, rfl⟩, nofun⟩
      cab := rfl }
  have hfont : Config.reference.FontOk := by simp [Config.FontOk, Config.reference]
  exact ⟨hreset, hreset _ ⟨by decide, hfont⟩⟩

theorem canExecute_of_inv {s : State} (h : s.Inv) : CanExecute s := by
  by_cases hfb : s.fbOk = true
  · refine .inl ⟨hfb, h.config, ?_, h.offset⟩
    simpa [State.FbShape, hfb] using h.fbShape
  · exact .inr ⟨by simpa using hfb, h.absentUninit (by simpa using hfb)⟩

/-- Settles O60: a command at the head completes, an illegal header is recorded, and the hold refuses only with no word
delivered. -/
theorem stepNeverStopsWithWords : Obligations.StepNeverStopsWithWords := by
  intro s h
  cases hd : decodeCommand s.pending with
  | illegal kind w n =>
    rw [step_of_illegal h.config hd]
    exact ⟨nofun, nofun⟩
  | command i n =>
    obtain ⟨t, ht⟩ := everyCommandCompletes i s (canExecute_of_inv h)
    rw [step_of_command h.config hd, ht]
    exact ⟨nofun, nofun⟩
  | incomplete =>
    rw [step_of_incomplete h.config hd]
    by_cases hs : s.stream = []
    · rw [holdForWords_nil hs]
      refine ⟨nofun, fun r hr => ?_⟩
      cases hr
      exact ⟨rfl, hs, h.cab⟩
    · rw [holdForWords_of_ne hs]
      exact ⟨nofun, nofun⟩


/-! ### One clause at a time, over every command -/

theorem exec_keeps_fbShape {i : Instr} {s t : State} (h : exec i s = .next t) (hs : s.FbShape) :
    t.FbShape := by
  obtain ⟨hcfg, -⟩ := exec_keeps h
  have heff := exec_effect h
  rw [State.FbShape, fbOk_eq, hcfg, ← fbOk_eq]
  cases i with
  | setPixel | fillRect | drawRect | drawChar | drawXbm =>
    obtain ⟨-, rfl⟩ | ⟨-, -, ps, rfl⟩ := heff
    · exact hs
    · exact (paint_keys ps s).trans hs
  | clear | startFrame =>
    obtain ⟨-, rfl⟩ | ⟨hfb, rfl⟩ := heff
    · exact hs
    · rw [if_pos hfb]
      exact Memory.filled_wf _ _
  | print text =>
    obtain ⟨-, rfl⟩ | ⟨hfb, hsound, rfl⟩ := heff
    · exact hs
    · obtain ⟨-, hwf, -⟩ := printText_sound hsound text
      rwa [if_pos hfb, ← hcfg]
  | _ =>
    obtain ⟨-, -, -, -, -, -, -, -, -, -, -, -, hfb, -⟩ := registersKeepTheirWriters _ s t h
    rw [not_not.1 fun hne => Bool.false_ne_true (hfb hne)]
    exact hs

theorem exec_keeps_offset {i : Instr} {s t : State} (h : exec i s = .next t)
    (hs : s.offset ≤ s.cfg.offsetMax) : t.offset ≤ t.cfg.offsetMax := by
  obtain ⟨hcfg, -⟩ := exec_keeps h
  obtain ⟨-, -, hwriter, -⟩ := registersKeepTheirWriters i s t h
  rw [hcfg]
  by_cases heq : t.offset = s.offset
  · rwa [heq]
  · obtain ⟨ox, rfl⟩ := hwriter heq
    obtain ⟨-, rfl⟩ | ⟨-, -, -, rfl⟩ := exec_effect h <;> exact clampOffset_le s ox

theorem exec_keeps_spiInRange {i : Instr} {s t : State} (h : exec i s = .next t)
    (hs : s.SpiInRange) : t.SpiInRange := by
  obtain ⟨-, -, -, -, hwriter, -⟩ := registersKeepTheirWriters i s t h
  by_cases heq : t.spiHz = s.spiHz
  · rwa [State.SpiInRange, heq]
  · obtain ⟨hz, rfl⟩ := hwriter heq
    obtain rfl := exec_effect h
    exact clampHz_inRange hz

/-- `INITIALIZING` is held inside `BEGIN` only, and a block without a framebuffer never leaves `UNINIT` (R184, R185). -/
theorem exec_keeps_pstate {i : Instr} {s t : State} (h : exec i s = .next t)
    (hs : s.pstate ≠ .initializing) (ha : s.fbOk = false → s.pstate = .uninit) :
    t.pstate ≠ .initializing ∧ (t.fbOk = false → t.pstate = .uninit) := by
  obtain ⟨hcfg, -⟩ := exec_keeps h
  rw [fbOk_eq, hcfg, ← fbOk_eq, protocolStateTransitions i s t h]
  constructor
  · split_ifs
    · exact nofun
    · exact hs
    · exact nofun
    · exact nofun
    · exact nofun
    · exact nofun
    · exact hs
  · intro hfb
    simp [hfb, ha hfb]

theorem faultRecordOk_raiseIllegal {s : State} (hs : s.FaultRecordOk) {c : Cause} (hc : c ≠ .none)
    (w : Word) : (raiseIllegal c w s).FaultRecordOk := by
  by_cases hill : s.ill = true
  · rwa [raiseIllegal_of_ill hill]
  · rw [raiseIllegal, if_neg hill]
    exact ⟨nofun, fun _ => hc⟩

theorem exec_keeps_faultRecordOk {i : Instr} {s t : State} (h : exec i s = .next t)
    (hs : s.FaultRecordOk) : t.FaultRecordOk := by
  by_cases hi : ∃ index, i = .readFb index
  · obtain ⟨index, rfl⟩ := hi
    obtain ⟨r, rfl⟩ | rfl := exec_effect h
    · exact hs
    · exact faultRecordOk_raiseIllegal (c := .fbIndexRange) hs nofun _
  · obtain ⟨hill, hcause, hword⟩ := exec_sameFaultRecord h (not_exists.1 hi)
    rwa [State.FaultRecordOk, hill, hcause, hword]

/-! ### The cursor -/

/-- A wrap moves at most 8 down from a cursor that `SET_CURSOR` can reach, and to the start of a line (R34, R134). -/
theorem wrapCursor_inRange {s : State} (hv : s.cfg.Valid) (hs : s.CursorInRange) :
    (wrapCursor s).CursorInRange := by
  by_cases hfit : s.cursorX.toInt + 6 ≤ s.cfg.w
  · rwa [wrapCursor_of_fits hfit]
  · obtain ⟨⟨-, -, -, hw, -⟩, -⟩ := hv
    obtain ⟨-, -, hylo, -, hlow⟩ := hs
    have hy : s.cursorY.toInt ≤ 32767 := by omega
    have hx0 : (0 : BitVec 32).toInt = 0 := rfl
    rw [wrapCursor_of_overflow (not_le.1 hfit)]
    simp only [State.CursorInRange, hx0,
      toInt_ofInt32 (v := s.cursorY.toInt + 8) (by omega) (by omega)]
    omega

/-- A character is drawn inside the window only, so the cursor after it is at most 6 past one in range (R134). -/
theorem drawAtCursor_inRange {s : State} (hv : s.cfg.Valid) (hs : s.CursorInRange)
    (hx : s.cursorX.toInt + 6 ≤ s.cfg.w) (hy : ¬ s.LineOverflows) (c : Byte) :
    (drawAtCursor c s).CursorInRange := by
  obtain ⟨⟨-, -, hh, -, hw, hiw⟩, -⟩ := hv
  obtain ⟨hxlo, -, hylo, -, -⟩ := hs
  rw [lineOverflows_iff] at hy
  rw [drawAtCursor_eq]
  simp only [State.CursorInRange, toInt_ofInt32 (v := s.cursorX.toInt + 6) (by omega) (by omega)]
  omega

theorem printText_inRange {s : State} (hv : s.cfg.Valid) (hs : s.CursorInRange) (text : List Byte) :
    (printText text s).CursorInRange := by
  induction text generalizing s with
  | nil => exact hs
  | cons c cs ih =>
    have hcfg : (wrapCursor s).cfg = s.cfg := by rw [wrapCursor_eq]
    have hw := wrapCursor_inRange hv hs
    by_cases hstop : (wrapCursor s).LineOverflows
    · rwa [printText_cons_stop hstop]
    · rw [printText_cons_draw hstop]
      have hfits := wrapCursor_fits hv
      rw [← hcfg] at hv hfits
      refine ih ?_ (drawAtCursor_inRange hv hw hfits hstop c)
      rw [drawAtCursor_eq]
      exact hv

theorem exec_keeps_cursorInRange {i : Instr} {s t : State} (h : exec i s = .next t)
    (hwf : i.WellFormed) (hv : s.cfg.Valid) (hs : s.CursorInRange) : t.CursorInRange := by
  have heff := exec_effect h
  cases i with
  | setCursor x y =>
    obtain rfl := heff
    obtain ⟨⟨hx, hx'⟩, hy, hy'⟩ := of_decide_eq_true hwf
    simp only [State.CursorInRange, setCursor_cursorX, setCursor_cursorY,
      toInt_ofInt32 (v := x) (by omega) (by omega), toInt_ofInt32 (v := y) (by omega) (by omega)]
    omega
  | clear | startFrame =>
    obtain ⟨-, rfl⟩ | ⟨-, rfl⟩ := heff
    · exact hs
    · simp [State.CursorInRange]
  | print text =>
    obtain ⟨-, rfl⟩ | ⟨-, -, rfl⟩ := heff
    · exact hs
    · exact printText_inRange hv hs text
  | _ =>
    obtain ⟨hcfg, -⟩ := exec_keeps h
    obtain ⟨hwriter, -⟩ := registersKeepTheirWriters _ s t h
    obtain ⟨hx, hy⟩ : t.cursorX = s.cursorX ∧ t.cursorY = s.cursorY := by simpa using hwriter
    rwa [State.CursorInRange, hcfg, hx, hy]

/-! ### The invariant as a whole -/

theorem exec_keeps_inv {i : Instr} {s t : State} (h : exec i s = .next t) (hwf : i.WellFormed)
    (hs : s.Inv) : t.Inv := by
  obtain ⟨hcfg, hcab, -⟩ := exec_keeps h
  obtain ⟨hinit, habsent⟩ := exec_keeps_pstate h hs.notInitializing hs.absentUninit
  exact {
    config := hcfg ▸ hs.config
    fbShape := exec_keeps_fbShape h hs.fbShape
    offset := exec_keeps_offset h hs.offset
    cursor := exec_keeps_cursorInRange h hwf hs.config hs.cursor
    spi := exec_keeps_spiInRange h hs.spi
    notInitializing := hinit
    absentUninit := habsent
    faultRecord := exec_keeps_faultRecordOk h hs.faultRecord
    cab := by rw [State.CabIncomplete, hcab]; exact hs.cab }

/-- The invariant does not read `CSP` nor the stream, and of `CAB` only that it holds no whole command. -/
theorem inv_of_words {s : State} (hs : s.Inv) {cab stream : List Word} (csp : Nat)
    (hcab : decodeCommand cab = .incomplete) :
    State.Inv { s with cab := cab, csp := csp, stream := stream } :=
  { config := hs.config, fbShape := hs.fbShape, offset := hs.offset, cursor := hs.cursor
    spi := hs.spi, notInitializing := hs.notInitializing, absentUninit := hs.absentUninit
    faultRecord := hs.faultRecord, cab := hcab }

theorem raiseIllegal_keeps_inv {s : State} (hs : s.Inv) {c : Cause} (hc : c ≠ .none) (w : Word) :
    (raiseIllegal c w s).Inv := by
  have hrecord := faultRecordOk_raiseIllegal hs.faultRecord hc w
  rw [raiseIllegal_eq] at hrecord ⊢
  exact { config := hs.config, fbShape := hs.fbShape, offset := hs.offset, cursor := hs.cursor
          spi := hs.spi, notInitializing := hs.notInitializing, absentUninit := hs.absentUninit
          faultRecord := hrecord, cab := hs.cab }

theorem causeOf_ne_none (kind : HeaderFault) : causeOf kind ≠ .none := by
  cases kind <;> exact nofun

/-- Settles O59: the effect of a decoded command and of an illegal header keep the registers' clauses; what the sequencer
leaves in `CAB` is nothing or the words that were found incomplete. -/
theorem stepKeepsInv : Obligations.StepKeepsInv := by
  constructor
  · intro s t hs h
    obtain ⟨-, ⟨hd, -, rfl⟩ | ⟨kind, w, n, -, rfl⟩ | ⟨i, n, u, hd, hexec, rfl⟩⟩ := step_cases h
    · exact inv_of_words hs s.csp hd
    · exact inv_of_words (raiseIllegal_keeps_inv hs (causeOf_ne_none kind) w) _ rfl
    · exact inv_of_words (exec_keeps_inv hexec (decodeCommand_wellFormed hd) hs) _ rfl
  · exact fun s ws hs => inv_of_words hs s.csp hs.cab

end Sys2Proof.Proofs
end

section
/-! The page serializer (43_serializer.md): initialisation, display control, the flush and the offset, the wires. -/

namespace Sys2Proof.Proofs
open Sys2Proof.Machine Sys2Proof.Claims

/-! ## Initialisation (R174) -/

/-- The ratio parameter has 3 bits, so the mask of the command keeps it (R172). -/
theorem ratioCmd_setWidth (r : BitVec 3) :
    ratioCmd (r.setWidth 8) = BitVec.ofNat 8 (0x20 + r.toNat) := by
  have hr : (r.setWidth 8).toNat % 8 = r.toNat := by
    rw [BitVec.toNat_setWidth]; omega
  rw [ratioCmd_eq, hr]

/-- The volume parameter has 6 bits, so the mask of the command keeps it (R172). -/
theorem volumeCmd_setWidth (v : BitVec 6) : volumeCmd (v.setWidth 8) = [0x81#8, v.setWidth 8] := by
  have hv : (v.setWidth 8).toNat % 64 = (v.setWidth 8).toNat := by
    rw [BitVec.toNat_setWidth]; omega
  rw [volumeCmd_eq, hv, BitVec.ofNat_toNat, BitVec.setWidth_eq]

/-- The start line parameter has 6 bits, so the mask of the command keeps it (R172). -/
theorem startLineCmd_setWidth (l : BitVec 6) :
    startLineCmd (l.setWidth 8) = BitVec.ofNat 8 (0x40 + l.toNat) := by
  have hl : (l.setWidth 8).toNat % 64 = l.toNat := by
    rw [BitVec.toNat_setWidth]; omega
  rw [startLineCmd_eq, hl]

theorem exec_beginInit_of_absent {s : State} (h : s.fbOk = false) :
    exec .beginInit s = .next (s.setResult 0) :=
  if_pos h

theorem exec_beginInit_of_fbOk {s : State} (h : s.fbOk = true) :
    exec .beginInit s = .next { s with
      pstate := .on, result := 1, rstLine := true, out := s.out ++ s.beginEvents } := by
  have hexec : ∃ t, exec .beginInit s = .next t := ⟨_, if_neg (by simp [h])⟩
  obtain ⟨t, ht⟩ := hexec
  obtain ⟨hfb, -⟩ | ⟨-, rfl⟩ := exec_effect ht
  · exact absurd (h.symm.trans hfb) nofun
  · exact ht

/-- Settles O38: the events of `BEGIN` with the command bytes written out. -/
theorem beginSequence : Obligations.BeginSequence := by
  refine fun s => ⟨fun h => ?_, exec_beginInit_of_absent⟩
  rw [exec_beginInit_of_fbOk h, State.beginEvents, initCommands, segRemapCmd_eq, rowDirectionCmd,
    ratioCmd_setWidth, volumeCmd_setWidth, startLineCmd_setWidth]
  rfl

/-! ## Commands behind the gate of R171 -/

theorem gated_uninit {s : State} (h : s.pstate = .uninit) (act : State → State) :
    gated s act = s :=
  if_pos h

theorem gated_initialized {s : State} (h : s.pstate ≠ .uninit) (act : State → State) :
    gated s act = act s :=
  if_neg h

/-- `CMD` transactions behind the gate change `OUT` only, and in `UNINIT` not even that. -/
theorem gated_sendCommands (s : State) (cmds : List (List Byte)) :
    gated s (sendCommands cmds) = { s with
      out := if s.pstate = .uninit then s.out
        else s.out ++ cmds.map fun bytes => .txn .cmd s.spiHz bytes } := by
  by_cases hu : s.pstate = .uninit
  · rw [gated_uninit hu, if_pos hu]
  · rw [gated_initialized hu, if_neg hu, sendCommands_eq]
    rfl

/-- Settles O39: the transaction and the new protocol state are behind the gate. -/
theorem displayOnOff : Obligations.DisplayOnOff := by
  refine fun s => ⟨fun hu => ?_, fun hu => ?_, rfl⟩
  · exact ⟨congrArg _ (gated_uninit hu _), congrArg _ (gated_uninit hu _)⟩
  · exact ⟨congrArg _ (gated_initialized hu _), congrArg _ (gated_initialized hu _)⟩

/-- Settles O44: the flags are stored before the gate, the two commands are sent behind it. -/
theorem orientationStoredAndSent : Obligations.OrientationStoredAndSent := by
  intro s f0 f1 f2
  refine congrArg _ ((gated_sendCommands (s.setOrientation f0 f1 f2)
    [[segRemapCmd (s.setOrientation f0 f1 f2)], [rowDirectionCmd (s.setOrientation f0 f1 f2)]]).trans ?_)
  rw [segRemapCmd_eq]
  rfl

/-- Settles O45: both commands send behind the gate and store nothing. -/
theorem contrastAndInverseSent : Obligations.ContrastAndInverseSent := by
  refine fun s ratio volume v => ⟨?_, ?_⟩
  · rw [← ratioCmd_eq, ← volumeCmd_eq]
    exact congrArg _ (gated_sendCommands s [[ratioCmd ratio], volumeCmd volume])
  · exact congrArg _ (gated_sendCommands s [[invertCmd v]])

/-- Settles O46: the stored rate is the clamp, and a later transaction is sent at the stored rate. -/
theorem spiFrequencyClamped : Obligations.SpiFrequencyClamped := by
  refine fun s hz => ⟨clampHz hz, clampHz_toNat hz, rfl, fun hu v => ?_⟩
  exact ⟨_, rfl, congrArg State.out (gated_initialized (s := s.setSpiHz hz) hu _)⟩

/-! ## The flush and the offset (R173, R178, R179, R188) -/

theorem flushEvents_spec {s : State} (hs : s.FbSound) : FlushEvents s s.flushEvents := by
  refine ⟨flushEvents_length s, fun p hp => ?_⟩
  obtain ⟨haddress, hburst⟩ := flushEvents_getElem? s hp
  obtain ⟨hlen, hbytes⟩ := pageBurst_length hs hp
  refine ⟨haddress, s.pageBurst p, hburst, hlen, fun k hk => ?_⟩
  rw [hbytes k hk, State.fbIndex, Nat.add_assoc]

/-- Settles O40: in `UNINIT` nothing, else the page walk. -/
theorem endFrameFlushes : Obligations.EndFrameFlushes := by
  refine fun s => ⟨flush_uninit, fun hu hs => ?_⟩
  exact ⟨s.flushEvents, flush_ready hu hs.1 hs.2, flushEvents_spec hs.2⟩

/-- The clamped offset as the integer the spec names (R10, R179). -/
theorem clampOffset_cast {s : State} (hw : s.cfg.w ≤ s.cfg.iw) (ox : Int) :
    (s.clampOffset ox : Int) = min (max ox 0) (s.cfg.iw - s.cfg.w : Int) := by
  unfold State.clampOffset Config.offsetMax
  omega

theorem fbSound_setOffset {s : State} (hs : s.FbSound) {n : Nat} (hn : n ≤ s.cfg.offsetMax) :
    (s.setOffset n).FbSound := by
  obtain ⟨hv, hwf, -⟩ := hs
  exact ⟨hv, hwf, hn⟩

theorem exec_setOffset (s : State) (ox : Int) :
    exec (.setOffset ox) s = flush (s.setOffset (s.clampOffset ox)) := rfl

/-- Settles O41: the clamped offset is in range, so the flush that follows is over a sound framebuffer. -/
theorem setOffsetClampsAndFlushes : Obligations.SetOffsetClampsAndFlushes := by
  intro s ox n hv hn
  obtain ⟨⟨-, -, -, -, hw, -⟩, -⟩ := hv
  obtain rfl : n = s.clampOffset ox := by
    rw [← clampOffset_cast hw] at hn
    exact_mod_cast hn
  refine ⟨fun hu => flush_uninit (s := s.setOffset _) hu, fun hu hs => ?_⟩
  have hsound := fbSound_setOffset hs.2 (clampOffset_le s ox)
  exact ⟨_, flush_ready (s := s.setOffset _) hu hs.1 hsound, flushEvents_spec hsound⟩

theorem clampOffset_of_nonpos (s : State) {ox : Int} (h : ox ≤ 0) :
    s.clampOffset ox = s.clampOffset 0 := by
  rw [State.clampOffset, Int.toNat_of_nonpos h]
  rfl

theorem clampOffset_of_ge {s : State} (hw : s.cfg.w ≤ s.cfg.iw) {ox : Int}
    (h : (s.cfg.iw : Int) - s.cfg.w ≤ ox) :
    s.clampOffset ox = s.clampOffset (s.cfg.iw - s.cfg.w) := by
  unfold State.clampOffset Config.offsetMax
  omega

/-- `SET_OFFSET` reads its operand through the clamp only. -/
theorem exec_setOffset_congr {s : State} {ox ox' : Int} (h : s.clampOffset ox = s.clampOffset ox') :
    exec (.setOffset ox) s = exec (.setOffset ox') s := by
  rw [exec_setOffset, exec_setOffset, h]

/-- Settles O42: outside the range the clamp answers its bound. -/
theorem offsetClampLaw : Obligations.OffsetClampLaw := by
  intro s ox hw
  exact ⟨fun hox => exec_setOffset_congr (clampOffset_of_nonpos s hox),
    fun hox => exec_setOffset_congr (clampOffset_of_ge hw hox)⟩

/-- `SET_OFFSET` leaves the framebuffer as it is and the offset in its range. -/
theorem exec_setOffset_keeps_fb {s t : State} {ox : Int} (h : exec (.setOffset ox) s = .next t) :
    t.cfg = s.cfg ∧ t.fb = s.fb ∧ t.offset = s.clampOffset ox := by
  obtain ⟨-, rfl⟩ | ⟨-, -, -, rfl⟩ := exec_effect h <;> exact ⟨rfl, rfl, rfl⟩

/-- Settles O43: the pixel's byte is the one its coordinate translates to at the new offset. -/
theorem offsetMovesNoByte : Obligations.OffsetMovesNoByte := by
  rintro s t ox x y v ⟨hfb, hv, hwf, -⟩ h hwin
  obtain ⟨hcfg, hkept, hoff⟩ := exec_setOffset_keeps_fb h
  have hw : s.cfg.w ≤ s.cfg.iw := hv.1.2.2.2.2.1
  have ht : Ready t := by
    rw [Ready, State.FbSound, fbOk_eq, hcfg, hkept, hoff]
    exact ⟨hfb, hv, hwf, clampOffset_le s ox⟩
  have htwin : t.InWindow x y := by rwa [State.InWindow, hcfg]
  have htr := translate_of_inWindow htwin
  obtain ⟨old, hold, hset⟩ := setPixel_of_translate ht.2 v htr
  have hindex : (x + min (max ox 0) (s.cfg.iw - s.cfg.w : Int)).toNat = x.toNat + t.offset := by
    rw [← clampOffset_cast hw, hoff]
    have := hwin.1
    omega
  refine ⟨hkept, _, setBit old (y.toNat % 8) v, exec_setPixel_of_ready ht x y v, ?_, ?_⟩
  · rw [hset, hindex, ← hcfg]
    exact Memory.read_write_same _ hold
  · rw [getLsbD_setBit _ (Nat.mod_lt _ (by decide)), if_pos rfl]

/-! ## The wires (R66, R170) -/

theorem wireBits_length (v : Byte) : (wireBits v).length = 8 := by
  simp [wireBits]

theorem flatMap_wireBits_length (bytes : List Byte) :
    (bytes.flatMap wireBits).length = 8 * bytes.length := by
  simp [List.length_flatMap, wireBits_length, Nat.mul_comm]

/-- Bit time `8n + k` carries bit `7 - k` of byte `n`. -/
theorem flatMap_wireBits_getElem? {bytes : List Byte} {n k : Nat} {v : Byte}
    (hv : bytes[n]? = some v) (hk : k < 8) :
    (bytes.flatMap wireBits)[8 * n + k]? = some (v.getLsbD (7 - k)) := by
  induction bytes generalizing n with
  | nil => exact nomatch hv
  | cons b bs ih =>
    rw [List.flatMap_cons]
    cases n with
    | zero =>
      obtain rfl : b = v := by simpa using hv
      rw [List.getElem?_append_left (by rw [wireBits_length]; omega)]
      simp [wireBits, hk]
    | succ n =>
      have hn : 8 * (n + 1) + k - 8 = 8 * n + k := by omega
      rw [List.getElem?_append_right (by rw [wireBits_length]; omega), wireBits_length, hn]
      exact ih (by simpa using hv)

/-- Settles O47: the levels are constant over a transaction, the data line carries the bytes' bits. -/
theorem wireOrder : Obligations.WireOrder := by
  intro dc hz bytes n k v hv hk
  constructor
  · rw [Event.wire, List.length_map, flatMap_wireBits_length]
  · rw [Event.wire, List.getElem?_map, flatMap_wireBits_getElem? hv hk]
    cases dc <;> rfl

end Sys2Proof.Proofs
end

section
/-! The framebuffer unit: rectangles, registers, the inspection port, and the fills as a fresh start
(40_framebuffer.md). -/

namespace Sys2Proof.Proofs
open Sys2Proof.Machine Sys2Proof.Claims

/-! ## Painted pixel lists -/

/-- A drawing command is ready to paint: its guard passes. -/
theorem guardFb_paint {s : State} (hs : Ready s) (ps : State → List PixelWrite) :
    guardFb s (fun s => paint (ps s) s) = .next (paint (ps s) s) :=
  guardFb_ready hs.1 hs.2 _

/-- `Paints` in the words of the pixel list. -/
theorem paints_paint {s : State} (hs : s.FbSound) {ps : List PixelWrite} {P : Int → Int → Prop}
    {v : Int → Int → Bool}
    (hP : ∀ x y, s.InWindow x y → (P x y ↔ ∃ p ∈ ps, x = p.x ∧ y = p.y))
    (hv : ∀ p ∈ ps, s.InWindow p.x p.y → p.v = v p.x p.y) : Paints s (paint ps s) P v :=
  paint_spec hs hP hv

@[simp] theorem paint_color (ps : List PixelWrite) (s : State) : (paint ps s).color = s.color := by
  rw [paint_eq]; rfl

/-! ## Rectangles (R106, R107) -/

theorem exec_fillRect_of_ready {s : State} (hs : Ready s) (x y w h : Int) :
    exec (.fillRect x y w h) s = .next (paint (s.rectPixels x y w h) s) :=
  guardFb_paint hs fun s => s.rectPixels x y w h

theorem exec_drawRect_of_ready {s : State} (hs : Ready s) (x y w h : Int) :
    exec (.drawRect x y w h) s = .next (paint (s.borderPixels x y w h) s) :=
  guardFb_paint hs fun s => s.borderPixels x y w h

/-- The in-window pixels of `FILL_RECT` (R106). -/
theorem mem_rectPixels_iff_inRect {s : State} {x y w h i j : Int} (hw : s.InWindow i j) :
    (∃ p ∈ s.rectPixels x y w h, i = p.x ∧ j = p.y) ↔ InRect x y w h i j := by
  constructor
  · rintro ⟨p, hp, rfl, rfl⟩
    obtain ⟨-, -, -, -, hin⟩ := mem_rectPixels.1 hp
    exact hin
  · intro hin
    refine ⟨⟨i, j, s.color⟩, mem_rectPixels.2 ⟨?_, ?_, rfl, hw, hin⟩, rfl, rfl⟩
    · have := hin.1; have := hin.2.1; omega
    · have := hin.2.2.1; have := hin.2.2.2; omega

theorem rectPixels_color {s : State} {x y w h : Int} : ∀ p ∈ s.rectPixels x y w h, p.v = s.color :=
  fun _ hp => (mem_rectPixels.1 hp).2.2.1

/-- Settles O19: the pixel list of `FILL_RECT` is the rectangle in the window, in `COLOR`. -/
theorem fillRectPaintsRectangle : Obligations.FillRectPaintsRectangle := by
  intro s x y w h hs
  exact ⟨_, exec_fillRect_of_ready hs x y w h,
    paints_paint hs.2 (fun i j hw => (mem_rectPixels_iff_inRect hw).symm)
      fun p hp _ => rectPixels_color p hp⟩

/-- Settles O21: the pixel list of `DRAW_RECT` is the border in the window, in `COLOR`. -/
theorem drawRectPaintsBorder : Obligations.DrawRectPaintsBorder := by
  intro s x y w h hs
  exact ⟨_, exec_drawRect_of_ready hs x y w h,
    paints_paint hs.2 (fun i j hw => (mem_borderPixels hw).symm)
      fun p hp _ => borderPixels_color p hp⟩

/-- Settles O22: every pixel of a thin rectangle is on its border. -/
theorem thinRectanglesAreFilled : Obligations.ThinRectanglesAreFilled := by
  intro s x y w h hs hthin
  rw [exec_drawRect_of_ready hs, exec_fillRect_of_ready hs]
  refine congrArg _ (paint_congr_color hs.2 borderPixels_color rectPixels_color fun i j hw => ?_)
  rw [mem_borderPixels hw, mem_rectPixels_iff_inRect hw, and_iff_left_iff_imp]
  intro hin
  omega

/-! ### The literal loop of R106 -/

theorem mem_fromTo {lo hi k : Int} : k ∈ fromTo lo hi ↔ lo ≤ k ∧ k ≤ hi := by
  simp only [fromTo, List.mem_map, List.mem_range]
  constructor
  · rintro ⟨n, hn, rfl⟩
    omega
  · rintro ⟨hlo, hhi⟩
    exact ⟨(k - lo).toNat, by omega, by omega⟩

/-- The pixel writes of row `j`, in the colour `v`. -/
def rowWrites (xs : List Int) (v : Bool) (j : Int) : List PixelWrite := xs.map fun i => ⟨i, j, v⟩

/-- The inner loop of R106: `COLOR` is the same in every round. -/
theorem foldl_setPixel_row (xs : List Int) (j : Int) (s : State) :
    xs.foldl (fun s i => setPixel i j s.color s) s = paint (rowWrites xs s.color j) s := by
  induction xs generalizing s with
  | nil => rfl
  | cons x xs ih => rw [List.foldl_cons, ih, setPixel_color]; rfl

/-- The double loop of R106 as one list of pixel writes. -/
theorem foldl_rows (xs js : List Int) (s : State) :
    js.foldl (fun s j => xs.foldl (fun s i => setPixel i j s.color s) s) s =
      paint (js.flatMap (rowWrites xs s.color)) s := by
  induction js generalizing s with
  | nil => rfl
  | cons j js ih =>
    rw [List.foldl_cons, ih, foldl_setPixel_row, paint_color, List.flatMap_cons, paint_append]

theorem mem_rows {xs js : List Int} {v : Bool} {p : PixelWrite} :
    p ∈ js.flatMap (rowWrites xs v) ↔ p.x ∈ xs ∧ p.y ∈ js ∧ p.v = v := by
  simp only [rowWrites, List.mem_flatMap, List.mem_map]
  constructor
  · rintro ⟨j, hj, i, hi, rfl⟩
    exact ⟨hi, hj, rfl⟩
  · rintro ⟨hx, hy, rfl⟩
    exact ⟨p.y, hy, p.x, hx, rfl⟩

theorem rectPixels_of_empty (s : State) {x y w h : Int} (he : w ≤ 0 ∨ h ≤ 0) :
    s.rectPixels x y w h = [] :=
  if_pos he

/-- Settles O20: both loops write the in-window pixels of the rectangle in `COLOR`. -/
theorem fillRectIsLiteralLoop : Obligations.FillRectIsLiteralLoop := by
  intro s x y w h hs
  rw [exec_fillRect_of_ready hs, literalFillRect]
  split
  · next he => rw [rectPixels_of_empty s he, paint_nil]
  · rw [foldl_rows]
    refine congrArg _ (paint_congr_color hs.2 rectPixels_color (fun p hp => (mem_rows.1 hp).2.2)
      fun i j hw => (mem_rectPixels_iff_inRect hw).trans ⟨fun hin => ?_, ?_⟩)
    · obtain ⟨hx, hx', hy, hy'⟩ := hin
      have hi : i ∈ fromTo x (x + w - 1) := mem_fromTo.2 ⟨hx, by omega⟩
      have hj : j ∈ fromTo y (y + h - 1) := mem_fromTo.2 ⟨hy, by omega⟩
      exact ⟨⟨i, j, s.color⟩, mem_rows.2 ⟨hi, hj, rfl⟩, rfl, rfl⟩
    · rintro ⟨p, hp, rfl, rfl⟩
      obtain ⟨hx, hy, -⟩ := mem_rows.1 hp
      rw [mem_fromTo] at hx hy
      omega

/-! ### Empty sizes (R106, R107, R153, R220) -/

theorem borderPixels_of_empty (s : State) {x y w h : Int} (he : w ≤ 0 ∨ h ≤ 0) :
    s.borderPixels x y w h = [] :=
  if_pos he

theorem xbmPixels_of_empty (s : State) {x y w h : Int} (bytes : List Byte) (he : w ≤ 0 ∨ h ≤ 0) :
    s.xbmPixels x y w h bytes = [] :=
  if_pos he

/-- A guarded command that would draw nothing leaves the state as it is, with and without a framebuffer. -/
theorem guardFb_paint_nil {s : State} (hs : s.fbOk = false ∨ s.FbSound)
    (ps : State → List PixelWrite) (hps : ps s = []) :
    guardFb s (fun s => paint (ps s) s) = .next s := by
  by_cases hfb : s.fbOk = false
  · exact guardFb_absent hfb _
  · have hready : Ready s := ⟨by simpa using hfb, hs.resolve_left hfb⟩
    rw [guardFb_paint hready, hps, paint_nil]

/-- Settles O23: each of the three pixel lists is empty. -/
theorem emptySizesDrawNothing : Obligations.EmptySizesDrawNothing := by
  intro s x y w h bytes hs he
  exact ⟨guardFb_paint_nil hs (·.rectPixels x y w h) (rectPixels_of_empty s he),
    guardFb_paint_nil hs (·.borderPixels x y w h) (borderPixels_of_empty s he),
    guardFb_paint_nil hs (·.xbmPixels x y w h bytes) (xbmPixels_of_empty s bytes he)⟩

/-! ## Registers and the inspection port (R108 to R111) -/

/-- Settles O24: a 16-bit coordinate fits the cursor register, so it is stored exactly. -/
theorem cursorAndColorStored : Obligations.CursorAndColorStored := by
  rintro s x y v ⟨hx, hx'⟩ ⟨hy, hy'⟩
  exact ⟨⟨BitVec.ofInt 32 x, BitVec.ofInt 32 y, toInt_ofInt32 (by omega) (by omega),
    toInt_ofInt32 (by omega) (by omega), rfl⟩, rfl⟩

/-- Settles O25: the three branches of `READ_FB`. -/
theorem readFbReturnsByte : Obligations.ReadFbReturnsByte := by
  refine fun s index => ⟨fun hfb => exec_readFb_of_absent hfb index,
    fun hs hindex => exec_readFb_in_range hs hindex, fun hfb hrange hindex => ?_⟩
  rw [exec_readFb_out_of_range hfb hrange, header_readFb hindex, raiseIllegal_eq]

/-- Settles O16: the byte read is the one `SetPixel` wrote, whose bit is the value. -/
theorem setPixelReadsBack : Obligations.SetPixelReadsBack := by
  intro s x y v hs hw
  have htr := translate_of_inWindow hw
  obtain ⟨old, hold, hset⟩ := setPixel_of_translate hs.2 v htr
  have ht : Ready (setPixel x y v s) := ⟨(setPixel_fbOk x y v s).trans hs.1, setPixel_sound hs.2 x y v⟩
  obtain ⟨hlt, hbit⟩ := translate_bounds hs.2 htr
  obtain ⟨byte, hbyte, hread⟩ := exec_readFb_in_range ht (by rwa [setPixel_cfg])
  refine ⟨_, _, exec_setPixel_of_ready hs x y v, hread, ?_, ?_⟩
  · rw [hset, withFb_fb, Memory.read_write_same _ hold] at hbyte
    obtain rfl := Option.some.inj hbyte
    have h32 : y.toNat % 8 < 32 := by omega
    rw [setResult_result, BitVec.getLsbD_setWidth, getLsbD_setBit _ hbit, if_pos rfl,
      decide_eq_true h32, Bool.true_and]
  · rw [setResult_ill, hset, withFb_ill]

/-! ## A fill forgets what was drawn (R112) -/

theorem execAll_cons {i : Instr} {is : List Instr} {s t : State} (h : exec i s = .next t) :
    execAll (i :: is) s = execAll is t := by
  rw [execAll, h]

theorem execAll_cons_next {i : Instr} {is : List Instr} {s u : State}
    (h : execAll (i :: is) s = .next u) : ∃ t, exec i s = .next t ∧ execAll is t = .next u := by
  rw [execAll] at h
  split at h
  · next t ht => exact ⟨t, ht, h⟩
  · exact nomatch h
  · exact nomatch h

theorem execAll_cfg {is : List Instr} {s u : State} (h : execAll is s = .next u) :
    u.cfg = s.cfg := by
  induction is generalizing s with
  | nil => exact congrArg State.cfg (Host.Outcome.next.inj h).symm
  | cons i is ih =>
    obtain ⟨t, ht, hu⟩ := execAll_cons_next h
    exact (ih hu).trans (exec_keeps ht).1

/-- Settles O18: what `CLEAR` writes depends on the parameters only, which no command changes. -/
theorem clearForgetsDrawing : Obligations.ClearForgetsDrawing := by
  intro s u is hfb h
  have hcfg : u.cfg = s.cfg := execAll_cfg h
  have hufb : u.fbOk = true := by rwa [fbOk_eq, hcfg]
  refine ⟨_, _, exec_clear_of_fbOk hufb, exec_clear_of_fbOk hfb, ?_, rfl, rfl, rfl⟩
  show Memory.filled u.cfg.fbSize _ = Memory.filled s.cfg.fbSize _
  rw [hcfg]

end Sys2Proof.Proofs
end

section
/-! The glyph renderer (41_glyph.md): one cell, its bytes, and the loop of `PRINT`. -/

namespace Sys2Proof.Proofs
open Sys2Proof.Machine Sys2Proof.Claims

/-! ## Text metrics (R132, R135) -/

/-- Settles O27: the scale is hardwired to 1, so the width is 6 a character and fits the result register. -/
theorem textSizeAndWidth : Obligations.TextSizeAndWidth := by
  refine ⟨fun s n => rfl, fun s len hlen => ⟨_, ?_, rfl⟩⟩
  rw [textScale_eq, Config.charAdvance, BitVec.toNat_ofNat]
  omega

/-! ## One cell (R131, R133) -/

theorem exec_drawChar_of_ready {s : State} (hs : Ready s) (x y : Int) (c : Byte) :
    exec (.drawChar x y c) s = .next (drawGlyph x y c s) :=
  guardFb_ready hs.1 hs.2 _

/-- The rows a glyph column is written to, by `LSB_AT_TOP` (R131). -/
def glyphRow (s : State) (y : Int) (i : Nat) : Int := if s.lsbAtTop then y + i else y + 7 - i

theorem cellPixel_glyph (s : State) (x y : Int) (c : Byte) {k : Nat} (hk : k < 5) (i : Nat) :
    cellPixel s x y c (x + k) (glyphRow s y i) =
      if (s.fontColumn (glyphIndex c) k).getLsbD i then s.color else !s.color := by
  have hx : ¬ x + (k : Int) = x + 5 := by omega
  have hcol : (x + (k : Int) - x).toNat = k := by omega
  have hbit : (if s.lsbAtTop then (glyphRow s y i - y).toNat
      else (7 - (glyphRow s y i - y)).toNat) = i := by
    unfold glyphRow
    split <;> omega
  simp only [cellPixel, if_neg hx, hcol, hbit]
  rfl

theorem cellPixel_spacing (s : State) (x y : Int) (c : Byte) (j : Int) :
    cellPixel s x y c (x + 5) j = !s.color :=
  if_pos rfl

/-- The pixels of a cell are its rectangle, whatever the row order. -/
theorem inRect_cell_iff {s : State} {x y : Int} (c : Byte) {i j : Int} :
    InRect x y 6 8 i j ↔ ∃ p ∈ s.glyphPixels x y c, i = p.x ∧ j = p.y := by
  constructor
  · intro hin
    by_cases hcol : i = x + 5
    · have hrow : j = y + ((j - y).toNat : Nat) := by omega
      exact ⟨⟨i, j, !s.color⟩, mem_glyphPixels.2 (.inr ⟨_, by omega, hcol, hrow, rfl⟩), rfl, rfl⟩
    · have hi : i = x + ((i - x).toNat : Nat) := by omega
      obtain ⟨n, hn, hrow⟩ : ∃ n : Nat, n < 8 ∧ j = glyphRow s y n := by
        unfold glyphRow
        split
        · exact ⟨(j - y).toNat, by omega, by omega⟩
        · exact ⟨(y + 7 - j).toNat, by omega, by omega⟩
      exact ⟨⟨i, j, _⟩, mem_glyphPixels.2 (.inl ⟨_, n, by omega, hn, hi, hrow, rfl⟩), rfl, rfl⟩
  · rintro ⟨p, hp, rfl, rfl⟩
    obtain ⟨k, i, hk, hi, hx, hy, -⟩ | ⟨i, hi, hx, hy, -⟩ := mem_glyphPixels.1 hp
    · split at hy <;> omega
    · omega

theorem glyphPixels_value {s : State} {x y : Int} {c : Byte} :
    ∀ p ∈ s.glyphPixels x y c, p.v = cellPixel s x y c p.x p.y := by
  intro p hp
  obtain ⟨k, i, hk, -, hx, hy, hv⟩ | ⟨i, -, hx, -, hv⟩ := mem_glyphPixels.1 hp
  · rw [hv, hx, hy]
    exact (cellPixel_glyph s x y c hk i).symm
  · rw [hv, hx, cellPixel_spacing]

theorem paints_drawGlyph {s : State} (hs : s.FbSound) (x y : Int) (c : Byte) :
    Paints s (drawGlyph x y c s) (InRect x y 6 8) (cellPixel s x y c) :=
  paints_paint hs (fun _ _ _ => inRect_cell_iff c) fun p hp _ => glyphPixels_value p hp

/-- Settles O28: the pixel list of a cell is its rectangle, with the values R131 gives. -/
theorem drawCharPaintsCell : Obligations.DrawCharPaintsCell :=
  fun _ x y c hs => ⟨_, exec_drawChar_of_ready hs x y c, paints_drawGlyph hs.2 x y c⟩

/-! ## The bytes of an aligned cell (R131) -/

/-- A painted page column, read as a byte: its bits are the painted pixels of the column, from the top down. -/
theorem read_painted_column {s t : State} {P : Int → Int → Prop} {v : Int → Int → Bool}
    (h : Paints s t P v) (hs : s.FbSound) {x y : Nat} (hx : x < s.cfg.w) (hy : y % 8 = 0)
    (hyh : y + 8 ≤ s.cfg.h) (hP : ∀ b : Nat, b < 8 → P x (y + b : Nat)) :
    ∃ byte, Memory.read t.fb (y / 8 * s.cfg.iw + (x + s.offset)) = some byte ∧
      ∀ b, b < 8 → byte.getLsbD b = v x (y + b : Nat) := by
  obtain ⟨ht, hwf, hpixels, -⟩ := h
  have hwin : ∀ b : Nat, b < 8 → s.InWindow x (y + b : Nat) := by
    intro b hb
    unfold State.InWindow
    omega
  have htr : ∀ b : Nat, b < 8 →
      s.translate x (y + b : Nat) = some (y / 8 * s.cfg.iw + (x + s.offset), b) := by
    intro b hb
    rw [translate_of_inWindow (hwin b hb), Int.toNat_natCast, Int.toNat_natCast]
    have hpage : (y + b) / 8 = y / 8 := by omega
    have hbit : (y + b) % 8 = b := by omega
    rw [hpage, hbit]
  obtain ⟨byte, hbyte⟩ := Memory.read_of_lt hwf (translate_bounds hs (htr 0 (by decide))).1
  refine ⟨byte, hbyte, fun b hb => ?_⟩
  have hpixel := (hpixels x (y + b : Nat) (hwin b hb)).1 (hP b hb)
  have httr : t.translate x (y + b : Nat) = s.translate x (y + b : Nat) :=
    translate_congr (by rw [ht]) (by rw [ht]) _ _
  rw [State.pixelAt, httr, htr b hb] at hpixel
  simpa [hbyte] using hpixel

theorem fontColumn_of_glyph {s : State} (hf : s.cfg.FontOk) {c : Byte} (hlo : 0x20 ≤ c.toNat)
    (hhi : c.toNat ≤ 0x7E) {k : Nat} (hk : k < 5) :
    s.cfg.font[(c.toNat - 0x20) * 5 + k]? = some (s.fontColumn (glyphIndex c) k) := by
  have hg : glyphIndex c = c.toNat - 0x20 := if_pos ⟨hlo, hhi⟩
  have hlt : (c.toNat - 0x20) * 5 + k < s.cfg.font.length := by
    rw [hf]; omega
  rw [State.fontColumn, hg, Config.glyphW, List.getD_eq_getElem?_getD, List.getElem?_eq_getElem hlt]
  rfl

/-- Settles O29: each column of the cell is one byte, whose bits are the pixels of the cell. -/
theorem alignedCellHoldsGlyphBytes : Obligations.AlignedCellHoldsGlyphBytes := by
  intro s x y c hs hcolor hy hyh hx hlo hhi
  have hpaints := paints_drawGlyph hs.2 x y c
  have hcolumn : ∀ k : Nat, k ≤ 5 → ∃ byte,
      Memory.read (drawGlyph x y c s).fb (y / 8 * s.cfg.iw + (x + k + s.offset)) = some byte ∧
      ∀ b, b < 8 → byte.getLsbD b = cellPixel s x y c (x + k : Nat) (y + b : Nat) := by
    intro k hk
    exact read_painted_column hpaints hs.2 (by omega) hy hyh fun b hb => by omega
  refine ⟨_, exec_drawChar_of_ready hs x y c, ?_, fun k hk => ?_⟩
  · obtain ⟨byte, hread, hbits⟩ := hcolumn 5 le_rfl
    have hzero : byte = 0x00#8 := by
      apply BitVec.eq_of_getLsbD_eq
      intro b hb
      have hspacing := cellPixel_spacing s x y c (y + b : Nat)
      rw [hcolor] at hspacing
      simpa using (hbits b hb).trans hspacing
    rw [hread, hzero]
  · obtain ⟨byte, hread, hbits⟩ := hcolumn k (by omega)
    have hrows : ∀ i b : Nat, b < 8 → glyphRow s y i = (y + b : Nat) →
        byte.getLsbD b = (s.fontColumn (glyphIndex c) k).getLsbD i := by
      intro i b hb hrow
      have hpixel := cellPixel_glyph s x y c hk i
      rw [hrow, hcolor] at hpixel
      refine (hbits b hb).trans (hpixel.trans ?_)
      cases (s.fontColumn (glyphIndex c) k).getLsbD i <;> rfl
    refine ⟨byte, _, hread, fontColumn_of_glyph hs.2.1.2 hlo hhi hk, fun htop => ?_,
      fun htop b hb => hrows (7 - b) b hb ?_⟩
    · refine BitVec.eq_of_getLsbD_eq fun b hb => hrows b b hb ?_
      rw [glyphRow, if_pos htop]
      rfl
    · rw [glyphRow, if_neg (by simp [htop])]
      omega

end Sys2Proof.Proofs
end

section
/-! The loop of `PRINT` (41_glyph.md, R134, R136, R137): one round, the whole loop, and what fits the window. -/

namespace Sys2Proof.Proofs
open Sys2Proof.Machine Sys2Proof.Claims

theorem exec_print_of_ready {s : State} (hs : Ready s) (text : List Byte) :
    exec (.print text) s = .next (printText text s) :=
  guardFb_ready hs.1 hs.2 _

/-! ## One round (R134) -/

/-- A drawn character from a cursor whose coordinates the registers hold exactly. -/
theorem drawAtCursor_setCursor {s : State} {x y : Int} (c : Byte)
    (hx : (BitVec.ofInt 32 x).toInt = x) (hy : (BitVec.ofInt 32 y).toInt = y) :
    drawAtCursor c (s.setCursor x y) = { s with
      fb := (drawGlyph x y c s).fb
      cursorX := BitVec.ofInt 32 (x + 6)
      cursorY := BitVec.ofInt 32 y } := by
  have hfb : (drawGlyph x y c (s.setCursor x y)).fb = (drawGlyph x y c s).fb :=
    drawGlyph_fb_congr (s := s) (t := s.setCursor x y) rfl rfl rfl rfl rfl x y c
  rw [drawAtCursor_eq, setCursor_cursorX, setCursor_cursorY, hx, hy, hfb]
  rfl

theorem lineOverflows_setCursor {s : State} {x y : Int} (hy : (BitVec.ofInt 32 y).toInt = y) :
    (s.setCursor x y).LineOverflows ↔ y + 8 > s.cfg.h := by
  rw [lineOverflows_iff, setCursor_cursorY, hy, setCursor_cfg]

/-- A drawn character leaves a framebuffer as sound as it was; the cursor does not matter. -/
theorem ready_drawn {s : State} (hs : Ready s) (x y : Int) (c : Byte) (cx cy : BitVec 32) :
    Ready { s with fb := (drawGlyph x y c s).fb, cursorX := cx, cursorY := cy } := by
  have hsound := drawGlyph_sound hs.2 x y c
  rw [drawGlyph_eq] at hsound
  exact ⟨hs.1, hsound⟩

/-- The wrap of R134 as one write of the cursor. -/
theorem wrapCursor_eq_setCursor {s : State} {cx cy : Int}
    (h : (cx, cy) = if s.cursorX.toInt + 6 > s.cfg.w then (0, s.cursorY.toInt + 8)
      else (s.cursorX.toInt, s.cursorY.toInt)) : wrapCursor s = s.setCursor cx cy := by
  split at h
  · next hx =>
    obtain ⟨rfl, rfl⟩ := Prod.mk.inj h
    exact wrapCursor_of_overflow hx
  · next hx =>
    obtain ⟨rfl, rfl⟩ := Prod.mk.inj h
    rw [wrapCursor_of_fits (not_lt.1 hx), setCursor_self]

/-- Settles O30: one round of the loop, with a cursor that fits the registers before and after its wrap. -/
theorem printNextCharacter : Obligations.PrintNextCharacter := by
  intro s c cs cx cy hs hrange h
  have hwrap := wrapCursor_eq_setCursor h
  obtain ⟨hxlo, hxhi, hylo, hyhi, -⟩ := hrange
  obtain ⟨hcx, hcy⟩ : (BitVec.ofInt 32 cx).toInt = cx ∧ (BitVec.ofInt 32 cy).toInt = cy := by
    split at h <;> obtain ⟨rfl, rfl⟩ := Prod.mk.inj h <;>
      exact ⟨toInt_ofInt32 (by omega) (by omega), toInt_ofInt32 (by omega) (by omega)⟩
  have hstop : (wrapCursor s).LineOverflows ↔ cy + 8 > s.cfg.h := by
    rw [hwrap, lineOverflows_setCursor hcy]
  refine ⟨exec_print_of_ready hs [], fun hlow => ?_, fun hfits => ?_⟩
  · rw [exec_print_of_ready hs, printText_cons_stop (hstop.2 hlow), hwrap]
    rfl
  · refine ⟨(drawGlyph cx cy c s).fb, ?_, ?_⟩
    · rw [exec_drawChar_of_ready hs]
      exact congrArg _ (drawGlyph_eq cx cy c s)
    · rw [exec_print_of_ready hs, exec_print_of_ready (ready_drawn hs cx cy c _ _),
        printText_cons_draw (hstop.not.2 (not_lt.2 hfits)), hwrap, drawAtCursor_setCursor c hcx hcy]

/-! ## The whole loop (R63, R134, R136) -/

/-- Settles O31: what the loop changes, over every string. -/
theorem printChangesFbAndCursorOnly : Obligations.PrintChangesFbAndCursorOnly := by
  intro s text hs
  have hcfg : (printText text s).cfg = s.cfg := by rw [printText_eq]
  obtain ⟨-, hwf, -⟩ := printText_sound hs.2 text
  rw [hcfg] at hwf
  refine ⟨_, (printText text s).cursorX, (printText text s).cursorY, ?_, hwf, fun a ha => read_printText_hidden hs.2 text ha⟩
  rw [exec_print_of_ready hs]
  exact congrArg _ (printText_eq text s)

/-- Settles O32: the loop over `a ++ b` is the loop over `b` after the loop over `a`. -/
theorem printInPieces : Obligations.PrintInPieces := by
  intro s a b hs
  have hfb : (printText a s).fbOk = true := by
    rw [printText_eq]
    exact hs.1
  refine ⟨_, exec_print_of_ready hs a, ?_⟩
  rw [exec_print_of_ready hs, exec_print_of_ready ⟨hfb, printText_sound hs.2 a⟩,
    printText_append hs.2.1]

/-! ## Capacity (R137) -/

/-- The characters of a line, the lines of the window, and the characters of the window (R137). -/
def lineChars (c : Config) : Nat := c.w / 6
@[inherit_doc lineChars]
def windowLines (c : Config) : Nat := c.h / 8
@[inherit_doc lineChars]
def windowChars (c : Config) : Nat := lineChars c * windowLines c

/-- The place of character `k` in reading order (R137). -/
def charX (c : Config) (k : Nat) : Nat := 6 * (k % lineChars c)
@[inherit_doc charX]
def charY (c : Config) (k : Nat) : Nat := 8 * (k / lineChars c)

theorem lineChars_pos {c : Config} (hv : c.Valid) : 0 < lineChars c := by
  have hw := hv.1.2.2.2.1
  unfold lineChars
  omega

theorem charX_fits {c : Config} (hv : c.Valid) (k : Nat) : charX c k + 6 ≤ c.w := by
  have hlt := Nat.mod_lt k (lineChars_pos hv)
  unfold charX
  unfold lineChars at *
  omega

/-- The next character is on the same line unless that is full. -/
theorem charX_succ_of_fits {c : Config} {k : Nat} (hv : c.Valid) (h : charX c k + 12 ≤ c.w) :
    charX c (k + 1) = charX c k + 6 ∧ charY c (k + 1) = charY c k := by
  have hlt : k % lineChars c + 1 < lineChars c := by
    unfold charX at h
    unfold lineChars at *
    omega
  obtain ⟨hdiv, hmod⟩ := (Nat.div_mod_unique (a := k + 1) (d := k / lineChars c) (lineChars_pos hv)).2
    ⟨by have := Nat.mod_add_div k (lineChars c); omega, hlt⟩
  exact ⟨by rw [charX, charX, hmod]; omega, by rw [charY, charY, hdiv]⟩

theorem charX_succ_of_full {c : Config} {k : Nat} (hv : c.Valid) (h : ¬ charX c k + 12 ≤ c.w) :
    charX c (k + 1) = 0 ∧ charY c (k + 1) = charY c k + 8 := by
  have hpos := lineChars_pos hv
  have hlt := Nat.mod_lt k hpos
  have heq : k % lineChars c + 1 = lineChars c := by
    unfold charX at h
    unfold lineChars at *
    omega
  have hsum := Nat.mod_add_div k (lineChars c)
  obtain ⟨hdiv, hmod⟩ := (Nat.div_mod_unique (a := k + 1) (d := k / lineChars c + 1) hpos).2
    ⟨by rw [Nat.mul_add]; omega, hpos⟩
  exact ⟨by rw [charX, hmod], by rw [charY, charY, hdiv]; omega⟩

/-- Character `k` has a line in the window exactly while `k` is below the capacity. -/
theorem charY_fits_iff {c : Config} (hv : c.Valid) (k : Nat) :
    charY c k + 8 ≤ c.h ↔ k < windowChars c := by
  have hh := hv.1.1
  have hdiv := Nat.div_lt_iff_lt_mul (x := k) (y := windowLines c) (lineChars_pos hv)
  rw [windowChars, Nat.mul_comm, ← hdiv, charY, windowLines]
  omega

theorem charY_le {c : Config} (hv : c.Valid) {k : Nat} (hk : k ≤ windowChars c) :
    charY c k ≤ c.h := by
  have hline : k / lineChars c ≤ windowLines c := Nat.div_le_of_le_mul hk
  unfold charY
  unfold windowLines at hline
  omega

/-- The drawing commands of R137 for `text` from character `k` on. -/
def charCommands (c : Config) (k : Nat) (text : List Byte) : List Instr :=
  (text.take (windowChars c - k)).mapIdx fun j ch =>
    .drawChar (charX c (k + j) : Nat) (charY c (k + j) : Nat) ch

theorem charCommands_cons {c : Config} {k : Nat} (hk : k < windowChars c) (ch : Byte)
    (text : List Byte) :
    charCommands c k (ch :: text) =
      .drawChar (charX c k : Nat) (charY c k : Nat) ch :: charCommands c (k + 1) text := by
  have hn : windowChars c - k = windowChars c - (k + 1) + 1 := by omega
  rw [charCommands, hn, List.take_succ_cons, List.mapIdx_cons]
  refine congrArg₂ _ rfl (congrArg (List.mapIdx · _) (funext₂ fun j _ => ?_))
  have hj : k + (j + 1) = k + 1 + j := by omega
  rw [hj]

theorem charCommands_of_full {c : Config} {k : Nat} (hk : windowChars c ≤ k) (text : List Byte) :
    charCommands c k text = [] := by
  rw [charCommands, Nat.sub_eq_zero_of_le hk, List.take_zero, List.mapIdx_nil]

/-- `DRAW_CHAR` neither reads nor moves the cursor (R133). -/
theorem exec_drawChar_of_moved {s : State} (hs : Ready s) (x y : Int) (c : Byte)
    (cx cy : BitVec 32) :
    exec (.drawChar x y c) { s with cursorX := cx, cursorY := cy } =
      .next { s with fb := (drawGlyph x y c s).fb, cursorX := cx, cursorY := cy } := by
  have hfb : (drawGlyph x y c { s with cursorX := cx, cursorY := cy }).fb = (drawGlyph x y c s).fb :=
    drawGlyph_fb_congr (s := s) (t := { s with cursorX := cx, cursorY := cy }) rfl rfl rfl rfl rfl
      x y c
  rw [exec_drawChar_of_ready (s := { s with cursorX := cx, cursorY := cy }) hs, drawGlyph_eq, hfb]
  rfl

/-- The next character `PRINT` draws from `s`, or stops at, is character `k` of the window. -/
def AtChar (s : State) (k : Nat) : Prop :=
  wrapCursor s = s.setCursor (charX s.cfg k : Nat) (charY s.cfg k : Nat)

/-- After character `k` comes character `k + 1`: at the end of a line the wrap takes it to the next. -/
theorem atChar_succ {s : State} {k : Nat} (hv : s.cfg.Valid) (hk : k < windowChars s.cfg)
    (hx : s.cursorX = BitVec.ofInt 32 (charX s.cfg k + 6 : Int))
    (hy : s.cursorY = BitVec.ofInt 32 (charY s.cfg k : Int)) : AtChar s (k + 1) := by
  have hxfits := charX_fits hv k
  have hyfits := (charY_fits_iff hv k).2 hk
  obtain ⟨⟨-, -, hh, -, hw, hiw⟩, -⟩ := id hv
  have htx : s.cursorX.toInt = charX s.cfg k + 6 := by
    rw [hx]; exact toInt_ofInt32 (by omega) (by omega)
  have hty : s.cursorY.toInt = charY s.cfg k := by
    rw [hy]; exact toInt_ofInt32 (by omega) (by omega)
  by_cases hline : charX s.cfg k + 12 ≤ s.cfg.w
  · obtain ⟨hxs, hys⟩ := charX_succ_of_fits hv hline
    rw [AtChar, wrapCursor_of_fits (by omega), hxs, hys, Nat.cast_add, Nat.cast_ofNat, ← htx, ← hty,
      setCursor_self]
  · obtain ⟨hxs, hys⟩ := charX_succ_of_full hv hline
    rw [AtChar, wrapCursor_of_overflow (by omega), hxs, hys, Nat.cast_add (charY s.cfg k), ← hty]
    rfl

/-- From character `k`, `PRINT` draws what the commands of R137 draw. The commands do not read the cursor, so they run from
any: `PRINT` has moved its own. -/
theorem printText_fb_eq_charCommands {s : State} {k : Nat} (hs : Ready s) (hat : AtChar s k)
    (hk : k ≤ windowChars s.cfg) (text : List Byte) (cx cy : BitVec 32) :
    ∃ u, execAll (charCommands s.cfg k text) { s with cursorX := cx, cursorY := cy } = .next u ∧
      (printText text s).fb = u.fb := by
  induction text generalizing s k with
  | nil =>
    refine ⟨{ s with cursorX := cx, cursorY := cy }, ?_, rfl⟩
    rw [charCommands, List.take_nil, List.mapIdx_nil]
    rfl
  | cons c cs ih =>
    have hv := hs.2.1
    obtain ⟨⟨hh8, -, hh, -, hw, hiw⟩, -⟩ := id hv
    have hxfits := charX_fits hv k
    have hyle := charY_le hv hk
    have hx : (BitVec.ofInt 32 (charX s.cfg k : Nat)).toInt = (charX s.cfg k : Nat) :=
      toInt_ofInt32 (by omega) (by omega)
    have hy : (BitVec.ofInt 32 (charY s.cfg k : Nat)).toInt = (charY s.cfg k : Nat) :=
      toInt_ofInt32 (by omega) (by omega)
    have hstop : (wrapCursor s).LineOverflows ↔ ¬ k < windowChars s.cfg := by
      rw [hat, lineOverflows_setCursor hy, ← charY_fits_iff hv]
      omega
    by_cases hfull : k < windowChars s.cfg
    · have hdrawn := ready_drawn hs (charX s.cfg k : Nat) (charY s.cfg k : Nat) c
        (BitVec.ofInt 32 (charX s.cfg k + 6)) (BitVec.ofInt 32 (charY s.cfg k))
      obtain ⟨u, hu, hfb⟩ := ih hdrawn (atChar_succ hdrawn.2.1 hfull rfl rfl) hfull
      refine ⟨u, ?_, ?_⟩
      · rw [charCommands_cons hfull, execAll_cons (exec_drawChar_of_moved hs _ _ c cx cy)]
        simpa only using hu
      · rw [printText_cons_draw (fun h => hstop.1 h hfull), hat, drawAtCursor_setCursor c hx hy]
        exact hfb
    · refine ⟨{ s with cursorX := cx, cursorY := cy }, ?_, ?_⟩
      · rw [charCommands_of_full (not_lt.1 hfull)]
        rfl
      · rw [printText_cons_stop (hstop.2 hfull), hat]
        rfl

/-- Settles O33: the first character is at the origin, and the commands do not move the cursor. -/
theorem printCapacity : Obligations.PrintCapacity := by
  intro s text hs hx hy
  have hat : AtChar s 0 := by
    have hzero : charX s.cfg 0 = 0 ∧ charY s.cfg 0 = 0 := by simp [charX, charY]
    have hfits := charX_fits hs.2.1 0
    rw [AtChar, hzero.1, hzero.2, wrapCursor_of_fits (by rw [hx]; simp; omega)]
    conv => lhs; rw [← setCursor_self s, hx, hy]
    rfl
  obtain ⟨u, hu, hfb⟩ := printText_fb_eq_charCommands hs hat (Nat.zero_le _) text s.cursorX s.cursorY
  refine ⟨_, u, exec_print_of_ready hs text, ?_, hfb⟩
  rw [charCommands, Nat.sub_zero] at hu
  simp only [Nat.zero_add] at hu
  exact hu

end Sys2Proof.Proofs
end

section
/-! The bitmap unpacker (42_bitmap.md): the flags, the destinations of a bitmap's pixels and its mirror images. -/

namespace Sys2Proof.Proofs
open Sys2Proof.Machine Sys2Proof.Claims

/-- Settles O34: each flag command is one register write. -/
theorem bitmapFlagsStored : Obligations.BitmapFlagsStored :=
  fun _ _ => ⟨rfl, rfl, rfl⟩

theorem exec_drawXbm_of_ready {s : State} (hs : Ready s) (x y w h : Int) (bytes : List Byte) :
    exec (.drawXbm x y w h bytes) s = .next (paint (s.xbmPixels x y w h bytes) s) :=
  guardFb_paint hs fun s => s.xbmPixels x y w h bytes

/-- The mirror test with its number: only bitmaps below 100 columns are mirrored (R152). -/
theorem xbmDx_eq (s : State) (w : Int) (c : Nat) :
    s.xbmDx w c = if s.bmpFlipH = true ∧ w < 100 then w - 1 - c else (c : Int) := by
  have hmirror : s.mirrorH w = true ↔ s.bmpFlipH = true ∧ w < 100 := by
    rw [State.mirrorH, Bool.and_eq_true, decide_eq_true_iff]
    rfl
  exact if_congr hmirror rfl rfl

/-- The destinations of a bitmap's 1 bits are what its pixel list writes (R150 to R153). -/
theorem xbmOn_iff {s : State} {x y w h i j : Int} {bytes : List Byte} :
    XbmOn s x y w h bytes i j ↔ ∃ p ∈ s.xbmPixels x y w h bytes, i = p.x ∧ j = p.y := by
  constructor
  · rintro ⟨c, r, hc, hr, hsrc, hi, hj⟩
    rw [← xbmDx_eq] at hi
    exact ⟨⟨i, j, s.color⟩,
      mem_xbmPixels.2 ⟨c, r, hc, hr, xbmSource_eq_true.2 hsrc, hi, hj, rfl⟩, rfl, rfl⟩
  · rintro ⟨p, hp, rfl, rfl⟩
    obtain ⟨c, r, hc, hr, hsrc, hx, hy, -⟩ := mem_xbmPixels.1 hp
    rw [xbmDx_eq] at hx
    exact ⟨c, r, hc, hr, xbmSource_eq_true.1 hsrc, hx, hy⟩

theorem xbmPixels_color {s : State} {x y w h : Int} {bytes : List Byte} :
    ∀ p ∈ s.xbmPixels x y w h bytes, p.v = s.color := by
  intro p hp
  obtain ⟨c, r, -, -, -, -, -, hv⟩ := mem_xbmPixels.1 hp
  exact hv

theorem paints_drawXbm {s : State} (hs : Ready s) (x y w h : Int) (bytes : List Byte) :
    Paints s (paint (s.xbmPixels x y w h bytes) s) (XbmOn s x y w h bytes) fun _ _ => s.color :=
  paints_paint hs.2 (fun _ _ _ => xbmOn_iff) fun p hp _ => xbmPixels_color p hp

/-- A mirror image lies in the rectangle of its bitmap. -/
theorem inRect_of_xbmOn {s : State} {x y w h i j : Int} {bytes : List Byte}
    (hon : XbmOn s x y w h bytes i j) : InRect x y w h i j := by
  obtain ⟨c, r, hc, hr, -, hi, hj⟩ := hon
  split at hi <;> split at hj <;> omega

/-- Settles O35: the pixel list of `DRAW_XBM` is the destinations of the 1 bits, in `COLOR`. -/
theorem drawXbmPaintsSetBits : Obligations.DrawXbmPaintsSetBits := by
  intro s x y w h bytes hs
  exact ⟨_, exec_drawXbm_of_ready hs x y w h bytes, paints_drawXbm hs x y w h bytes,
    fun i j => inRect_of_xbmOn⟩

/-! ## Mirror images (R157) -/

theorem mirrorH_of_wide {w : Int} (hw : 100 ≤ w) (s : State) : s.mirrorH w = false := by
  have hnot : ¬ w < Config.xbmNoMirrorMinW := not_lt.2 hw
  rw [State.mirrorH, decide_eq_false hnot, Bool.and_false]

/-- A wide bitmap has one pixel list, whatever `BMP_FLIP_H`. -/
theorem xbmPixels_of_wide {w : Int} (hw : 100 ≤ w) (s : State) (v : Bool) (x y h : Int)
    (bytes : List Byte) :
    (s.setBmpFlipH v).xbmPixels x y w h bytes = s.xbmPixels x y w h bytes := by
  unfold State.xbmPixels State.xbmDx
  rw [mirrorH_of_wide hw, mirrorH_of_wide hw]
  rfl

theorem ready_setBmpFlipH {s : State} (hs : Ready s) (v : Bool) : Ready (s.setBmpFlipH v) := hs

/-- Settles O36: the two pixel lists are the one of `s`, and pixel writes do not read the flag. -/
theorem wideBitmapIgnoresFlipH : Obligations.WideBitmapIgnoresFlipH := by
  intro s x y w h bytes hs hw
  refine ⟨_, _, exec_drawXbm_of_ready (ready_setBmpFlipH hs true) x y w h bytes,
    exec_drawXbm_of_ready (ready_setBmpFlipH hs false) x y w h bytes, ?_⟩
  rw [xbmPixels_of_wide hw, xbmPixels_of_wide hw]
  exact paint_fb_congr (s := s.setBmpFlipH false) (t := s.setBmpFlipH true) rfl rfl rfl _

/-- A narrow bitmap's destinations with `BMP_FLIP_H = 1` are those with `BMP_FLIP_H = 0` mirrored. -/
theorem xbmOn_mirrored {s : State} {x y w h i j : Int} {bytes : List Byte} (hw : w < 100) :
    XbmOn (s.setBmpFlipH true) x y w h bytes i j ↔
      XbmOn (s.setBmpFlipH false) x y w h bytes (x + (x + w - 1 - i)) j := by
  simp only [XbmOn, setBmpFlipH_bmpFlipH, hw, and_self, if_true, Bool.false_eq_true, false_and,
    if_false]
  have hmirror : ∀ c : Nat, i = x + (w - 1 - c) ↔ x + (x + w - 1 - i) = x + c := by omega
  simp only [hmirror]
  rfl

theorem pixelAt_of_paints {s t : State} {P : Int → Int → Prop} {v : Bool} {b : Bool} {i j : Int}
    (h : Paints s t P fun _ _ => v) (hw : s.InWindow i j) (hb : s.pixelAt i j = some b)
    [Decidable (P i j)] : t.pixelAt i j = some (if P i j then v else b) := by
  obtain ⟨-, -, hpixels, -⟩ := h
  obtain ⟨hon, hoff⟩ := hpixels i j hw
  split
  · next hP => exact hon hP
  · next hP => exact (hoff hP).trans hb

/-- Settles O37: both images are whole, so each pixel of the rectangle is `COLOR` or the background by the mirrored
destinations. -/
theorem narrowBitmapMirrored : Obligations.NarrowBitmapMirrored := by
  classical
  intro s x y w h bytes blank hs hpos hw hx hxw hy hyh hblank
  have h1 := ready_setBmpFlipH hs true
  have h0 := ready_setBmpFlipH hs false
  refine ⟨_, _, exec_drawXbm_of_ready h1 x y w h bytes, exec_drawXbm_of_ready h0 x y w h bytes,
    fun i j hin => ?_⟩
  have hin' : InRect x y w h (x + (x + w - 1 - i)) j := by omega
  have hwin : s.InWindow i j := by unfold State.InWindow; omega
  have hwin' : s.InWindow (x + (x + w - 1 - i)) j := by unfold State.InWindow; omega
  rw [pixelAt_of_paints (paints_drawXbm h1 x y w h bytes) hwin (hblank i j hin),
    pixelAt_of_paints (paints_drawXbm h0 x y w h bytes) hwin' (hblank _ j hin')]
  simp only [xbmOn_mirrored hw]
  rfl

end Sys2Proof.Proofs
end
